-- ==== Sys2Proof/Word.lean ====
section
/-! DEFINITION. The words of the AUDIO-DSP block: every word it exchanges is 32 bits wide (R14, R54).
A sample and an `f32` register are words read as IEEE 754 binary32 (R16); the arithmetic on them is in
Machine/Float32.lean. -/

namespace Sys2Proof

/-- A 32-bit word, as every port carries it and every slot holds it (R14). -/
abbrev Word := BitVec 32

/-- A byte of a byte-wide channel (R54). -/
abbrev Byte := BitVec 8

/-- The count field `N` of a command word: 24 bits, unsigned (R68). -/
abbrev Count := BitVec 24

/-- The sample `+0.0`, "silence" (R16). -/
def silence : Word := 0x00000000#32

/-- `1.0` in binary32 (R16). -/
def one : Word := 0x3F800000#32

/-- The word of `-0.0` (R16). -/
def negZero : Word := 0x80000000#32

end Sys2Proof
end

