-- ==== Sys2Proof/Syntax.lean ====
section
/-! DEFINITION. The commands of the block, one constructor for each row of spec/opcode_table.json, with the
words of its frame as arguments (R69, R70), and the ports that carry them (R52). -/

namespace Sys2Proof

/-- The three ports that accept commands (R52). P_FILE, where the block is the one that asks, accepts none. -/
inductive Port where
  /-- P_PROD, the capture source's port. -/
  | prod
  /-- P_REND, the render trigger's and output sink's port. -/
  | rend
  /-- P_CTRL, the control surface's port. -/
  | ctrl
  deriving DecidableEq, Repr

/-- The three command ports. -/
def Port.all : List Port := [.prod, .rend, .ctrl]

/-- A port's place in `Port.all`. -/
def Port.rank : Port → Nat
  | .prod => 0
  | .rend => 1
  | .ctrl => 2

/-- A command (R69). A `CFG_WRITE` carries its data word, an `RB_WRITE` its samples: the count `N` of its
command word is how many there are (R70). -/
inductive Instr where
  | nop
  | rbWrite (samples : List Word)
  | render (n : Count)
  | cfgWriteEchoEn (v : Word)
  | cfgWriteDelayMs (v : Word)
  | cfgWriteLpAlpha (v : Word)
  | cfgWriteDistEn (v : Word)
  | cfgWriteDistGain (v : Word)
  | cfgWriteReverbEn (v : Word)
  | cfgWriteSourceMode (v : Word)
  | cfgReadEchoEn
  | cfgReadDelayMs
  | cfgReadLpAlpha
  | cfgReadDistEn
  | cfgReadDistGain
  | cfgReadReverbEn
  | cfgReadSourceMode
  | cfgReadRbCount
  | cfgReadRbHead
  | cfgReadRbTail
  | cfgReadSrcStatus
  | cfgReadParamC
  | cfgReadParamM
  | cfgReadParamK
  | cfgReadParamSr
  deriving DecidableEq, Repr

end Sys2Proof
end

