-- ==== Sys2Proof/Config.lean ====
section
/-! DEFINITION. The implementation parameters (R6 to R13), which a model takes as arguments: they are a
structure that the machine's state carries, so that every claim is about every parameter set. The values the
spec leaves open are constants without a body: nothing can be proved of one that is not proved of all. -/

namespace Sys2Proof

/-- The implementation parameters (section 3 of 00_scope.md). `BLOCK_N` is a reference value that nothing
enforces (R9), and `DELAY_MS_MAX` is derived (R13), so neither is a field. -/
structure Params where
  /-- RB_CAPACITY, the ring-buffer slots (R6). -/
  C : Nat
  /-- MAX_DELAY_SAMPLES, the length of each history array (R7). -/
  M : Nat
  /-- REVERB_TAPS (R8). -/
  K : Nat
  /-- SAMPLE_RATE, used only to turn milliseconds into samples (R9). -/
  SR : Nat
  /-- ECHO_FEEDBACK, binary32 (R10). -/
  F : Word
  /-- REVERB_BASE_DECAY, binary32 (R11). -/
  B : Word
  /-- CLIP_LIMIT, binary32 (R12). -/
  L : Word
  deriving DecidableEq, Repr

/-- `DELAY_MS_MAX = max(1, (1000·M − 1) div SR)` (R13). -/
def Params.delayMsMax (p : Params) : Nat := max 1 ((1000 * p.M - 1) / p.SR)

/-- FREE VALUE (log 1; R6 leaves `C` open, 1 ≤ C ≤ 2^24 − 1): the ring capacity less one. -/
opaque Config.ringCapacityLessOne : Fin 16777215

/-- FREE VALUE (log 1; R7 leaves `M` open, 1 ≤ M ≤ 2^24): the history length less one. -/
opaque Config.historyLengthLessOne : Fin 16777216

/-- The parameter set of `State.reset`: `C` and `M` open, the others at the spec's defaults (log 2; R8 to R12). -/
def Config.params : Params :=
  { C := Config.ringCapacityLessOne.val + 1, M := Config.historyLengthLessOne.val + 1, K := 6, SR := 44100,
    F := 0x3F000000#32, B := 0x3F000000#32, L := 0x3F4CCCCD#32 }

/-- FREE VALUE (log 3; R18, I16): the sign and the low 22 bits of the NaN that the n-th NaN-producing
operation returns. -/
opaque Config.nanPayload : Nat → BitVec 23

/-- FREE VALUE (log 4; R60, R62, I17): how many commands the arbitration means to perform before one that is sent on a
port when `turn` commands have been taken. -/
opaque Config.arbiter : Port → Nat → Nat

end Sys2Proof
end

