-- ==== Sys2Proof/Machine/State.lean ====
section
/-! DEFINITION. The state of the block (10_state.md), as plain data, and the state right after reset (R48, R132).
A field is named after the spec's `Unit.field`. The model's own fields are `grant`, `turn`, `due` and `draws`; what
crosses the ports is held as lists of words (20_memory.md R52). -/

namespace Sys2Proof.Machine

/-- A storage array of 32-bit slots (R49): the slots that do not hold `+0.0`, as pairs of index and word with
strictly rising indices. An unlisted slot holds `+0.0`, its reset value (R22, R29, R31; log 13). -/
abbrev Memory := List (Nat × Word)

/-- The ring buffer (R22 to R26). -/
structure Ring where
  /-- `RB.store[0..C−1]` (R22). -/
  store : Memory
  /-- `RB.head`, the next write index (R23). -/
  head : Nat
  /-- `RB.tail`, the next read index (R24). -/
  tail : Nat
  /-- `RB.count`, the occupied slots; not a modular quantity (R25). -/
  count : Nat
  deriving DecidableEq, Repr

/-- The filter bank's state (R28 to R34). The distortion stage has none (R35). -/
structure Filters where
  /-- `LP.mem` (R28). -/
  lpMem : Word
  /-- `EH[0..M−1]`, the echo history (R29). -/
  eh : Memory
  /-- `EI`, the echo write cursor (R30). -/
  ei : Nat
  /-- `RH[t][0..M−1]`, the `K` reverb histories (R31). -/
  rh : List Memory
  /-- `RI`, the reverb write cursor (R32). -/
  ri : Nat
  deriving DecidableEq, Repr

/-- The values of SOURCE_MODE (R42). -/
inductive SourceMode where
  /-- 0: RENDER reads the ring buffer. -/
  | ring
  /-- 1: RENDER pulls from the file sample source. -/
  | file
  deriving DecidableEq, Repr

/-- The configuration registers (R36 to R42). -/
structure Cfg where
  /-- ECHO_EN (R36). -/
  echoEnabled : Bool
  /-- DELAY_MS, a 32-bit two's-complement integer (R37). -/
  delayMs : Word
  /-- LP_ALPHA, an f32 word (R38). -/
  lowpassAlpha : Word
  /-- DIST_EN (R39). -/
  distortionEnabled : Bool
  /-- DIST_GAIN, an f32 word (R40). -/
  distortionGain : Word
  /-- REVERB_EN (R41). -/
  reverbEnabled : Bool
  /-- SOURCE_MODE (R42). -/
  sourceMode : SourceMode
  deriving DecidableEq, Repr

/-- One reverb tap: its delay `d_t` and its weight `w_t` (R87). -/
structure Tap where
  delay : Nat
  weight : Word
  deriving DecidableEq, Repr

/-- The snapshot a RENDER takes at its start: the registers, the delay `D` and the taps (R99). -/
structure Snapshot where
  cfg : Cfg
  /-- `D` (R86). -/
  delay : Nat
  taps : List Tap
  deriving DecidableEq, Repr

/-- A RENDER that waits on FILE_PULL: its count and its snapshot (R62, R99, R132; log 7). -/
structure InFlight where
  n : Count
  snap : Snapshot
  deriving DecidableEq, Repr

/-- One port's words, as the block sees them (R52): `rx` those sent to the block and not yet consumed, oldest
first; `tx` those the block has sent, oldest first (log 5). A command port's `rx` holds at most one command's frame
(R47, R52): `State.send` puts none on a port that has one outstanding. -/
structure Wire where
  rx : List Word
  tx : List Word
  deriving DecidableEq, Repr

/-- For each command port a number of commands taken: the arbitration means to serve the port's command when that many
have been taken (log 4). -/
structure Turns where
  prod : Nat
  rend : Nat
  ctrl : Nat
  deriving DecidableEq, Repr

/-- The machine's state. -/
structure State where
  /-- The implementation parameters; PARAM_C, PARAM_M, PARAM_K and PARAM_SR read four of them (R44). -/
  par : Params
  /-- The ring buffer. -/
  rb : Ring
  /-- The filter bank. -/
  fb : Filters
  /-- The configuration registers. -/
  cfg : Cfg
  /-- `SRC.fileExhausted` (R43). -/
  fileExhausted : Bool
  /-- P_PROD (R52). -/
  prod : Wire
  /-- P_REND (R52). -/
  rend : Wire
  /-- P_CTRL (R52). -/
  ctrl : Wire
  /-- P_FILE (R52): `rx` holds the file source's answers, `tx` the block's requests (R107). -/
  file : Wire
  /-- The RENDER that waits on the file source, if one does (log 7). -/
  inFlight : Option InFlight
  /-- The reset input (R132; log 11). -/
  resetIn : Bool
  /-- The MODEL's own: the port whose command is being performed; its response goes there (log 20). -/
  grant : Port
  /-- The MODEL's own: how many commands have been taken; indexes `Config.arbiter` (log 4). -/
  turn : Nat
  /-- The MODEL's own: the turn that the arbitration gave each port's command when it was sent (R62; log 4). -/
  due : Turns
  /-- The MODEL's own: how many NaN payloads have been drawn; indexes `Config.nanPayload` (log 3). -/
  draws : Nat
  deriving DecidableEq, Repr

/-- Why the machine stops with a fault. -/
inductive Fault where
  /-- Raised by `step`, through `fetch`, in a state that breaks an invariant of R26, R33 or R34, as R130 asks. It is
  unrecoverable: neither reset nor any move of the outside world mends the state, and every later step raises it again.
  Safe: no run from reset reaches such a state, and the model claims nothing of what would follow (log 10). -/
  | invariantBroken
  deriving DecidableEq, Repr

/-- Why a command has no meaning. -/
inductive Refusal where
  /-- Raised by `exec` for a command that the model does not cover yet. Safe: the machine stops where the block
  would go on. No arm of `exec` raises it: every command has its meaning. -/
  | notModelled (mnemonic : String)
  deriving DecidableEq, Repr

/-! ### Reset (R48, R132) -/

/-- The ring buffer after reset. -/
def Ring.reset : Ring := { store := [], head := 0, tail := 0, count := 0 }

/-- The filter bank after reset, with `k` reverb histories. -/
def Filters.reset (k : Nat) : Filters :=
  { lpMem := silence, eh := [], ei := 0, rh := List.replicate k [], ri := 0 }

/-- The configuration registers after reset: the identity pipeline (R133). -/
def Cfg.reset : Cfg :=
  { echoEnabled := false, delayMs := 1#32, lowpassAlpha := silence, distortionEnabled := false,
    distortionGain := one, reverbEnabled := false, sourceMode := .ring }

/-- A port on which nothing has been sent. -/
def Wire.idle : Wire := { rx := [], tx := [] }

/-- The state after reset of a block with given parameters (R48). -/
def State.resetWith (p : Params) : State :=
  { par := p, rb := Ring.reset, fb := Filters.reset p.K, cfg := Cfg.reset, fileExhausted := false,
    prod := Wire.idle, rend := Wire.idle, ctrl := Wire.idle, file := Wire.idle, inFlight := none,
    resetIn := false, grant := .prod, turn := 0,
    due := { prod := 0, rend := 0, ctrl := 0 }, draws := 0 }

/-- The machine right after reset (R48). `C` and `M` are open (log 1); the other parameters are the spec's
defaults (log 2). -/
def State.reset : State := State.resetWith Config.params

end Sys2Proof.Machine
end

