-- ==== Sys2Proof/Machine/Flags.lean ====
section
/-! DEFINITION. The block has no condition codes (R46). What it has instead: the status code a command ends with,
and its one-bit registers, which are written from bit 0 of a word and read zero-extended. -/

namespace Sys2Proof.Machine

/-- The status codes (R118). Codes 6 and 7 are reserved and never returned, so they have no name here (I22). -/
inductive Status where
  | ok
  | bufferFull
  | bufferUnderrun
  | invalidParameter
  | sourceExhausted
  | illegalCommand
  deriving DecidableEq, Repr

/-- The code of a status (R118). -/
def Status.code : Status → BitVec 3
  | .ok => 0#3
  | .bufferFull => 1#3
  | .bufferUnderrun => 2#3
  | .invalidParameter => 3#3
  | .sourceExhausted => 4#3
  | .illegalCommand => 5#3

/-- The status word: the code in bits 2:0, bits 31:3 zero (R71). -/
def Status.word (st : Status) : Word := st.code.setWidth 32

/-- The one bit that a write of a one-bit register keeps: bit 0 of the data word (R112, R116). -/
def bit0 (v : Word) : Bool := v.getLsbD 0

/-- `zext_32` of a bit (R14). -/
def zextBool (b : Bool) : Word := if b then 1#32 else 0#32

/-- `zext_32` of an unsigned integer (R14). -/
def zext (n : Nat) : Word := BitVec.ofNat 32 n

/-- SOURCE_MODE as its bit (R42). -/
def SourceMode.bit : SourceMode → Bool
  | .ring => false
  | .file => true

/-- The SOURCE_MODE of a bit (R42, R116). -/
def SourceMode.ofBit : Bool → SourceMode
  | false => .ring
  | true => .file

end Sys2Proof.Machine
end

