-- ==== Sys2Proof/Machine/Float32.lean ====
section
/-! DEFINITION. IEEE 754 binary32 arithmetic as R16 asks for it: each operation on the exact operands, rounded
once to nearest, ties to even; subnormals kept; no flags; a NaN result is any quiet NaN (R18). The layout and
the meaning of the operations are general knowledge that the spec marks as such (G1, G2; log 15).

Every finite binary32 number is an integer multiple of 2^(-149), so a value is held as the exact integer number
of those units, and one rounding function narrows an exact quotient of such integers to a word. -/

namespace Sys2Proof.Machine

/-! ### Fields and classes -/

/-- The magnitude bits 30:0. -/
def F32.mag (a : Word) : Nat := a.toNat % 2 ^ 31

/-- The sign, bit 31. -/
def F32.neg? (a : Word) : Bool := a.msb

/-- The magnitude bits of infinity, 0x7F800000 (R16). -/
def F32.infMag : Nat := 0x7F800000

/-- `isNaN(a)` (R16): exponent all ones and a non-zero fraction. -/
def F32.isNaN (a : Word) : Bool := decide (F32.infMag < F32.mag a)

/-- Exponent all ones and a zero fraction. -/
def F32.isInf (a : Word) : Bool := F32.mag a == F32.infMag

/-- `±0.0`. -/
def F32.isZero (a : Word) : Bool := F32.mag a == 0

/-- Neither infinite nor NaN. -/
def F32.isFinite (a : Word) : Bool := decide (F32.mag a < F32.infMag)

/-- The word of a sign and magnitude bits. -/
def F32.pack (neg : Bool) (mag : Nat) : Word := BitVec.ofNat 32 ((if neg then 2 ^ 31 else 0) + mag)

/-- `neg`: flips bit 31 (R12, R96). -/
def F32.neg (a : Word) : Word := a ^^^ negZero

/-- The magnitude of a finite number in units of 2^(-149): the significand, with its hidden bit where the number
is normal, shifted by the exponent. -/
def F32.units (a : Word) : Nat :=
  if F32.mag a < 2 ^ 23 then F32.mag a
  else (2 ^ 23 + F32.mag a % 2 ^ 23) * 2 ^ (F32.mag a / 2 ^ 23 - 1)

/-- A finite number in units of 2^(-149). -/
def F32.value (a : Word) : Int := if F32.neg? a then -(F32.units a : Int) else (F32.units a : Int)

/-! ### Rounding -/

/-- The integer nearest to `num / den`, ties to even (R16). -/
def roundHalfEven (num den : Nat) : Nat :=
  if 2 * (num % den) < den then num / den
  else if den < 2 * (num % den) then num / den + 1
  else num / den + (num / den) % 2

/-- The magnitude bits of the binary32 number nearest to `num / den` units of 2^(-149), ties to even: below 2^24
units the spacing is one unit, and it doubles with each binade above; what rounds past the largest finite number
is infinity (R16). -/
def roundMag (num den : Nat) : Nat :=
  let k := Nat.log2 (num / den) - 23
  min (k * 2 ^ 23 + roundHalfEven num (den * 2 ^ k)) F32.infMag

/-! ### The exact operations: `none` where IEEE 754 gives a NaN -/

/-- The sum, rounded once. A zero sum is `+0.0` unless both operands are negative zeros. -/
def F32.add (a b : Word) : Option Word :=
  if F32.isNaN a || F32.isNaN b then none
  else if F32.isInf a then (if F32.isInf b && F32.neg? a != F32.neg? b then none else some a)
  else if F32.isInf b then some b
  else if F32.value a + F32.value b = 0 then some (F32.pack (F32.neg? a && F32.neg? b) 0)
  else some (F32.pack (decide (F32.value a + F32.value b < 0)) (roundMag (F32.value a + F32.value b).natAbs 1))

/-- The difference `a − b`, which is `a + (−b)`. -/
def F32.sub (a b : Word) : Option Word := if F32.isNaN b then none else F32.add a (F32.neg b)

/-- The product, rounded once; its sign is the exclusive or of the signs. -/
def F32.mul (a b : Word) : Option Word :=
  let s := F32.neg? a != F32.neg? b
  if F32.isNaN a || F32.isNaN b then none
  else if F32.isInf a || F32.isInf b then
    (if F32.isZero a || F32.isZero b then none else some (F32.pack s F32.infMag))
  else some (F32.pack s (roundMag (F32.units a * F32.units b) (2 ^ 149)))

/-- The quotient, rounded once; its sign is the exclusive or of the signs. -/
def F32.div (a b : Word) : Option Word :=
  let s := F32.neg? a != F32.neg? b
  if F32.isNaN a || F32.isNaN b then none
  else if F32.isInf a then (if F32.isInf b then none else some (F32.pack s F32.infMag))
  else if F32.isInf b then some (F32.pack s 0)
  else if F32.isZero b then (if F32.isZero a then none else some (F32.pack s F32.infMag))
  else some (F32.pack s (roundMag (F32.units a * 2 ^ 149) (F32.units b)))

/-- `i2f(n)` for a natural number (R16): exact up to 2^24. -/
def F32.ofNat (n : Nat) : Word := F32.pack false (roundMag (n * 2 ^ 149) 1)

/-! ### Comparisons (R16): false when either operand is NaN; `-0.0` equals `+0.0` -/

/-- The order of the non-NaN numbers: magnitude bits, negated where the sign is set. -/
def F32.key (a : Word) : Int := if F32.neg? a then -(F32.mag a : Int) else (F32.mag a : Int)

/-- `a < b`. -/
def flt (a b : Word) : Bool := !F32.isNaN a && !F32.isNaN b && decide (F32.key a < F32.key b)

/-- `a > b`. -/
def fgt (a b : Word) : Bool := flt b a

/-- `a ≤ b`. -/
def fle (a b : Word) : Bool := !F32.isNaN a && !F32.isNaN b && decide (F32.key a ≤ F32.key b)

/-! ### The primitives, with the NaN payload drawn (R18) -/

/-- A quiet NaN: exponent all ones, bit 22 set; the sign and the low 22 bits are given (R16, R18). -/
def quietNaN (free : BitVec 23) : Word := free.extractLsb' 22 1 ++ 0x1FF#9 ++ free.extractLsb' 0 22

/-- The result of an operation: the number it gives, or the next NaN draw. The second component is how many
draws have been made (log 3). -/
def settle (r : Option Word) (draws : Nat) : Word × Nat :=
  match r with
  | some w => (w, draws)
  | none => (quietNaN (Config.nanPayload draws), draws + 1)

/-- `fadd(a, b)` (R16). -/
def fadd (a b : Word) (draws : Nat) : Word × Nat := settle (F32.add a b) draws

/-- `fsub(a, b)` (R16). -/
def fsub (a b : Word) (draws : Nat) : Word × Nat := settle (F32.sub a b) draws

/-- `fmul(a, b)` (R16). -/
def fmul (a b : Word) (draws : Nat) : Word × Nat := settle (F32.mul a b) draws

/-- `fdiv(a, b)` (R16). -/
def fdiv (a b : Word) (draws : Nat) : Word × Nat := settle (F32.div a b) draws

end Sys2Proof.Machine
end

