-- ==== Sys2Proof/Machine/Operands.lean ====
section
/-! DEFINITION. The data word of a CFG_WRITE, validated at the register: the value that is committed and the
status that is reported (R113 to R115). The value is committed either way (R111). -/

namespace Sys2Proof.Machine

/-- `s32(w)`: a word read as a two's-complement integer (R15). -/
def s32 (w : Word) : Int := w.toInt

/-- W_DELAY's choice (R113): the value clamped to `[1, DELAY_MS_MAX]`. -/
def clampDelay (p : Params) (v : Word) : Word × Status :=
  if s32 v < 1 then (1#32, .invalidParameter)
  else if (p.delayMsMax : Int) < s32 v then (zext p.delayMsMax, .invalidParameter)
  else (v, .ok)

/-- W_ALPHA's choice (R114): the value clamped to `[+0.0, 1.0]`; a NaN commits `+0.0`; `-0.0` is stored as
`+0.0` without a complaint. -/
def clampAlpha (v : Word) : Word × Status :=
  if F32.isNaN v then (silence, .invalidParameter)
  else if flt v silence then (silence, .invalidParameter)
  else if fgt v one then (one, .invalidParameter)
  else if v = negZero then (silence, .ok)
  else (v, .ok)

/-- W_GAIN's choice (R115): a negative value or a NaN commits `+0.0`; `-0.0` is stored as `+0.0` without a
complaint; `+inf` is accepted. -/
def clampGain (v : Word) : Word × Status :=
  if F32.isNaN v then (silence, .invalidParameter)
  else if flt v silence then (silence, .invalidParameter)
  else if v = negZero then (silence, .ok)
  else (v, .ok)

end Sys2Proof.Machine
end

