-- ==== Sys2Proof/WellFormed.lean ====
section
/-! DEFINITION. Which commands have an encoding. The one bound is the 24-bit count field (R56, R68): an
RB_WRITE moves at most 2^24 − 1 samples. -/

namespace Sys2Proof

/-- The command has an encoding: an RB_WRITE's samples can be counted in 24 bits (R56). -/
def Instr.wellFormed : Instr → Bool
  | .nop => true
  | .rbWrite samples => decide (samples.length < 2 ^ 24)
  | .render _ => true
  | .cfgWriteEchoEn _ => true
  | .cfgWriteDelayMs _ => true
  | .cfgWriteLpAlpha _ => true
  | .cfgWriteDistEn _ => true
  | .cfgWriteDistGain _ => true
  | .cfgWriteReverbEn _ => true
  | .cfgWriteSourceMode _ => true
  | .cfgReadEchoEn => true
  | .cfgReadDelayMs => true
  | .cfgReadLpAlpha => true
  | .cfgReadDistEn => true
  | .cfgReadDistGain => true
  | .cfgReadReverbEn => true
  | .cfgReadSourceMode => true
  | .cfgReadRbCount => true
  | .cfgReadRbHead => true
  | .cfgReadRbTail => true
  | .cfgReadSrcStatus => true
  | .cfgReadParamC => true
  | .cfgReadParamM => true
  | .cfgReadParamK => true
  | .cfgReadParamSr => true

end Sys2Proof
end

