-- ==== Sys2Proof/Decode.lean ====
section
/-! DEFINITION. The command word's fields, the frame and response lengths, the decoder and the encoder
(30_encoding.md), and the order of a word's bytes on a byte-wide channel (R54). Decoding depends on the port
and the frame alone (R73). -/

namespace Sys2Proof

/-! ### The command word (R68) -/

/-- `OPC`, bits 31:28 (R68). -/
def opcOf (w : Word) : BitVec 4 := w.extractLsb' 28 4

/-- `SEL`, bits 27:24 (R68). -/
def selOf (w : Word) : BitVec 4 := w.extractLsb' 24 4

/-- `N`, bits 23:0, unsigned and not scaled (R68). -/
def countOf (w : Word) : Count := w.extractLsb' 0 24

/-- The command word of the three fields (R68). -/
def commandWord (opc sel : BitVec 4) (n : Count) : Word := opc ++ sel ++ n

/-- How many payload words follow the command word, whatever the command's outcome (R70). -/
def payloadWords (w : Word) : Nat :=
  match (opcOf w).toNat with
  | 1 => (countOf w).toNat
  | 3 => 1
  | _ => 0

/-- How many data words follow the status word of the response, whatever the status (R71). -/
def responseWords (w : Word) : Nat :=
  match (opcOf w).toNat with
  | 2 => (countOf w).toNat
  | 4 => 1
  | _ => 0

/-- The frame at the front of the words of a port, and the words after it: the command word alone fixes the
frame's length (R70). `none` where the words do not hold a whole frame (log 6). -/
def nextFrame : List Word → Option (List Word × List Word)
  | [] => none
  | w :: ws =>
    if payloadWords w ≤ ws.length then some (w :: ws.take (payloadWords w), ws.drop (payloadWords w)) else none

/-- Words that are one frame, whole and alone: what the port layer delivers (R55). -/
def wholeFrame (ws : List Word) : Bool := decide (nextFrame ws = some (ws, []))

/-! ### Decoding (R73) -/

/-- Why a frame decodes to no command (R75). Every reason ends the command with the same status,
ILLEGAL_COMMAND, so which one applies is not observable (R121). -/
inductive Illegal where
  /-- OPC 0x0 with another bit set (R75). -/
  | nopWithFields
  /-- A command on a port that does not accept it (R74). -/
  | wrongPort
  /-- RB_WRITE or RENDER with SEL ≠ 0 (R75). -/
  | selNotZero
  /-- CFG_WRITE or CFG_READ with N ≠ 0 (R75). -/
  | countNotZero
  /-- SEL 0x7 (R45, R75). -/
  | selReserved
  /-- CFG_WRITE with SEL 0x8 to 0xF (R45, R75). -/
  | selReadOnly
  /-- OPC 0x5 to 0xF (R75). -/
  | opcReserved
  /-- A list of words that is no frame: the port layer never delivers one (R55). -/
  | notAFrame
  deriving DecidableEq, Repr

/-- What the decoder answers: a command, or the reason there is none. -/
inductive Decoded where
  | command (i : Instr)
  | illegal (why : Illegal)
  deriving DecidableEq, Repr

/-- CFG_WRITE by its SEL (R73, R111). -/
def decodeCfgWrite (sel : BitVec 4) (v : Word) : Decoded :=
  match sel.toNat with
  | 0 => .command (.cfgWriteEchoEn v)
  | 1 => .command (.cfgWriteDelayMs v)
  | 2 => .command (.cfgWriteLpAlpha v)
  | 3 => .command (.cfgWriteDistEn v)
  | 4 => .command (.cfgWriteDistGain v)
  | 5 => .command (.cfgWriteReverbEn v)
  | 6 => .command (.cfgWriteSourceMode v)
  | 7 => .illegal .selReserved
  | _ => .illegal .selReadOnly

/-- CFG_READ by its SEL (R73, R117). -/
def decodeCfgRead (sel : BitVec 4) : Decoded :=
  match sel.toNat with
  | 0 => .command .cfgReadEchoEn
  | 1 => .command .cfgReadDelayMs
  | 2 => .command .cfgReadLpAlpha
  | 3 => .command .cfgReadDistEn
  | 4 => .command .cfgReadDistGain
  | 5 => .command .cfgReadReverbEn
  | 6 => .command .cfgReadSourceMode
  | 7 => .illegal .selReserved
  | 8 => .command .cfgReadRbCount
  | 9 => .command .cfgReadRbHead
  | 10 => .command .cfgReadRbTail
  | 11 => .command .cfgReadSrcStatus
  | 12 => .command .cfgReadParamC
  | 13 => .command .cfgReadParamM
  | 14 => .command .cfgReadParamK
  | _ => .command .cfgReadParamSr

/-- The checks of R73, in its order, on a frame whose payload has the length its word gives it. -/
def decodeWord (p : Port) (w : Word) (payload : List Word) : Decoded :=
  match (opcOf w).toNat with
  | 0 => if w = 0#32 then .command .nop else .illegal .nopWithFields
  | 1 =>
    if p ≠ .prod then .illegal .wrongPort
    else if selOf w ≠ 0#4 then .illegal .selNotZero
    else .command (.rbWrite payload)
  | 2 =>
    if p ≠ .rend then .illegal .wrongPort
    else if selOf w ≠ 0#4 then .illegal .selNotZero
    else .command (.render (countOf w))
  | 3 =>
    if p ≠ .ctrl then .illegal .wrongPort
    else if countOf w ≠ 0#24 then .illegal .countNotZero
    else decodeCfgWrite (selOf w) (payload.headD 0#32)
  | 4 =>
    if p ≠ .ctrl then .illegal .wrongPort
    else if countOf w ≠ 0#24 then .illegal .countNotZero
    else decodeCfgRead (selOf w)
  | _ => .illegal .opcReserved

/-- Decode a frame received on a port (R73): total on every list of words. -/
def decode (p : Port) (frame : List Word) : Decoded :=
  match frame with
  | [] => .illegal .notAFrame
  | w :: payload => if payload.length = payloadWords w then decodeWord p w payload else .illegal .notAFrame

/-! ### Encoding (R69, R70) -/

/-- The frame of a command (R68 to R70). Only a well-formed command has one. -/
def encode : Instr → List Word
  | .nop => [commandWord 0x0 0x0 0]
  | .rbWrite samples => commandWord 0x1 0x0 (BitVec.ofNat 24 samples.length) :: samples
  | .render n => [commandWord 0x2 0x0 n]
  | .cfgWriteEchoEn v => [commandWord 0x3 0x0 0, v]
  | .cfgWriteDelayMs v => [commandWord 0x3 0x1 0, v]
  | .cfgWriteLpAlpha v => [commandWord 0x3 0x2 0, v]
  | .cfgWriteDistEn v => [commandWord 0x3 0x3 0, v]
  | .cfgWriteDistGain v => [commandWord 0x3 0x4 0, v]
  | .cfgWriteReverbEn v => [commandWord 0x3 0x5 0, v]
  | .cfgWriteSourceMode v => [commandWord 0x3 0x6 0, v]
  | .cfgReadEchoEn => [commandWord 0x4 0x0 0]
  | .cfgReadDelayMs => [commandWord 0x4 0x1 0]
  | .cfgReadLpAlpha => [commandWord 0x4 0x2 0]
  | .cfgReadDistEn => [commandWord 0x4 0x3 0]
  | .cfgReadDistGain => [commandWord 0x4 0x4 0]
  | .cfgReadReverbEn => [commandWord 0x4 0x5 0]
  | .cfgReadSourceMode => [commandWord 0x4 0x6 0]
  | .cfgReadRbCount => [commandWord 0x4 0x8 0]
  | .cfgReadRbHead => [commandWord 0x4 0x9 0]
  | .cfgReadRbTail => [commandWord 0x4 0xA 0]
  | .cfgReadSrcStatus => [commandWord 0x4 0xB 0]
  | .cfgReadParamC => [commandWord 0x4 0xC 0]
  | .cfgReadParamM => [commandWord 0x4 0xD 0]
  | .cfgReadParamK => [commandWord 0x4 0xE 0]
  | .cfgReadParamSr => [commandWord 0x4 0xF 0]

/-- Which ports accept a command (R74). -/
def Instr.acceptedOn (i : Instr) (p : Port) : Bool :=
  match i with
  | .nop => true
  | .rbWrite _ => p == .prod
  | .render _ => p == .rend
  | .cfgWriteEchoEn _ | .cfgWriteDelayMs _ | .cfgWriteLpAlpha _ | .cfgWriteDistEn _ | .cfgWriteDistGain _
  | .cfgWriteReverbEn _ | .cfgWriteSourceMode _ => p == .ctrl
  | .cfgReadEchoEn | .cfgReadDelayMs | .cfgReadLpAlpha | .cfgReadDistEn | .cfgReadDistGain | .cfgReadReverbEn
  | .cfgReadSourceMode | .cfgReadRbCount | .cfgReadRbHead | .cfgReadRbTail | .cfgReadSrcStatus | .cfgReadParamC
  | .cfgReadParamM | .cfgReadParamK | .cfgReadParamSr => p == .ctrl

/-! ### Bytes of a word on a byte-wide channel (R54) -/

/-- The four bytes of a word, least significant first (R54). -/
def bytesOfWord (w : Word) : List Byte :=
  [w.extractLsb' 0 8, w.extractLsb' 8 8, w.extractLsb' 16 8, w.extractLsb' 24 8]

/-- The bytes of a list of words, in order (R54). -/
def bytesOfWords (ws : List Word) : List Byte := ws.flatMap bytesOfWord

/-- The words that a byte-wide channel carries, and the bytes left over of an unfinished word (R54, R55). -/
def wordsOfBytes : List Byte → List Word × List Byte
  | b0 :: b1 :: b2 :: b3 :: bs => ((b3 ++ b2 ++ b1 ++ b0) :: (wordsOfBytes bs).1, (wordsOfBytes bs).2)
  | bs => ([], bs)

/-! ### The opcode table's words -/

/-- The port that accepts a word's operation (R69). NOP is accepted on any; P_CTRL stands for the three. -/
def portOfWord (w : Word) : Port :=
  match (opcOf w).toNat with
  | 1 => .prod
  | 2 => .rend
  | _ => .ctrl

/-- The frame whose bits are `w`, bit 0 the least significant bit of the first word and each later word's bits
counting on from it; every bit above `nbits` is 0. Its length is the one its first word gives it (R70). -/
def tableFrame (nbits w : Nat) : List Word :=
  let bits := w % 2 ^ nbits
  let first := BitVec.ofNat 32 bits
  first :: (List.range (payloadWords first)).map (fun j => BitVec.ofNat 32 (bits / 2 ^ (32 * (j + 1))))

/-- The command the decoder reads from the opcode table's word, on the port that accepts it. -/
def decodeTableWord (nbits w : Nat) : Option Instr :=
  match decode (portOfWord (BitVec.ofNat 32 (w % 2 ^ nbits))) (tableFrame nbits w) with
  | .command i => some i
  | .illegal _ => none

end Sys2Proof
end

