-- ==== Sys2Proof/Machine/Ops.lean ====
section
/-! DEFINITION. The operations over storage, ports and state that the meanings share. The block has no exceptions
(R122, R123): the one operation that ends every command, whatever its status, is `State.respond`. -/

namespace Sys2Proof.Machine

/-! ### Storage arrays (R49, R55) -/

/-- The word in a slot; an unlisted slot holds `+0.0` (log 13). -/
def Memory.read : Memory → Nat → Word
  | [], _ => silence
  | (k, w) :: rest, i => if k = i then w else Memory.read rest i

/-- Write a slot. Writing `+0.0` unlists it, so that equal contents are equal data. -/
def Memory.write : Memory → Nat → Word → Memory
  | [], i, v => if v = silence then [] else [(i, v)]
  | (k, w) :: rest, i, v =>
    if i < k then (if v = silence then (k, w) :: rest else (i, v) :: (k, w) :: rest)
    else if i = k then (if v = silence then rest else (i, v) :: rest)
    else (k, w) :: Memory.write rest i v

/-- The canonical form: indices strictly rising, no slot listed that holds `+0.0`. -/
def Memory.wf : Memory → Bool
  | [] => true
  | [(_, w)] => w != silence
  | (k, w) :: (k', w') :: rest => w != silence && decide (k < k') && Memory.wf ((k', w') :: rest)

/-- Every listed slot lies in an array of `len` slots. -/
def Memory.within (len : Nat) (m : Memory) : Bool := m.all (fun c => decide (c.1 < len))

/-- Write words to slots `i, i+1, …`, each index taken modulo `len`, in order (R79). -/
def Memory.writeRun (len : Nat) : Memory → Nat → List Word → Memory
  | m, _, [] => m
  | m, i, w :: ws => Memory.writeRun len (m.write (i % len) w) (i + 1) ws

/-- The words in slots `i, i+1, …, i+n−1`, each index taken modulo `len` (R80). -/
def Memory.readRun (len : Nat) (m : Memory) (i n : Nat) : List Word :=
  (List.range n).map (fun j => m.read ((i + j) % len))

/-- `(a − d) mod len` on integers: the slot `d` behind a cursor (R15, R90, R93). -/
def slotBehind (len cursor d : Nat) : Nat := (((cursor : Int) - (d : Int)) % (len : Int)).toNat

/-! ### Ports (R52) -/

/-- A command port's words. -/
def State.wire (s : State) : Port → Wire
  | .prod => s.prod
  | .rend => s.rend
  | .ctrl => s.ctrl

/-- Replace a command port's words. -/
def State.setWire (s : State) (p : Port) (w : Wire) : State :=
  match p with
  | .prod => { s with prod := w }
  | .rend => { s with rend := w }
  | .ctrl => { s with ctrl := w }

/-- Send words on a port, after those already sent. -/
def Wire.send (w : Wire) (out : List Word) : Wire := { w with tx := w.tx ++ out }

/-- `respond(S, words)`: end the current command with a status and response data words, on the port it came from
(R17, R71, R118). Every command ends here, with `raise S` being `respond(S, [])` from an unchanged state. -/
def State.respond (s : State) (st : Status) (data : List Word) : State :=
  s.setWire s.grant ((s.wire s.grant).send (st.word :: data))

/-- A word that decodes to no command: nothing changes, and the response has the length of R71 with all data
words zero (R119). -/
def State.refuseCommand (s : State) (w : Word) : State :=
  s.respond .illegalCommand (List.replicate (responseWords w) 0#32)

/-! ### The outside world's moves (R53, R107, R132; log 5, log 11) -/

/-- The turn given to the command on a port (log 4). -/
def Turns.get (d : Turns) : Port → Nat
  | .prod => d.prod
  | .rend => d.rend
  | .ctrl => d.ctrl

/-- Give the command on a port its turn. -/
def Turns.set (d : Turns) (p : Port) (n : Nat) : Turns :=
  match p with
  | .prod => { d with prod := n }
  | .rend => { d with rend := n }
  | .ctrl => { d with ctrl := n }

/-- The port has no command outstanding: none waits on it to be performed, and no RENDER from it waits for its
response (R47, R52). -/
def State.free (s : State) (p : Port) : Bool :=
  decide ((s.wire p).rx = []) && (s.inFlight.isNone || decide (s.grant ≠ p))

/-- Put a frame on a free port. The arbitration gives it a turn, not before the present one (R62; log 4). -/
def State.place (s : State) (p : Port) (frame : List Word) : State :=
  { s.setWire p { s.wire p with rx := frame } with due := s.due.set p (s.turn + Config.arbiter p s.turn) }

/-- An agent sends a command frame: one whole frame (R55), and only while its port has no command outstanding (R47,
R52). Anything else is no transfer, and nothing changes (log 5). -/
def State.send (s : State) (p : Port) (frame : List Word) : State :=
  if s.free p && wholeFrame frame then s.place p frame else s

/-- The file source answers with words on P_FILE. -/
def State.fileAnswer (s : State) (ws : List Word) : State := { s with file := { s.file with rx := s.file.rx ++ ws } }

/-- Reset is applied. -/
def State.assertReset (s : State) : State := { s with resetIn := true }

/-- What reset does (R132): every command not yet performed is discarded without a response, a waiting RENDER is
abandoned without a response, and every piece of the block's state takes its reset value (R48). The words already
sent to an agent stay sent, and what the file source puts on P_FILE is not the block's to discard (log 11). The
model's own counters go on, so that free values stay fresh. -/
def State.applyReset (s : State) : State :=
  { State.resetWith s.par with
    prod := { rx := [], tx := s.prod.tx }
    rend := { rx := [], tx := s.rend.tx }
    ctrl := { rx := [], tx := s.ctrl.tx }
    file := s.file
    grant := s.grant
    turn := s.turn
    due := s.due
    draws := s.draws }

/-! ### The invariants that R130 guards -/

/-- R26: `count ≤ C`, `head < C`, `tail < C`, `(head − tail) mod C = count mod C`. -/
def Ring.intact (r : Ring) (C : Nat) : Bool :=
  decide (r.count ≤ C) && decide (r.head < C) && decide (r.tail < C)
    && decide (((r.head : Int) - (r.tail : Int)) % (C : Int) = (r.count : Int) % (C : Int))

/-- R34: all histories of a list hold the same contents. -/
def sameHistories : List Memory → Bool
  | [] => true
  | h :: hs => hs.all (fun h' => decide (h' = h))

/-- The state breaks none of R26, R33 and R34 (R130, I25; log 10). -/
def State.intact (s : State) : Bool :=
  s.rb.intact s.par.C && decide (s.fb.ei = s.fb.ri) && sameHistories s.fb.rh

end Sys2Proof.Machine
end

