-- ==== Sys2Proof/Machine/Configure.lean ====
section
/-! DEFINITION. NOP (R110), CFG_WRITE (R111 to R116) and CFG_READ (R117). A CFG_WRITE commits the validated value
and reports whether it clamped; a CFG_READ returns the committed value and changes nothing (R59). -/

namespace Sys2Proof.Machine

/-- NOP (R110). -/
def execNop (s : State) : Host.Outcome State Fault Refusal := .next (s.respond .ok [])

/-! ### CFG_WRITE -/

/-- End a CFG_WRITE: the registers as committed, and the status (R111). -/
def State.commit (s : State) (c : Cfg) (st : Status) : State := { s with cfg := c }.respond st []

/-- CFG_WRITE ECHO_EN: bit 0 of the word (R112). -/
def execCfgWriteEchoEn (v : Word) (s : State) : Host.Outcome State Fault Refusal :=
  .next (s.commit { s.cfg with echoEnabled := bit0 v } .ok)

/-- CFG_WRITE DELAY_MS (R113). -/
def execCfgWriteDelayMs (v : Word) (s : State) : Host.Outcome State Fault Refusal :=
  .next (s.commit { s.cfg with delayMs := (clampDelay s.par v).1 } (clampDelay s.par v).2)

/-- CFG_WRITE LP_ALPHA (R114). -/
def execCfgWriteLpAlpha (v : Word) (s : State) : Host.Outcome State Fault Refusal :=
  .next (s.commit { s.cfg with lowpassAlpha := (clampAlpha v).1 } (clampAlpha v).2)

/-- CFG_WRITE DIST_EN: bit 0 of the word (R112). -/
def execCfgWriteDistEn (v : Word) (s : State) : Host.Outcome State Fault Refusal :=
  .next (s.commit { s.cfg with distortionEnabled := bit0 v } .ok)

/-- CFG_WRITE DIST_GAIN (R115). -/
def execCfgWriteDistGain (v : Word) (s : State) : Host.Outcome State Fault Refusal :=
  .next (s.commit { s.cfg with distortionGain := (clampGain v).1 } (clampGain v).2)

/-- CFG_WRITE REVERB_EN: bit 0 of the word (R112). -/
def execCfgWriteReverbEn (v : Word) (s : State) : Host.Outcome State Fault Refusal :=
  .next (s.commit { s.cfg with reverbEnabled := bit0 v } .ok)

/-- CFG_WRITE SOURCE_MODE: bit 0 of the word, and the file source is re-armed (R116). -/
def execCfgWriteSourceMode (v : Word) (s : State) : Host.Outcome State Fault Refusal :=
  .next ({ s with fileExhausted := false }.commit { s.cfg with sourceMode := SourceMode.ofBit (bit0 v) } .ok)

/-! ### CFG_READ -/

/-- End a CFG_READ with the word read (R117). -/
def State.answerRead (s : State) (d : Word) : State := s.respond .ok [d]

/-- CFG_READ of ECHO_EN (R36). -/
def execCfgReadEchoEn (s : State) : Host.Outcome State Fault Refusal := .next (s.answerRead (zextBool s.cfg.echoEnabled))

/-- CFG_READ of DELAY_MS, the word of the held value (R37). -/
def execCfgReadDelayMs (s : State) : Host.Outcome State Fault Refusal := .next (s.answerRead s.cfg.delayMs)

/-- CFG_READ of LP_ALPHA (R38). -/
def execCfgReadLpAlpha (s : State) : Host.Outcome State Fault Refusal := .next (s.answerRead s.cfg.lowpassAlpha)

/-- CFG_READ of DIST_EN (R39). -/
def execCfgReadDistEn (s : State) : Host.Outcome State Fault Refusal := .next (s.answerRead (zextBool s.cfg.distortionEnabled))

/-- CFG_READ of DIST_GAIN (R40). -/
def execCfgReadDistGain (s : State) : Host.Outcome State Fault Refusal := .next (s.answerRead s.cfg.distortionGain)

/-- CFG_READ of REVERB_EN (R41). -/
def execCfgReadReverbEn (s : State) : Host.Outcome State Fault Refusal := .next (s.answerRead (zextBool s.cfg.reverbEnabled))

/-- CFG_READ of SOURCE_MODE (R42). -/
def execCfgReadSourceMode (s : State) : Host.Outcome State Fault Refusal := .next (s.answerRead (zextBool s.cfg.sourceMode.bit))

/-- CFG_READ of RB_COUNT (R25). -/
def execCfgReadRbCount (s : State) : Host.Outcome State Fault Refusal := .next (s.answerRead (zext s.rb.count))

/-- CFG_READ of RB_HEAD (R23). -/
def execCfgReadRbHead (s : State) : Host.Outcome State Fault Refusal := .next (s.answerRead (zext s.rb.head))

/-- CFG_READ of RB_TAIL (R24). -/
def execCfgReadRbTail (s : State) : Host.Outcome State Fault Refusal := .next (s.answerRead (zext s.rb.tail))

/-- CFG_READ of SRC_STATUS, bit 0 `SRC.fileExhausted`, bits 31:1 zero (R43). -/
def execCfgReadSrcStatus (s : State) : Host.Outcome State Fault Refusal := .next (s.answerRead (zextBool s.fileExhausted))

/-- CFG_READ of PARAM_C (R44). -/
def execCfgReadParamC (s : State) : Host.Outcome State Fault Refusal := .next (s.answerRead (zext s.par.C))

/-- CFG_READ of PARAM_M (R44). -/
def execCfgReadParamM (s : State) : Host.Outcome State Fault Refusal := .next (s.answerRead (zext s.par.M))

/-- CFG_READ of PARAM_K (R44). -/
def execCfgReadParamK (s : State) : Host.Outcome State Fault Refusal := .next (s.answerRead (zext s.par.K))

/-- CFG_READ of PARAM_SR (R44). -/
def execCfgReadParamSr (s : State) : Host.Outcome State Fault Refusal := .next (s.answerRead (zext s.par.SR))

end Sys2Proof.Machine
end

