-- ==== Sys2Proof/Machine/Filters.lean ====
section
/-! DEFINITION. The filter bank (41_filters.md) and the pipeline that runs it over a block (R99 to R101). A stage
takes its input sample, the filter state and the count of NaN draws, and gives its output with what they become.
Every operation stands in the order of the stage's pseudocode (R16). -/

namespace Sys2Proof.Machine

/-- What a stage gives: its output sample, the filter state and the count of NaN draws after it. -/
structure Flow where
  y : Word
  fb : Filters
  draws : Nat
  deriving DecidableEq, Repr

/-- What a block of samples gives: the output samples, the filter state and the count of NaN draws after it. -/
structure BlockFlow where
  out : List Word
  fb : Filters
  draws : Nat
  deriving DecidableEq, Repr

/-! ### Delay derivation -/

/-- `D = min((delayMs · SR) div 1000, M − 1)` (R86). A negative `delayMs`, which no register write commits, counts
as 0 (log 14). -/
def delaySamples (p : Params) (c : Cfg) : Nat := min ((s32 c.delayMs).toNat * p.SR / 1000) (p.M - 1)

/-- The taps `t, t+1, …`, `k` of them (R87): `d_t = D div (t + 1)`, `w_t = fdiv(B, i2f(t + 1))`. -/
def tapsFrom (B : Word) (D : Nat) : Nat → Nat → Nat → List Tap × Nat
  | _, 0, draws => ([], draws)
  | t, k + 1, draws =>
    let w := fdiv B (F32.ofNat (t + 1)) draws
    let rest := tapsFrom B D (t + 1) k w.2
    ({ delay := D / (t + 1), weight := w.1 } :: rest.1, rest.2)

/-- The snapshot of the configuration, with `D` and the taps computed from it (R99). -/
def takeSnapshot (p : Params) (c : Cfg) (draws : Nat) : Snapshot × Nat :=
  let D := delaySamples p c
  let taps := tapsFrom p.B D 0 p.K draws
  ({ cfg := c, delay := D, taps := taps.1 }, taps.2)

/-! ### The stages -/

/-- LP (R88): one-pole low-pass; passthrough, bit for bit, when `α ≤ 0`. -/
def lowpass (a x : Word) (f : Filters) (draws : Nat) : Flow :=
  if fle a silence then { y := x, fb := { f with lpMem := x }, draws := draws }
  else
    let t1 := fmul a x draws
    let t2 := fsub one a t1.2
    let t3 := fmul t2.1 f.lpMem t2.2
    let y := fadd t1.1 t3.1 t3.2
    { y := y.1, fb := { f with lpMem := y.1 }, draws := y.2 }

/-- ECHO (R90): the dry sample is written before the read, so that `D = 0` reads it, and the slot is then
overwritten with the sum (C3). -/
def echo (p : Params) (D : Nat) (x : Word) (f : Filters) (draws : Nat) : Flow :=
  let provisional := f.eh.write f.ei x
  let v := provisional.read (slotBehind p.M f.ei D)
  let fv := fmul p.F v draws
  let y := fadd x fv.1 fv.2
  { y := y.1, fb := { f with eh := provisional.write f.ei y.1 }, draws := y.2 }

/-- The weighted taps, added in increasing `t` to an accumulator (R93, D37). -/
def tapSum (M ri : Nat) : List (Memory × Tap) → Word → Nat → Word × Nat
  | [], acc, draws => (acc, draws)
  | (h, tap) :: rest, acc, draws =>
    let wv := fmul tap.weight (h.read (slotBehind M ri tap.delay)) draws
    let sum := fadd acc wv.1 wv.2
    tapSum M ri rest sum.1 sum.2

/-- REVERB (R93): the input goes into every history, then the taps are read and their sum is added to it. -/
def reverb (p : Params) (taps : List Tap) (x : Word) (f : Filters) (draws : Nat) : Flow :=
  let rh := f.rh.map (fun h => h.write f.ri x)
  let sum := tapSum p.M f.ri (rh.zip taps) silence draws
  let y := fadd x sum.1 sum.2
  { y := y.1, fb := { f with rh := rh }, draws := y.2 }

/-- CLIP (R96): NaN to silence, and otherwise clipped to `[−L, +L]`. -/
def clip (L v : Word) : Word :=
  if F32.isNaN v then silence
  else if fgt v L then L
  else if flt v (F32.neg L) then F32.neg L
  else v

/-- DIST (R97): gain, then clip. It has no state (R35). -/
def distort (p : Params) (g x : Word) (f : Filters) (draws : Nat) : Flow :=
  let m := fmul x g draws
  { y := clip p.L m.1, fb := f, draws := m.2 }

/-- A stage that is switched off: the sample passes, and no history is written (R91, R94, D14). -/
def bypass (x : Word) (f : Filters) (draws : Nat) : Flow := { y := x, fb := f, draws := draws }

/-! ### The pipeline -/

/-- CURSOR_ADVANCE (R101). -/
def advanceCursors (M : Nat) (f : Filters) : Filters := { f with ei := (f.ei + 1) % M, ri := (f.ri + 1) % M }

/-- One sample through LP, ECHO, REVERB, DIST in that order, then the cursors (R100). -/
def processSample (p : Params) (snap : Snapshot) (x : Word) (f : Filters) (draws : Nat) : Flow :=
  let a := lowpass snap.cfg.lowpassAlpha x f draws
  let b := if snap.cfg.echoEnabled then echo p snap.delay a.y a.fb a.draws else bypass a.y a.fb a.draws
  let c := if snap.cfg.reverbEnabled then reverb p snap.taps b.y b.fb b.draws else bypass b.y b.fb b.draws
  let d := if snap.cfg.distortionEnabled then distort p snap.cfg.distortionGain c.y c.fb c.draws
    else bypass c.y c.fb c.draws
  { d with fb := advanceCursors p.M d.fb }

/-- PROCESS_BLOCK (R100): the samples strictly in order, each after every state change of the one before. -/
def processBlock (p : Params) (snap : Snapshot) : List Word → Filters → Nat → BlockFlow
  | [], f, draws => { out := [], fb := f, draws := draws }
  | x :: xs, f, draws =>
    let one := processSample p snap x f draws
    let rest := processBlock p snap xs one.fb one.draws
    { rest with out := one.y :: rest.out }

end Sys2Proof.Machine
end

