-- ==== Sys2Proof/Machine/Ring.lean ====
section
/-! DEFINITION. The ring-buffer sample queue: RB_WRITE (R79) and the internal RB_READ (R80). Each moves all of its
samples or none (R57, R83), and a sample is stored bit for bit. -/

namespace Sys2Proof.Machine

/-- The state after an enqueue that fits (R79): `head` is reduced modulo `C`, `count` is not (C2). -/
def Ring.enqueue (r : Ring) (C : Nat) (samples : List Word) : Ring :=
  { r with
    store := Memory.writeRun C r.store r.head samples
    head := (r.head + samples.length) % C
    count := r.count + samples.length }

/-- RB_READ (R80): the `n` oldest samples and the ring without them, or `none` (BUFFER_UNDERRUN). The slots read
are not cleared. -/
def Ring.dequeue (r : Ring) (C n : Nat) : Option (List Word × Ring) :=
  if r.count < n then none
  else some (r.store.readRun C r.tail n, { r with tail := (r.tail + n) % C, count := r.count - n })

/-- The queued samples, oldest first (R26). -/
def Ring.queue (r : Ring) (C : Nat) : List Word := r.store.readRun C r.tail r.count

/-- RB_WRITE (R79). On BUFFER_FULL the block keeps nothing of the samples (R84). -/
def execRbWrite (samples : List Word) (s : State) : Host.Outcome State Fault Refusal :=
  if s.par.C < s.rb.count + samples.length then .next (s.respond .bufferFull [])
  else .next ({ s with rb := s.rb.enqueue s.par.C samples }.respond .ok [])

end Sys2Proof.Machine
end

