-- ==== Sys2Proof/Machine/Render.lean ====
section
/-! DEFINITION. The render driver: RENDER (R103, R104) from the ring buffer (R105) or from the file sample source
(R106, R107). Every RENDER's response carries exactly `N` samples (R109). -/

namespace Sys2Proof.Machine

/-- A block of silence (R103, R105). -/
def silentBlock (n : Nat) : List Word := List.replicate n silence

/-- Run the pipeline over a block and respond with what it gives (R100, R105, R106). -/
def respondProcessed (s : State) (snap : Snapshot) (st : Status) (block : List Word) : State :=
  let b := processBlock s.par snap block s.fb s.draws
  { s with fb := b.fb, draws := b.draws }.respond st b.out

/-- RENDER_RING (R105): on underrun the block is silent and the pipeline is not run. -/
def renderRing (n : Count) (snap : Snapshot) (s : State) : State :=
  match s.rb.dequeue s.par.C n.toNat with
  | none => s.respond .bufferUnderrun (silentBlock n.toNat)
  | some (samples, rb) => respondProcessed { s with rb := rb } snap .ok samples

/-- A whole answer of the file source (R107): its samples, its end-of-stream bit, and the words after it. -/
structure Answer where
  samples : List Word
  eos : Bool
  rest : List Word
  deriving DecidableEq, Repr

/-- The receiving half of FILE_PULL (R107): `m` in bits 23:0, read as `N` when larger; `eos` in bit 31; bits 30:24
ignored; then `m` samples. `none` while the answer is not whole (log 7). -/
def receiveAnswer (n : Count) : List Word → Option Answer
  | [] => none
  | r :: ws =>
    let m := min (countOf r).toNat n.toNat
    if m ≤ ws.length then some { samples := ws.take m, eos := r.msb, rest := ws.drop m } else none

/-- The sending half of FILE_PULL (R107): one word, `zext_32(N)`. -/
def sendPull (n : Count) (s : State) : State := { s with file := s.file.send [n.setWidth 32] }

/-- RENDER_FILE from the answer on (R106): a short answer is padded with silence and processed whole; an empty one
leaves the block silent and unprocessed. -/
def finishFile (r : InFlight) (a : Answer) (s : State) : State :=
  let block := a.samples ++ silentBlock (r.n.toNat - a.samples.length)
  let st := if a.eos then Status.sourceExhausted else Status.ok
  let s := { s with fileExhausted := s.fileExhausted || a.eos }
  if a.samples = [] then s.respond st block else respondProcessed s r.snap st block

/-- A RENDER that has sent its pull: it finishes when the answer is whole, and waits until then (R62; log 7). -/
def awaitAnswer (r : InFlight) (s : State) : State :=
  match receiveAnswer r.n s.file.rx with
  | none => { s with inFlight := some r }
  | some a => finishFile r a { s with file := { s.file with rx := a.rest }, inFlight := none }

/-- RENDER_FILE (R106): no pull while the source is exhausted, and none for an empty block. -/
def renderFile (n : Count) (snap : Snapshot) (s : State) : State :=
  if s.fileExhausted then s.respond .sourceExhausted (silentBlock n.toNat)
  else if n = 0#24 then s.respond .ok []
  else awaitAnswer { n := n, snap := snap } (sendPull n s)

/-- RENDER (R103): the snapshot first, and every choice after it reads the snapshot (R99). -/
def execRender (n : Count) (s : State) : Host.Outcome State Fault Refusal :=
  let t := takeSnapshot s.par s.cfg s.draws
  match t.1.cfg.sourceMode with
  | .ring => .next (renderRing n t.1 { s with draws := t.2 })
  | .file => .next (renderFile n t.1 { s with draws := t.2 })

end Sys2Proof.Machine
end

