-- ==== Sys2Proof/Machine/Dispatch.lean ====
section
/-! DEFINITION. One arm per command: a direct call of its meaning. -/

namespace Sys2Proof.Machine

/-- The effect of a command, with its response on the granted port (R60, R69). -/
def exec (i : Instr) (s : State) : Host.Outcome State Fault Refusal :=
  match i with
  | .nop => Sys2Proof.Machine.execNop s
  | .rbWrite samples => Sys2Proof.Machine.execRbWrite samples s
  | .render n => Sys2Proof.Machine.execRender n s
  | .cfgWriteEchoEn v => Sys2Proof.Machine.execCfgWriteEchoEn v s
  | .cfgWriteDelayMs v => Sys2Proof.Machine.execCfgWriteDelayMs v s
  | .cfgWriteLpAlpha v => Sys2Proof.Machine.execCfgWriteLpAlpha v s
  | .cfgWriteDistEn v => Sys2Proof.Machine.execCfgWriteDistEn v s
  | .cfgWriteDistGain v => Sys2Proof.Machine.execCfgWriteDistGain v s
  | .cfgWriteReverbEn v => Sys2Proof.Machine.execCfgWriteReverbEn v s
  | .cfgWriteSourceMode v => Sys2Proof.Machine.execCfgWriteSourceMode v s
  | .cfgReadEchoEn => Sys2Proof.Machine.execCfgReadEchoEn s
  | .cfgReadDelayMs => Sys2Proof.Machine.execCfgReadDelayMs s
  | .cfgReadLpAlpha => Sys2Proof.Machine.execCfgReadLpAlpha s
  | .cfgReadDistEn => Sys2Proof.Machine.execCfgReadDistEn s
  | .cfgReadDistGain => Sys2Proof.Machine.execCfgReadDistGain s
  | .cfgReadReverbEn => Sys2Proof.Machine.execCfgReadReverbEn s
  | .cfgReadSourceMode => Sys2Proof.Machine.execCfgReadSourceMode s
  | .cfgReadRbCount => Sys2Proof.Machine.execCfgReadRbCount s
  | .cfgReadRbHead => Sys2Proof.Machine.execCfgReadRbHead s
  | .cfgReadRbTail => Sys2Proof.Machine.execCfgReadRbTail s
  | .cfgReadSrcStatus => Sys2Proof.Machine.execCfgReadSrcStatus s
  | .cfgReadParamC => Sys2Proof.Machine.execCfgReadParamC s
  | .cfgReadParamM => Sys2Proof.Machine.execCfgReadParamM s
  | .cfgReadParamK => Sys2Proof.Machine.execCfgReadParamK s
  | .cfgReadParamSr => Sys2Proof.Machine.execCfgReadParamSr s

end Sys2Proof.Machine
end

