-- ==== Sys2Proof/Machine/Fetch.lean ====
section
/-! DEFINITION. What the block does next: reset, waiting, idling, or taking the next command frame from a port
(R60, R62, R132). Commands are received, not fetched from a store (R65). -/

namespace Sys2Proof.Machine

/-- What the next step does. -/
inductive Activity where
  /-- Reset is applied (R132). -/
  | reset
  /-- The state breaks an invariant (R130). -/
  | corrupt
  /-- A RENDER waits on the file source (R62). -/
  | waiting (r : InFlight)
  /-- No port holds a command. -/
  | idle
  /-- A command, and the state with its frame taken from its port. -/
  | command (i : Instr) (s : State)
  /-- A command word that decodes to no command, and the state with its frame taken from its port (R70, R73). -/
  | illegal (w : Word) (s : State)
  deriving DecidableEq, Repr

/-- A port holds a command (R55). -/
def State.ready (s : State) (p : Port) : Bool := (nextFrame (s.wire p).rx).isSome

/-- The port to serve of those looked at and one more: the one whose command has the earlier turn, and the one looked
at first where the turns are equal (log 4). -/
def State.better (s : State) (best : Option Port) (p : Port) : Option Port :=
  if s.ready p then
    match best with
    | none => some p
    | some q => if s.due.get p < s.due.get q then some p else some q
  else best

/-- The port whose command is performed next: of the ports that hold a command, the one with the earliest turn. Each
command drew its turn when it was sent, so every order of the ports' commands is possible (R60, I17), and none waits for
ever (R62): once its turn has passed, at most the two commands then waiting on the other ports go before it (log 4). -/
def State.pick (s : State) : Option Port := Port.all.foldl s.better none

/-- Take a frame from a port: the whole frame is consumed, whatever the command's outcome (R70). -/
def State.takeFrom (s : State) (p : Port) (rest : List Word) : State :=
  { s.setWire p { s.wire p with rx := rest } with grant := p, turn := s.turn + 1 }

/-- Decode the frame at the front of a port (R73). -/
def fetchFrom (s : State) (p : Port) : Activity :=
  match nextFrame (s.wire p).rx with
  | none => .idle
  | some (frame, rest) =>
    match decode p frame with
    | .command i => .command i (s.takeFrom p rest)
    | .illegal _ => .illegal (frame.headD 0#32) (s.takeFrom p rest)

/-- What the next step does (R60, R62, R130, R132). The check of the invariants comes first, before reset too, so that a
fault is never cleared (R130; log 10). Then reset: it is outside the command order. While a RENDER waits, no later command
on any port is performed. -/
def fetch (s : State) : Activity :=
  if !s.intact then .corrupt
  else if s.resetIn then .reset
  else
    match s.inFlight with
    | some r => .waiting r
    | none =>
      match s.pick with
      | none => .idle
      | some p => fetchFrom s p

/-- Put a frame where the next step takes it: alone on its port (R47), with no command on the other two, no RENDER
waiting and reset released (log 16). -/
def State.placeFrame (s : State) (p : Port) (frame : List Word) : State :=
  { s with
    prod := { s.prod with rx := if p = .prod then frame else [] }
    rend := { s.rend with rx := if p = .rend then frame else [] }
    ctrl := { s.ctrl with rx := if p = .ctrl then frame else [] }
    inFlight := none
    resetIn := false }

end Sys2Proof.Machine
end

