-- ==== Sys2Proof/Machine/Step.lean ====
section
/-! DEFINITION. One step of the block: one command performed whole (R60), or what `fetch` finds instead. -/

namespace Sys2Proof.Machine

/-- One step. A step with nothing to do leaves the state as it is (log 9). -/
def step (s : State) : Host.Outcome State Fault Refusal :=
  match fetch s with
  | .reset => .next s.applyReset
  | .corrupt => .fault .invariantBroken
  | .waiting r => .next (awaitAnswer r s)
  | .idle => .next s
  | .command i t => exec i t
  | .illegal w t => .next (t.refuseCommand w)

/-- The state whose next step takes the command with the opcode table's word, its operand words zero (log 16). -/
def State.withFetchWord (s : State) (nbits w : Nat) : State :=
  s.placeFrame (portOfWord (BitVec.ofNat 32 (w % 2 ^ nbits))) (tableFrame nbits w)

end Sys2Proof.Machine
end

