-- ==== Sys2Proof/Machine/Assembler.lean ====
section
/-! DEFINITION. The textual form of commands (R76) and the pseudo-instructions (R77): a line of text to the words of
its frame. Nothing in the machine's step uses it. -/

namespace Sys2Proof.Machine

/-! ### Tokens -/

/-- A token: a run of characters, or one of the three marks a command uses. -/
abbrev Token := List Char

/-- The opening mark of a sample list, U+007B. -/
def Token.opening : Token := [Char.ofNat 0x7B]

/-- The closing mark of a sample list, U+007D. -/
def Token.closing : Token := [Char.ofNat 0x7D]

/-- The comma. -/
def Token.comma : Token := [',']

/-- A finished run, unless it is empty. -/
def flushToken (run : List Char) : List Token := if run = [] then [] else [run]

/-- The tokens of a line; `;` starts a comment (R76). `run` is the run of characters read so far. -/
def tokensFrom : List Char → List Char → List Token
  | [], run => flushToken run
  | c :: cs, run =>
    if c = ';' then flushToken run
    else if c = ' ' ∨ c = '\t' then flushToken run ++ tokensFrom cs []
    else if [c] = Token.comma ∨ [c] = Token.opening ∨ [c] = Token.closing then
      flushToken run ++ [c] :: tokensFrom cs []
    else tokensFrom cs (run ++ [c])

/-! ### Literals (R76) -/

/-- A decimal digit. -/
def decDigit (c : Char) : Option Nat := if '0' ≤ c ∧ c ≤ '9' then some (c.toNat - '0'.toNat) else none

/-- A hexadecimal digit, as the spec writes them. -/
def hexDigit (c : Char) : Option Nat :=
  if 'A' ≤ c ∧ c ≤ 'F' then some (c.toNat - 'A'.toNat + 10) else decDigit c

/-- Digits to the number they write, after `acc`. -/
def readDigits (digit : Char → Option Nat) (base : Nat) : List Char → Nat → Option Nat
  | [], acc => some acc
  | c :: cs, acc =>
    match digit c with
    | none => none
    | some d => readDigits digit base cs (acc * base + d)

/-- A decimal count: one digit or more. -/
def readCount (t : Token) : Option Nat := if t = [] then none else readDigits decDigit 10 t 0

/-- A sign and what follows it. -/
def readSign : Token → Bool × Token
  | '-' :: cs => (true, cs)
  | cs => (false, cs)

/-- A decimal literal: the binary32 value nearest to it, ties to even (R76). -/
def readDecimal (t : Token) : Option Word :=
  let body := (readSign t).2
  let whole := body.takeWhile (fun c => c != '.')
  let fraction := (body.dropWhile (fun c => c != '.')).drop 1
  if whole = [] then none
  else
    match readDigits decDigit 10 (whole ++ fraction) 0 with
    | none => none
    | some n => some (F32.pack (readSign t).1 (roundMag (n * 2 ^ 149) (10 ^ fraction.length)))

/-- A sample or an `f32` value: `0x` and eight digits, or a decimal literal (R76). -/
def readF32 : Token → Option Word
  | '0' :: 'x' :: cs => if cs.length = 8 then (readDigits hexDigit 16 cs 0).map (BitVec.ofNat 32) else none
  | t => readDecimal t

/-- A DELAY_MS value: a decimal integer in `[−2^31, 2^31 − 1]` (R76). -/
def readS32 (t : Token) : Option Word :=
  match readCount (readSign t).2 with
  | none => none
  | some n =>
    let i : Int := if (readSign t).1 then -(n : Int) else (n : Int)
    if -2147483648 ≤ i ∧ i ≤ 2147483647 then some (BitVec.ofInt 32 i) else none

/-- A one-bit register value: 0 or 1 (R76). -/
def readBit (t : Token) : Option Word :=
  if t = ['0'] then some 0#32 else if t = ['1'] then some 1#32 else none

/-! ### Registers (R45, R76) -/

/-- How the value of a register is written (R76). A read-only register is not written. -/
inductive ValueForm where
  | bit
  | s32
  | f32
  | readOnly
  deriving DecidableEq, Repr

/-- The register names, their SEL and the form of their values (R45, R76). -/
def registers : List (String × BitVec 4 × ValueForm) :=
  [("ECHO_EN", 0x0, .bit), ("DELAY_MS", 0x1, .s32), ("LP_ALPHA", 0x2, .f32), ("DIST_EN", 0x3, .bit),
   ("DIST_GAIN", 0x4, .f32), ("REVERB_EN", 0x5, .bit), ("SOURCE_MODE", 0x6, .bit), ("RB_COUNT", 0x8, .readOnly),
   ("RB_HEAD", 0x9, .readOnly), ("RB_TAIL", 0xA, .readOnly), ("SRC_STATUS", 0xB, .readOnly),
   ("PARAM_C", 0xC, .readOnly), ("PARAM_M", 0xD, .readOnly), ("PARAM_K", 0xE, .readOnly),
   ("PARAM_SR", 0xF, .readOnly)]

/-- Find a register by its name. -/
def findRegister (t : Token) : Option (BitVec 4 × ValueForm) :=
  (registers.find? (fun r => r.1.toList == t)).map (fun r => r.2)

/-- A value in its register's form (R76). -/
def readValue (form : ValueForm) (t : Token) : Option Word :=
  match form with
  | .bit => readBit t
  | .s32 => readS32 t
  | .f32 => readF32 t
  | .readOnly => none

/-- The set operations the source gives the control surface, and the registers they write (R77). -/
def setOperations : List (String × String) :=
  [("setEchoEnabled", "ECHO_EN"), ("setDelayMs", "DELAY_MS"), ("setLowpassAlpha", "LP_ALPHA"),
   ("setDistortionEnabled", "DIST_EN"), ("setDistortionGain", "DIST_GAIN"), ("setReverbEnabled", "REVERB_EN")]

/-! ### Commands (R76, R77) -/

/-- The samples of a list from its first sample on, up to its closing mark: each has a comma or the closing mark after
it, and nothing follows the closing mark. -/
def readItems : List Token → Option (List Word)
  | [] => none
  | [_] => none
  | [t, u] => if u = Token.closing then (readF32 t).map (fun w => [w]) else none
  | t :: u :: rest =>
    if u ≠ Token.comma then none
    else
      match readF32 t, readItems rest with
      | some w, some ws => some (w :: ws)
      | _, _ => none

/-- The samples of a list after its opening mark (R76). A list of no samples is the closing mark alone; a comma has a
sample after it, so that a trailing comma is outside R76's form and has no frame (log 17). -/
def readSamples (ts : List Token) : Option (List Word) := if ts = [Token.closing] then some [] else readItems ts

/-- `RB_WRITE` of a list of samples: `0x10000000 + n`, then the samples (R76). -/
def assembleWrite (samples : List Word) : Option (List Word) :=
  if samples.length < 2 ^ 24 then some (encode (.rbWrite samples)) else none

/-- `RENDER n`: `0x20000000 + n` (R76). -/
def assembleRender (t : Token) : Option (List Word) :=
  match readCount t with
  | none => none
  | some n => if n < 2 ^ 24 then some (encode (.render (BitVec.ofNat 24 n))) else none

/-- `CFG_READ reg`: `0x4s000000` (R76). -/
def assembleRead (t : Token) : Option (List Word) :=
  (findRegister t).map (fun r => [commandWord 0x4 r.1 0])

/-- `CFG_WRITE reg, value`: `0x3s000000` and the value (R76). -/
def assembleCfgWrite (reg value : Token) : Option (List Word) :=
  match findRegister reg with
  | none => none
  | some r => (readValue r.2 value).map (fun v => [commandWord 0x3 r.1 0, v])

/-- A pseudo-instruction of one operand (R77). -/
def assemblePseudo (op operand : Token) : Option (List Word) :=
  if op = "setSource".toList then
    (if operand = "RING".toList then assembleCfgWrite "SOURCE_MODE".toList ['0']
     else if operand = "FILE".toList then assembleCfgWrite "SOURCE_MODE".toList ['1'] else none)
  else if op = "get".toList then assembleRead operand
  else if op = "render".toList then assembleRender operand
  else
    match setOperations.find? (fun o => o.1.toList == op) with
    | none => none
    | some o => assembleCfgWrite o.2.toList operand

/-- The frame of a command's tokens (R76, R77). The sample count of an RB_WRITE is the number of its samples. -/
def assembleTokens : List Token → Option (List Word)
  | [op] => if op = "NOP".toList then some (encode .nop) else none
  | [op, operand] =>
    if op = "RENDER".toList then assembleRender operand
    else if op = "CFG_READ".toList then assembleRead operand
    else assemblePseudo op operand
  | op :: t :: u :: rest =>
    if op = "write".toList ∧ t = Token.opening then
      match readSamples (u :: rest) with
      | none => none
      | some ws => assembleWrite ws
    else if op = "CFG_WRITE".toList ∧ u = Token.comma then
      match rest with
      | [value] => assembleCfgWrite t value
      | _ => none
    else if op = "RB_WRITE".toList ∧ u = Token.comma then
      match rest with
      | [] => none
      | b :: items =>
        match readSamples items, readCount t with
        | some ws, some n => if b = Token.opening ∧ ws.length = n then assembleWrite ws else none
        | _, _ => none
    else none
  | [] => none

/-- The frame of a line of text (R76); a line with no command has none. -/
def assemble (line : String) : Option (List Word) := assembleTokens (tokensFrom line.toList [])

end Sys2Proof.Machine
end

