-- ==== Sys2Proof/Safety.lean ====
section
/-! DEFINITION. The terms that claims use: legal parameters (section 3 of 00_scope.md), legal register values
(R37, R38, R40), the invariant of every state between commands (R26, R30 to R34, R47, R62), the moves and the states of
a run, and what a command delivers to the queue and returns from it (R81). -/

namespace Sys2Proof.Machine

/-! ### Legality -/

/-- The parameter ranges (R6 to R12). -/
def legalParams (p : Params) : Bool :=
  decide (1 ≤ p.C ∧ p.C < 2 ^ 24) && decide (1 ≤ p.M ∧ p.M ≤ 2 ^ 24) && decide (1 ≤ p.K ∧ p.K ≤ 256)
    && decide (1 ≤ p.SR ∧ p.SR ≤ 2 ^ 24)
    && (F32.isFinite p.F && fle silence p.F && flt p.F one)
    && (F32.isFinite p.B && fle silence p.B)
    && (F32.isFinite p.L && flt silence p.L)

/-- A legal LP_ALPHA: a number of `[+0.0, 1.0]` other than `-0.0` (R38). -/
def legalAlpha (a : Word) : Bool := fle silence a && fle a one && a != negZero

/-- A legal DIST_GAIN: `+0.0`, a positive number or `+inf` (R40). -/
def legalGain (g : Word) : Bool := fle silence g && g != negZero

/-- A legal DELAY_MS (R37). -/
def legalDelay (p : Params) (d : Word) : Bool := decide (1 ≤ s32 d ∧ s32 d ≤ (p.delayMsMax : Int))

/-- Every register holds a legal value (R37, R38, R40). -/
def Cfg.legal (p : Params) (c : Cfg) : Bool :=
  legalDelay p c.delayMs && legalAlpha c.lowpassAlpha && legalGain c.distortionGain

/-! ### The invariant between commands -/

/-- The ring buffer: R26, and its storage is an array of `C` slots in canonical form (R22). -/
def Ring.legal (C : Nat) (r : Ring) : Bool := r.intact C && r.store.wf && r.store.within C

/-- The filter bank: one cursor value below `M` (R30, R32, R33), `K` histories of `M` slots with the same contents
(R29, R31, R34), each in canonical form. -/
def Filters.legal (p : Params) (f : Filters) : Bool :=
  decide (f.ei < p.M) && decide (f.ri = f.ei) && f.eh.wf && f.eh.within p.M
    && decide (f.rh.length = p.K) && f.rh.all (fun h => h.wf && h.within p.M) && sameHistories f.rh

/-- A RENDER that waits has a count, runs in FILE mode, and its snapshot is of the registers (R99, R106). -/
def InFlight.legal (p : Params) (c : Cfg) (r : InFlight) : Bool :=
  decide (r.n ≠ 0#24) && decide (r.snap.cfg = c) && decide (c.sourceMode = .file)
    && decide (r.snap.delay = delaySamples p c) && decide (r.snap.taps.length = p.K)

/-- Each command port holds at most one command (R47, R52): no words or one whole frame, and none where a RENDER from the
port waits for its response. -/
def State.oneOutstanding (s : State) : Bool :=
  Port.all.all (fun p => decide ((s.wire p).rx = []) || wholeFrame (s.wire p).rx)
    && (s.inFlight.isNone || decide ((s.wire s.grant).rx = []))

/-- The command on `q` goes before the one on `p`: it has the earlier turn, or the same and the earlier port (log 4). -/
def State.ahead (s : State) (p q : Port) : Bool :=
  s.ready q && decide (s.due.get q < s.due.get p ∨ s.due.get q = s.due.get p ∧ q.rank < p.rank)

/-- No command waits for ever (R62): when its turn has passed, the commands that go before it are at most the two that
were on the other ports then, so at most two commands later it is performed (log 4). -/
def State.fair (s : State) : Bool :=
  Port.all.all (fun p => !s.ready p || decide (s.turn + Port.all.countP (s.ahead p) ≤ s.due.get p + 2))

/-- The invariant of every state between commands. -/
def State.inv (s : State) : Bool :=
  legalParams s.par && s.rb.legal s.par.C && s.fb.legal s.par && s.cfg.legal s.par
    && (match s.inFlight with
        | none => true
        | some r => r.legal s.par s.cfg && !s.fileExhausted)
    && s.oneOutstanding && s.fair

/-! ### Runs -/

/-- What can happen next: the block's step, or a move of the outside world (R53, R132). -/
inductive Move where
  | step
  | send (p : Port) (frame : List Word)
  | fileAnswer (ws : List Word)
  | assertReset
  deriving DecidableEq, Repr

/-- The state after a move. A step that faults leaves none but the state it faulted in, and no move mends that state: the
steps after it fault too (R130; log 10). -/
def Move.apply (m : Move) (s : State) : State :=
  match m with
  | .step =>
    match Machine.step s with
    | .next t => t
    | .fault _ => s
    | .refused _ => s
  | .send p frame => s.send p frame
  | .fileAnswer ws => s.fileAnswer ws
  | .assertReset => s.assertReset

/-- The states a run reaches from reset: any moves, in any order. -/
inductive Reachable (p : Params) : State → Prop where
  | reset : Reachable p (State.resetWith p)
  | move (m : Move) (s : State) : Reachable p s → Reachable p (m.apply s)

/-- The next step performs the command on a port. -/
def State.serves (s : State) (p : Port) : Bool :=
  !s.resetIn && s.intact && s.inFlight.isNone && decide (s.pick = some p)

/-- A safe outcome: the machine goes on. -/
def Safe (o : Host.Outcome State Fault Refusal) : Prop := ∃ t, o = .next t

/-- The command is a CFG_WRITE (R111). -/
def writesRegister : Instr → Bool
  | .nop | .rbWrite _ | .render _ => false
  | .cfgWriteEchoEn _ | .cfgWriteDelayMs _ | .cfgWriteLpAlpha _ | .cfgWriteDistEn _ | .cfgWriteDistGain _
  | .cfgWriteReverbEn _ | .cfgWriteSourceMode _ => true
  | .cfgReadEchoEn | .cfgReadDelayMs | .cfgReadLpAlpha | .cfgReadDistEn | .cfgReadDistGain | .cfgReadReverbEn
  | .cfgReadSourceMode | .cfgReadRbCount | .cfgReadRbHead | .cfgReadRbTail | .cfgReadSrcStatus | .cfgReadParamC
  | .cfgReadParamM | .cfgReadParamK | .cfgReadParamSr => false

/-! ### The queue (R81) -/

/-- The queued samples, oldest first (R26). -/
def State.queue (s : State) : List Word := s.rb.queue s.par.C

/-- The samples a command delivers to the queue: those of an RB_WRITE that fits (R79). -/
def delivered (i : Instr) (s : State) : List Word :=
  match i with
  | .rbWrite samples => if s.rb.count + samples.length ≤ s.par.C then samples else []
  | _ => []

/-- The samples a command takes from the queue: those of the RB_READ of a RENDER in RING mode (R80). -/
def returned (i : Instr) (s : State) : List Word :=
  match i with
  | .render n =>
    match s.cfg.sourceMode, s.rb.dequeue s.par.C n.toNat with
    | .ring, some (samples, _) => samples
    | _, _ => []
  | _ => []

/-- Perform commands one after another (R60): the state after them, all they delivered and all they took. `none`
if one of them does not go on. -/
def performAll : List Instr → State → Option (State × List Word × List Word)
  | [], s => some (s, [], [])
  | i :: is, s =>
    match exec i s with
    | .next t =>
      match performAll is t with
      | some (u, d, r) => some (u, delivered i s ++ d, returned i s ++ r)
      | none => none
    | .fault _ => none
    | .refused _ => none

/-! ### Equality up to the payload of a NaN (R18, R102) -/

/-- The same word, or two NaNs. -/
def SameNumber (a b : Word) : Prop := a = b ∨ (F32.isNaN a = true ∧ F32.isNaN b = true)

/-- The same numbers in every slot. -/
def SameMemory (m m' : Memory) : Prop := ∀ i, SameNumber (m.read i) (m'.read i)

/-- The same filter state up to NaN payloads. -/
def SameFilters (f f' : Filters) : Prop :=
  SameNumber f.lpMem f'.lpMem ∧ SameMemory f.eh f'.eh ∧ f.ei = f'.ei ∧ List.Forall₂ SameMemory f.rh f'.rh
    ∧ f.ri = f'.ri

/-- The powers of `F`, rounded after each product: `p_0 = 1.0`, `p_(k+1) = fmul(F, p_k)` (R92). -/
def echoPower (F : Word) : Nat → Word
  | 0 => one
  | k + 1 => (F32.mul F (echoPower F k)).getD silence

end Sys2Proof.Machine
end

