-- ==== Sys2Proof/Certificates/Slice0/Obligations.lean ====
section
/-! DEFINITION. The statements for the provers. Each docstring names the rules of spec/ it formalises. -/

open Sys2Proof Sys2Proof.Machine

/-! ### Encoding (30_encoding.md) -/

/-- R68, R69, R70, R73, R74: decoding the frame of a well-formed command, on every port that accepts it, gives that
command back. -/
def Obligations.DecodeAfterEncode : Prop :=
  ∀ (i : Instr) (p : Port), i.wellFormed = true → i.acceptedOn p = true → decode p (encode i) = .command i

/-- R73, R74, R75: a frame that decodes to a command is that command's own encoding, on a port that accepts it: no
reserved encoding is ever executed as something else. -/
def Obligations.DecodesOnlyItsOwnEncoding : Prop :=
  ∀ (p : Port) (frame : List Word) (i : Instr), decode p frame = .command i →
    frame = encode i ∧ i.wellFormed = true ∧ i.acceptedOn p = true

/-- R73, R75: exactly the reserved and illegal encodings are refused by the decoder. -/
def Obligations.ReservedEncodingsAreIllegal : Prop :=
  ∀ (p : Port) (w : Word) (payload : List Word), payload.length = payloadWords w →
    ((∃ why, decode p (w :: payload) = .illegal why) ↔
      (5 ≤ (opcOf w).toNat
        ∨ (opcOf w = 0x0#4 ∧ w ≠ 0#32)
        ∨ ((opcOf w = 0x1#4 ∨ opcOf w = 0x2#4) ∧ selOf w ≠ 0#4)
        ∨ ((opcOf w = 0x3#4 ∨ opcOf w = 0x4#4) ∧ countOf w ≠ 0#24)
        ∨ (opcOf w = 0x3#4 ∧ 7 ≤ (selOf w).toNat)
        ∨ (opcOf w = 0x4#4 ∧ selOf w = 7#4)
        ∨ (opcOf w = 0x1#4 ∧ p ≠ .prod)
        ∨ (opcOf w = 0x2#4 ∧ p ≠ .rend)
        ∨ ((opcOf w = 0x3#4 ∨ opcOf w = 0x4#4) ∧ p ≠ .ctrl)))

/-- R78: the worked encodings, word for word, from its text (R76) and to its commands, and its words that decode to
ILLEGAL_COMMAND. -/
def Obligations.WordsDecodeAsTheSpecWritesThem : Prop :=
  decode .prod [0x10000006#32, 0x3F800000#32, 0x40000000#32, 0x40400000#32, 0x40800000#32, 0x40A00000#32, 0x40C00000#32]
      = .command (.rbWrite [0x3F800000#32, 0x40000000#32, 0x40400000#32, 0x40800000#32, 0x40A00000#32, 0x40C00000#32])
    ∧ decode .rend [0x20000200#32] = .command (.render 512#24)
    ∧ decode .ctrl [0x32000000#32, 0x3F000000#32] = .command (.cfgWriteLpAlpha 0x3F000000#32)
    ∧ decode .ctrl [0x31000000#32, 0x000000FA#32] = .command (.cfgWriteDelayMs 250#32)
    ∧ decode .ctrl [0x48000000#32] = .command .cfgReadRbCount
    ∧ decode .rend [0x00000000#32] = .command .nop
    ∧ decode .ctrl [0x00000001#32] = .illegal .nopWithFields
    ∧ decode .prod [0x11000000#32] = .illegal .selNotZero
    ∧ decode .ctrl [0x38000000#32, 5#32] = .illegal .selReadOnly
    ∧ decode .ctrl [0x47000000#32] = .illegal .selReserved
    ∧ decode .ctrl [0x30000001#32, 1#32] = .illegal .countNotZero
    ∧ decode .ctrl [0x50000000#32] = .illegal .opcReserved
    ∧ assemble "RENDER 512" = some [0x20000200#32]
    ∧ assemble "CFG_WRITE LP_ALPHA, 0.5" = some [0x32000000#32, 0x3F000000#32]
    ∧ assemble "CFG_WRITE DELAY_MS, 250" = some [0x31000000#32, 0x000000FA#32]
    ∧ assemble "CFG_READ RB_COUNT" = some [0x48000000#32]
    ∧ assemble "NOP" = some [0x00000000#32]

/-- R54: on a byte-wide channel the least significant byte of a word comes first, and the words are read back. -/
def Obligations.BytesCrossLeastSignificantFirst : Prop :=
  (∀ ws : List Word, wordsOfBytes (bytesOfWords ws) = (ws, []))
    ∧ ∀ (w : Word) (k : Nat), k < 4 → (bytesOfWord w)[k]? = some (w.extractLsb' (8 * k) 8)

/-- R70: the length of a frame is fixed by its command word alone, whatever the word decodes to: `1 + N` words for OPC 1, 2
words for OPC 3, and 1 word otherwise. A frame leaves a port whole, whatever follows it, so that the next word is a command
word; with fewer words there is none (log 6). -/
def Obligations.FrameLeavesThePortWhole : Prop :=
  (∀ (i : Instr) (rest : List Word), i.wellFormed = true → nextFrame (encode i ++ rest) = some (encode i, rest))
  ∧ ∀ w : Word,
      let len := if w.extractLsb' 28 4 = 1#4 then w.toNat % 2 ^ 24 else if w.extractLsb' 28 4 = 3#4 then 1 else 0
      payloadWords w = len
      ∧ (∀ payload rest : List Word, payload.length = len → nextFrame (w :: (payload ++ rest)) = some (w :: payload, rest))
      ∧ ∀ ws : List Word, ws.length < len → nextFrame (w :: ws) = none

/-! ### The step (20_memory.md, 60_exceptions.md, 70_reset_and_hazards.md) -/

/-- R60, R70: when the frame at the front of the chosen port decodes to a command, a step is that command performed
on the state from which its frame has been taken: the port holds the words after the frame, the response will go to
it, and nothing else has changed but the model's count of commands (log 20). -/
def Obligations.StepPerformsTheDecodedCommand : Prop :=
  ∀ (s : State) (p : Port) (frame rest : List Word) (i : Instr),
    s.resetIn = false → s.intact = true → s.inFlight = none → s.pick = some p →
    nextFrame (s.wire p).rx = some (frame, rest) → decode p frame = .command i →
    ∃ u, step s = exec i u ∧ u.wire p = { s.wire p with rx := rest } ∧ (∀ q, q ≠ p → u.wire q = s.wire q)
      ∧ u.grant = p ∧ u.turn = s.turn + 1
      ∧ { u with prod := s.prod, rend := s.rend, ctrl := s.ctrl, grant := s.grant, turn := s.turn } = s

/-- R119, R70, R71: an ILLEGAL_COMMAND consumes its frame, of the length R70 gives its word, answers with the status and as
many zero words as R71 gives its word, and changes no state. That it uses a turn of the model's count of commands is the
model's choice (log 20, log 4). -/
def Obligations.IllegalCommandChangesNothing : Prop :=
  ∀ (s : State) (p : Port) (frame rest : List Word) (why : Illegal),
    s.resetIn = false → s.intact = true → s.inFlight = none → s.pick = some p →
    nextFrame (s.wire p).rx = some (frame, rest) → decode p frame = .illegal why →
    ∃ w payload data t, frame = w :: payload ∧ (s.wire p).rx = frame ++ rest ∧ step s = .next t
      ∧ payload.length
          = (if w.extractLsb' 28 4 = 1#4 then w.toNat % 2 ^ 24 else if w.extractLsb' 28 4 = 3#4 then 1 else 0)
      ∧ data = List.replicate
          (if w.extractLsb' 28 4 = 2#4 then w.toNat % 2 ^ 24 else if w.extractLsb' 28 4 = 4#4 then 1 else 0) 0#32
      ∧ t.wire p = { rx := rest, tx := (s.wire p).tx ++ 0x00000005#32 :: data }
      ∧ (∀ q, q ≠ p → t.wire q = s.wire q) ∧ t.turn = s.turn + 1
      ∧ { t with prod := s.prod, rend := s.rend, ctrl := s.ctrl, grant := s.grant, turn := s.turn } = s

/-- R60, R62: the port served is one that holds a command, and one is served whenever some port holds one. That it is one
whose command has the earliest turn is how the model makes every fair order possible and no other (log 4). -/
def Obligations.ArbitrationServesAPortWithACommand : Prop :=
  ∀ s : State, (∀ p, s.pick = some p → s.ready p = true ∧ ∀ q, s.ready q = true → s.due.get p ≤ s.due.get q)
    ∧ (s.pick = none ↔ ∀ p, s.ready p = false)

/-- R130, I25: a step faults exactly in a state that breaks an invariant, with reset applied or not, and it never refuses;
and the fault is never cleared: no move, reset among them, leads from such a state to one whose step does not fault. That
the check comes before reset is read from R130's words (log 10). -/
def Obligations.StepFaultsExactlyOnABrokenInvariant : Prop :=
  ∀ s : State, (step s = .fault .invariantBroken ↔ s.intact = false) ∧ (∀ r, step s ≠ .refused r)
    ∧ ∀ m : Move, step s = .fault .invariantBroken → step (m.apply s) = .fault .invariantBroken

/-- R26, R30 to R34, R37, R38, R40, R47, R62, R99: the invariant of the states between commands is kept by every step. Its
part on the turns is the model's own form of R62 (log 4). -/
def Obligations.StepKeepsTheInvariant : Prop :=
  ∀ s t : State, s.inv = true → step s = .next t → t.inv = true

/-- R48: the invariant holds right after reset, whatever the parameters. -/
def Obligations.ResetMeetsTheInvariant : Prop :=
  State.reset.inv = true ∧ ∀ p : Params, legalParams p = true → (State.resetWith p).inv = true

/-- R26, R120, R130: no run from reset, whatever the agents send, meets a fault, and none ends: after every status the
block goes on. -/
def Obligations.NoRunFromResetStops : Prop :=
  ∀ (p : Params) (s : State), legalParams p = true → Reachable p s → s.inv = true ∧ Safe (step s)

/-- R48: the reset value of every piece of state. -/
def Obligations.ResetGivesEveryStateItsValue : Prop :=
  ∀ p : Params, ∃ s, s = State.resetWith p ∧ s.par = p
    ∧ (∀ i, s.rb.store.read i = 0x00000000#32) ∧ s.rb.head = 0 ∧ s.rb.tail = 0 ∧ s.rb.count = 0
    ∧ s.fb.lpMem = 0x00000000#32 ∧ (∀ i, s.fb.eh.read i = 0x00000000#32)
    ∧ s.fb.rh.length = p.K ∧ (∀ h ∈ s.fb.rh, ∀ i, h.read i = 0x00000000#32) ∧ s.fb.ei = 0 ∧ s.fb.ri = 0
    ∧ s.cfg.echoEnabled = false ∧ s.cfg.distortionEnabled = false ∧ s.cfg.reverbEnabled = false
    ∧ s.cfg.delayMs = 1#32 ∧ s.cfg.lowpassAlpha = 0x00000000#32 ∧ s.cfg.distortionGain = 0x3F800000#32
    ∧ s.cfg.sourceMode = .ring ∧ s.fileExhausted = false

/-- R132, R48: a step with reset applied discards every command not yet performed and a waiting RENDER without a
response, and gives every state its reset value. That the words already sent stay sent is the model's choice (log 11). -/
def Obligations.ResetDiscardsPendingCommands : Prop :=
  ∀ s : State, s.intact = true → s.resetIn = true →
    ∃ t, step s = .next t ∧ t.par = s.par ∧ t.rb = (State.resetWith s.par).rb ∧ t.fb = (State.resetWith s.par).fb
      ∧ t.cfg = (State.resetWith s.par).cfg ∧ t.fileExhausted = false ∧ t.inFlight = none ∧ t.resetIn = false
      ∧ ∀ p, t.wire p = { rx := [], tx := (s.wire p).tx }

/-- R62: while a RENDER waits for the file source, no command on any port is performed. -/
def Obligations.WaitingRenderHoldsEveryPort : Prop :=
  ∀ (s : State) (r : InFlight), s.resetIn = false → s.intact = true → s.inFlight = some r →
    receiveAnswer r.n s.file.rx = none → step s = .next s

/-- R60, R106, R107: a RENDER that had to wait for the file source's words ends as if they had been there when it
began: with the FILE_PULL inside it, it is one indivisible step. That the waiting RENDER is a field of the state, and that
words on P_FILE before the request count as its answer, are the model's choice (log 7). -/
def Obligations.WaitingRenderEndsAsOneStep : Prop :=
  ∀ (s w : State) (n : Count) (answer : List Word),
    s.resetIn = false → s.intact = true → s.inFlight = none → s.cfg.sourceMode = .file →
    s.fileExhausted = false → n ≠ 0#24 → receiveAnswer n s.file.rx = none → exec (.render n) s = .next w →
    step (w.fileAnswer answer) = exec (.render n) (s.fileAnswer answer)

/-! ### Responses and NOP -/

/-- R71, R118: the status words, and what every command's response adds to its port. -/
def Obligations.ResponsesCarryStatusAndData : Prop :=
  (Status.ok.word = 0x00000000#32 ∧ Status.bufferFull.word = 0x00000001#32
    ∧ Status.bufferUnderrun.word = 0x00000002#32 ∧ Status.invalidParameter.word = 0x00000003#32
    ∧ Status.sourceExhausted.word = 0x00000004#32 ∧ Status.illegalCommand.word = 0x00000005#32)
  ∧ ∀ (s : State) (st : Status) (d : List Word),
      (s.respond st d).wire s.grant = { s.wire s.grant with tx := (s.wire s.grant).tx ++ st.word :: d }
      ∧ (∀ q, q ≠ s.grant → (s.respond st d).wire q = s.wire q)
      ∧ { s.respond st d with prod := s.prod, rend := s.rend, ctrl := s.ctrl } = s

/-- R110: NOP answers OK and changes no state. -/
def Obligations.NopOnlyAnswers : Prop :=
  ∀ s : State, exec .nop s = .next (s.respond .ok [])

/-! ### The ring buffer (40_ring_buffer.md) -/

/-- R79: an RB_WRITE that fits stores every sample in order, bit for bit, and changes no other slot; `head` advances
modulo `C`, `count` plainly; the response is OK, and nothing else changes. -/
def Obligations.RbWriteStoresEverySample : Prop :=
  ∀ (s : State) (samples : List Word), s.rb.legal s.par.C = true → s.rb.count + samples.length ≤ s.par.C →
    ∃ t, exec (.rbWrite samples) s = .next t
      ∧ t.rb.head = (s.rb.head + samples.length) % s.par.C
      ∧ t.rb.tail = s.rb.tail
      ∧ t.rb.count = s.rb.count + samples.length
      ∧ (∀ (j : Nat) (h : j < samples.length), t.rb.store.read ((s.rb.head + j) % s.par.C) = samples[j])
      ∧ (∀ k, (∀ j < samples.length, k ≠ (s.rb.head + j) % s.par.C) → t.rb.store.read k = s.rb.store.read k)
      ∧ t = { s with rb := t.rb }.respond .ok []

/-- R83: an RB_WRITE of more samples than are free, and an RB_READ (the one a RENDER in RING mode performs) of more
than are queued, leave the ring buffer unchanged. -/
def Obligations.RejectedTransfersMoveNothing : Prop :=
  (∀ (s : State) (samples : List Word), s.par.C < s.rb.count + samples.length →
    exec (.rbWrite samples) s = .next (s.respond .bufferFull []))
  ∧ ∀ (s : State) (n : Count), s.cfg.sourceMode = .ring → s.rb.count < n.toNat →
      ∃ t, exec (.render n) s = .next t ∧ t.rb = s.rb

/-- R81: over every sequence of commands, what was queued and what was delivered is what was returned and what is
queued; so from an empty queue the returned samples are a prefix of the delivered ones. -/
def Obligations.QueueIsFirstInFirstOut : Prop :=
  ∀ (is : List Instr) (s t : State) (d r : List Word), s.rb.legal s.par.C = true →
    performAll is s = some (t, d, r) → s.queue ++ d = r ++ t.queue

/-- R82: after every command, `count` is its value before plus the samples written minus the samples read, and it
never exceeds `C`. -/
def Obligations.CountIsConserved : Prop :=
  ∀ (i : Instr) (s : State), s.rb.intact s.par.C = true →
    ∃ t, exec i s = .next t ∧ t.rb.count + (returned i s).length = s.rb.count + (delivered i s).length
      ∧ t.rb.count ≤ s.par.C

/-! ### Binary32 arithmetic (R16, R18) -/

/-- R16: rounding gives a number nearest to the exact value, the even one of two; and infinity exactly from the
midpoint past the largest finite number on. The value `num / den` is in units of 2^(-149). -/
def Obligations.RoundingIsToNearestEven : Prop :=
  ∀ num den : Nat, 0 < den →
    (roundMag num den = F32.infMag ↔ den * (2 ^ 25 - 1) * 2 ^ 253 ≤ 2 * num)
    ∧ (roundMag num den < F32.infMag → ∀ w : Word, F32.isFinite w = true →
        ((F32.units (F32.pack false (roundMag num den)) * den : Int) - num).natAbs
            ≤ ((F32.units w * den : Int) - num).natAbs
        ∧ (((F32.units (F32.pack false (roundMag num den)) * den : Int) - num).natAbs
              = ((F32.units w * den : Int) - num).natAbs →
            F32.mag w = roundMag num den ∨ roundMag num den % 2 = 0))

/-- R16: each operation gives the exact result on its operands, rounded once (`RoundingIsToNearestEven` says what `roundMag`
is), with the sign IEEE 754 gives it (log 15): of a sum, the sign of the exact sum, and of a zero sum `+` unless both terms
are negative; of a product and a quotient, the exclusive or of the signs. An infinite operand gives an infinity or, under
a finite dividend, a zero; a finite dividend over zero gives an infinity. So results that need no rounding are kept. -/
def Obligations.OperationsRoundTheExactResult : Prop :=
  (∀ a b : Word, F32.isFinite a = true → F32.isFinite b = true →
    (∃ r, F32.add a b = some r ∧ F32.mag r = roundMag (F32.value a + F32.value b).natAbs 1
      ∧ F32.neg? r = if F32.value a + F32.value b = 0 then F32.neg? a && F32.neg? b
          else decide (F32.value a + F32.value b < 0))
    ∧ (∃ r, F32.sub a b = some r ∧ F32.mag r = roundMag (F32.value a - F32.value b).natAbs 1
      ∧ F32.neg? r = if F32.value a - F32.value b = 0 then F32.neg? a && !F32.neg? b
          else decide (F32.value a - F32.value b < 0))
    ∧ (∃ r, F32.mul a b = some r ∧ F32.mag r = roundMag (F32.units a * F32.units b) (2 ^ 149)
      ∧ F32.neg? r = (F32.neg? a != F32.neg? b))
    ∧ (F32.isZero b = false → ∃ r, F32.div a b = some r ∧ F32.mag r = roundMag (F32.units a * 2 ^ 149) (F32.units b)
      ∧ F32.neg? r = (F32.neg? a != F32.neg? b))
    ∧ (F32.isZero b = true → F32.isZero a = false → ∃ r, F32.div a b = some r ∧ F32.isInf r = true
      ∧ F32.neg? r = (F32.neg? a != F32.neg? b)))
  ∧ (∀ a b : Word, F32.isInf a = true → F32.isFinite b = true →
    F32.add a b = some a ∧ F32.add b a = some a ∧ F32.sub a b = some a ∧ F32.sub b a = some (F32.neg a)
    ∧ (∃ r, F32.div a b = some r ∧ F32.isInf r = true ∧ F32.neg? r = (F32.neg? a != F32.neg? b))
    ∧ (∃ r, F32.div b a = some r ∧ F32.isZero r = true ∧ F32.neg? r = (F32.neg? b != F32.neg? a))
    ∧ (F32.isZero b = false → F32.mul a b = F32.mul b a
      ∧ ∃ r, F32.mul a b = some r ∧ F32.isInf r = true ∧ F32.neg? r = (F32.neg? a != F32.neg? b)))
  ∧ (∀ a b : Word, F32.isInf a = true → F32.isInf b = true →
    (F32.neg? a = F32.neg? b → F32.add a b = some a) ∧ (F32.neg? a ≠ F32.neg? b → F32.sub a b = some a)
    ∧ ∃ r, F32.mul a b = some r ∧ F32.isInf r = true ∧ F32.neg? r = (F32.neg? a != F32.neg? b))
  ∧ ∀ x : Word, F32.isFinite x = true →
    (x ≠ negZero → F32.add x silence = some x) ∧ F32.add x negZero = some x ∧ F32.mul x one = some x
      ∧ F32.div x one = some x ∧ F32.sub x x = some silence ∧ F32.add x (F32.neg x) = some silence

/-- R16, R18: an operation has no number exactly on a NaN operand and in the invalid cases of IEEE 754 (log 15): the sum of
infinities of opposite signs, the difference of infinities of one sign, the product of a zero and an infinity, and the
quotients of two zeros and of two infinities. Each primitive, `fadd`, `fsub`, `fmul` and `fdiv`, gives its operation's number
and draws nothing, or where there is none draws one quiet NaN (log 3). -/
def Obligations.NanResultsAreQuietNans : Prop :=
  (∀ (a b : Word) (draws : Nat),
    fadd a b draws = settle (F32.add a b) draws ∧ fsub a b draws = settle (F32.sub a b) draws
    ∧ fmul a b draws = settle (F32.mul a b) draws ∧ fdiv a b draws = settle (F32.div a b) draws
    ∧ settle (some a) draws = (a, draws))
  ∧ (∀ a b : Word,
    (F32.add a b = none ↔ F32.isNaN a = true ∨ F32.isNaN b = true
      ∨ (F32.isInf a = true ∧ F32.isInf b = true ∧ F32.neg? a ≠ F32.neg? b))
    ∧ (F32.sub a b = none ↔ F32.isNaN a = true ∨ F32.isNaN b = true
      ∨ (F32.isInf a = true ∧ F32.isInf b = true ∧ F32.neg? a = F32.neg? b))
    ∧ (F32.mul a b = none ↔ F32.isNaN a = true ∨ F32.isNaN b = true
      ∨ (F32.isInf a = true ∧ F32.isZero b = true) ∨ (F32.isZero a = true ∧ F32.isInf b = true))
    ∧ (F32.div a b = none ↔ F32.isNaN a = true ∨ F32.isNaN b = true
      ∨ (F32.isInf a = true ∧ F32.isInf b = true) ∨ (F32.isZero a = true ∧ F32.isZero b = true)))
  ∧ F32.isNaN 0x7F800001#32 = true ∧ F32.isInf 0x7F800000#32 = true ∧ F32.isInf 0xFF800000#32 = true
  ∧ F32.isZero 0x00000000#32 = true ∧ F32.isZero 0x80000000#32 = true
  ∧ ∀ draws : Nat, (settle none draws).2 = draws + 1 ∧ F32.isNaN (settle none draws).1 = true
      ∧ (settle none draws).1.extractLsb' 22 9 = 0x1FF#9

/-- R16: a word is a NaN, an infinity or a number by its exponent and fraction fields, and a number's value is that of its
fields, in units of 2^(-149) (the layout is general knowledge, log 15). Comparisons follow the values; each infinity lies
outside all numbers; comparisons are false on a NaN, and `-0.0` equals `+0.0`. -/
def Obligations.ComparisonsFollowTheNumbers : Prop :=
  (∀ w : Word,
    let e := w.extractLsb' 23 8
    let f := w.extractLsb' 0 23
    (F32.isNaN w = true ↔ e = 0xFF#8 ∧ f ≠ 0#23) ∧ (F32.isInf w = true ↔ e = 0xFF#8 ∧ f = 0#23)
    ∧ (F32.isFinite w = true ↔ e ≠ 0xFF#8) ∧ (F32.isZero w = true ↔ e = 0#8 ∧ f = 0#23)
    ∧ F32.units w = (if e = 0#8 then f.toNat else (2 ^ 23 + f.toNat) * 2 ^ (e.toNat - 1))
    ∧ F32.neg? w = w.getLsbD 31
    ∧ F32.value w = if w.getLsbD 31 then -(F32.units w : Int) else (F32.units w : Int))
  ∧ (∀ a b : Word, (F32.isNaN a = true ∨ F32.isNaN b = true) → flt a b = false ∧ fgt a b = false ∧ fle a b = false)
  ∧ (∀ a b : Word, F32.isFinite a = true → F32.isFinite b = true →
      (flt a b = true ↔ F32.value a < F32.value b) ∧ (fgt a b = true ↔ F32.value b < F32.value a)
      ∧ (fle a b = true ↔ F32.value a ≤ F32.value b))
  ∧ (∀ b : Word, F32.isNaN b = false →
      (flt b 0x7F800000#32 = true ↔ b ≠ 0x7F800000#32) ∧ fle b 0x7F800000#32 = true
      ∧ fgt b 0x7F800000#32 = false ∧ flt 0x7F800000#32 b = false
      ∧ (fgt 0x7F800000#32 b = true ↔ b ≠ 0x7F800000#32) ∧ (fle 0x7F800000#32 b = true ↔ b = 0x7F800000#32)
      ∧ (flt 0xFF800000#32 b = true ↔ b ≠ 0xFF800000#32) ∧ fle 0xFF800000#32 b = true
      ∧ fgt 0xFF800000#32 b = false ∧ flt b 0xFF800000#32 = false
      ∧ (fgt b 0xFF800000#32 = true ↔ b ≠ 0xFF800000#32) ∧ (fle b 0xFF800000#32 = true ↔ b = 0xFF800000#32))
  ∧ fle 0x80000000#32 0x00000000#32 = true ∧ fle 0x00000000#32 0x80000000#32 = true
  ∧ flt 0x80000000#32 0x00000000#32 = false ∧ fgt 0x00000000#32 0x80000000#32 = false

/-- R16: `i2f` is exact on the integers up to 2^24. -/
def Obligations.SmallIntegersConvertExactly : Prop :=
  ∀ n : Nat, n ≤ 2 ^ 24 → F32.isFinite (F32.ofNat n) = true ∧ F32.value (F32.ofNat n) = (n : Int) * 2 ^ 149

/-! ### The filter bank (41_filters.md) -/

/-- R86: the delay in samples, in exact integer arithmetic, always below `M`. -/
def Obligations.DelayInSamplesIsExact : Prop :=
  ∀ (p : Params) (c : Cfg), legalParams p = true → legalDelay p c.delayMs = true →
    (delaySamples p c : Int) = min (c.delayMs.toInt * (p.SR : Int) / 1000) ((p.M : Int) - 1)
      ∧ delaySamples p c < p.M

/-- R13: `DELAY_MS_MAX` is the largest setting whose delay lies in the history, or 1 where that would be 0. -/
def Obligations.DelayMsMaxIsTheLargestSetting : Prop :=
  ∀ p : Params, 1 ≤ p.M → 1 ≤ p.SR →
    p.delayMsMax = max 1 ((1000 * p.M - 1) / p.SR)
      ∧ (p.SR / 1000 ≤ p.M - 1 → p.delayMsMax * p.SR / 1000 ≤ p.M - 1
          ∧ ∀ d, p.delayMsMax < d → p.M - 1 < d * p.SR / 1000)
      ∧ (p.M - 1 < p.SR / 1000 → p.delayMsMax = 1)

/-- R87, R99: the snapshot holds the registers and the delay `D`, and its taps are `d_t = D div (t + 1)` and
`w_t = fdiv(B, i2f(t + 1))`, which is a number. -/
def Obligations.TapsHaveTheirDelaysAndWeights : Prop :=
  ∀ (p : Params) (c : Cfg) (draws : Nat), legalParams p = true →
    (takeSnapshot p c draws).2 = draws ∧ (takeSnapshot p c draws).1.cfg = c
      ∧ (takeSnapshot p c draws).1.delay = delaySamples p c ∧ (takeSnapshot p c draws).1.taps.length = p.K
      ∧ ∀ j < p.K, ∃ w, F32.div p.B (F32.ofNat (j + 1)) = some w
          ∧ (takeSnapshot p c draws).1.taps[j]? = some { delay := delaySamples p c / (j + 1), weight := w }

/-- R89: a constant zero input stream yields zero output for every register value of `α`, and the input equals the
output when `α ≤ 0`. -/
def Obligations.LowpassKeepsSilenceAndPassesThrough : Prop :=
  (∀ (p : Params) (snap : Snapshot) (f : Filters) (draws n : Nat),
    legalAlpha snap.cfg.lowpassAlpha = true → snap.cfg.echoEnabled = false → snap.cfg.reverbEnabled = false →
    snap.cfg.distortionEnabled = false → f.lpMem = silence →
    (processBlock p snap (List.replicate n silence) f draws).out = List.replicate n silence)
  ∧ ∀ (a x : Word) (f : Filters) (draws : Nat), fle a silence = true →
      lowpass a x f draws = { y := x, fb := { f with lpMem := x }, draws := draws }

/-- R88: for `α > 0` the output is `α·x + (1 − α)·mem`, each operation rounded in the stated order, and it is the new
memory; a NaN that an operation gives is drawn (R18), enters the sum and the memory, and stays like any other result. -/
def Obligations.LowpassFormula : Prop :=
  ∀ (a x : Word) (f : Filters) (draws : Nat), fle a silence = false →
    let t1 := fmul a x draws
    let t2 := fsub 0x3F800000#32 a t1.2
    let t3 := fmul t2.1 f.lpMem t2.2
    let y := fadd t1.1 t3.1 t3.2
    lowpass a x f draws = { y := y.1, fb := { f with lpMem := y.1 }, draws := y.2 }

/-- R90: the echo adds `F` times the sample `D` behind, which for `D = 0` is the current one; the sum, a drawn NaN among
them (R18), goes into the history at the cursor, and no other slot changes. -/
def Obligations.EchoAddsTheDelayedSum : Prop :=
  ∀ (p : Params) (D : Nat) (x : Word) (f : Filters) (draws : Nat), f.eh.wf = true → f.ei < p.M → D < p.M →
    let fv := fmul p.F (if D = 0 then x else f.eh.read (((f.ei : Int) - (D : Int)) % (p.M : Int)).toNat) draws
    let y := fadd x fv.1 fv.2
    (echo p D x f draws).y = y.1 ∧ (echo p D x f draws).draws = y.2
      ∧ (echo p D x f draws).fb.eh.read f.ei = y.1
      ∧ (∀ j, j ≠ f.ei → (echo p D x f draws).fb.eh.read j = f.eh.read j)
      ∧ { (echo p D x f draws).fb with eh := f.eh } = f

/-- R92: with the echo alone in effect and its history at zero, a unit impulse comes back at the multiples of `D` with
the powers of `F`, and the output is `+0.0` in between. (`F = -0.0`, which equals zero, has signed powers and is not
meant.) -/
def Obligations.EchoOfAnImpulseDecays : Prop :=
  ∀ (p : Params) (snap : Snapshot) (f : Filters) (draws n : Nat),
    legalParams p = true → p.F ≠ negZero → snap.cfg.lowpassAlpha = silence → snap.cfg.echoEnabled = true →
    snap.cfg.reverbEnabled = false → snap.cfg.distortionEnabled = false → 1 ≤ snap.delay → snap.delay < p.M →
    f.eh = [] → f.ei < p.M →
    (processBlock p snap (one :: List.replicate n silence) f draws).out
      = (List.range (n + 1)).map (fun k =>
          if k % snap.delay = 0 then echoPower p.F (k / snap.delay) else silence)

/-- R93: the reverb adds, in increasing `t`, each weight times the input `d_t` behind, which for `d_t = 0` is the
current one; the input goes into every history at the cursor, and no other slot changes. -/
def Obligations.ReverbAddsTheWeightedTaps : Prop :=
  ∀ (p : Params) (taps : List Tap) (x : Word) (f : Filters) (draws : Nat),
    f.legal p = true → (∀ tap ∈ taps, tap.delay < p.M) →
    let sum := (f.rh.zip taps).foldl
      (fun acc c =>
        let v := if c.2.delay = 0 then x else c.1.read (((f.ri : Int) - (c.2.delay : Int)) % (p.M : Int)).toNat
        let wv := fmul c.2.weight v acc.2
        fadd acc.1 wv.1 wv.2)
      (silence, draws)
    (reverb p taps x f draws).y = (fadd x sum.1 sum.2).1
      ∧ (reverb p taps x f draws).draws = (fadd x sum.1 sum.2).2
      ∧ (reverb p taps x f draws).fb.rh.length = f.rh.length
      ∧ (∀ (t : Nat) (h h' : Memory), f.rh[t]? = some h → (reverb p taps x f draws).fb.rh[t]? = some h' →
          h'.read f.ri = x ∧ ∀ j, j ≠ f.ri → h'.read j = h.read j)
      ∧ { (reverb p taps x f draws).fb with rh := f.rh } = f

/-- R91, R94: a disabled echo or reverb writes no history. -/
def Obligations.DisabledStagesHoldTheirHistory : Prop :=
  ∀ (p : Params) (snap : Snapshot) (x : Word) (f : Filters) (draws : Nat),
    (snap.cfg.echoEnabled = false → (processSample p snap x f draws).fb.eh = f.eh)
      ∧ (snap.cfg.reverbEnabled = false → (processSample p snap x f draws).fb.rh = f.rh)
      ∧ (snap.cfg.echoEnabled = false → snap.cfg.reverbEnabled = false → snap.cfg.distortionEnabled = false →
          (processSample p snap x f draws).y = (lowpass snap.cfg.lowpassAlpha x f draws).y)

/-- R101: both cursors advance once per processed sample, modulo `M`, whatever effects are enabled. -/
def Obligations.CursorsAdvanceOncePerSample : Prop :=
  ∀ (p : Params) (snap : Snapshot) (xs : List Word) (f : Filters) (draws : Nat), f.ei < p.M → f.ri < p.M →
    (processBlock p snap xs f draws).fb.ei = (f.ei + xs.length) % p.M
      ∧ (processBlock p snap xs f draws).fb.ri = (f.ri + xs.length) % p.M

/-- R96: the clip, case by case. -/
def Obligations.ClipCases : Prop :=
  ∀ L v : Word, F32.isFinite L = true → flt silence L = true →
    (F32.isNaN v = true → clip L v = 0x00000000#32)
      ∧ (fgt v L = true → clip L v = L)
      ∧ (flt v (F32.neg L) = true → clip L v = F32.neg L)
      ∧ (F32.isNaN v = false → fgt v L = false → flt v (F32.neg L) = false → clip L v = v)
      ∧ F32.neg L = L ^^^ 0x80000000#32 ∧ clip L 0x7F800000#32 = L ∧ clip L 0xFF800000#32 = F32.neg L ∧ clip L 0x80000000#32 = 0x80000000#32

/-- R97, R35, R98: the distortion clips the product of the input and the gain, rounded once, and has no state; its output is
never NaN and never leaves `[−L, +L]`, for every input word and gain. -/
def Obligations.DistortionStaysInRange : Prop :=
  ∀ (p : Params) (g x : Word) (f : Filters) (draws : Nat),
    distort p g x f draws = { y := clip p.L (fmul x g draws).1, fb := f, draws := (fmul x g draws).2 }
    ∧ (F32.isFinite p.L = true → flt silence p.L = true →
        F32.isNaN (distort p g x f draws).y = false ∧ fle (F32.neg p.L) (distort p g x f draws).y = true
          ∧ fle (distort p g x f draws).y p.L = true)

/-! ### The pipeline and the render driver (42_pipeline_render.md) -/

/-- R100, R133: with every effect disabled and `α = +0.0`, as after reset, the block is returned bit for bit; the
low-pass memory follows the input, the cursors advance, and no history changes. -/
def Obligations.ResetConfigurationIsTheIdentity : Prop :=
  ∀ (p : Params) (snap : Snapshot) (xs : List Word) (f : Filters) (draws : Nat),
    snap.cfg.lowpassAlpha = silence → snap.cfg.echoEnabled = false → snap.cfg.reverbEnabled = false →
    snap.cfg.distortionEnabled = false → f.ei < p.M → f.ri < p.M →
    processBlock p snap xs f draws
      = { out := xs
          fb := { f with lpMem := xs.getLastD f.lpMem, ei := (f.ei + xs.length) % p.M, ri := (f.ri + xs.length) % p.M }
          draws := draws }

/-- R102, R18: for a fixed configuration and input block, the output and the final filter state are a function of the
filter state alone, bit for bit, except for the payloads of NaNs. -/
def Obligations.PipelineIsDeterministicUpToNanPayloads : Prop :=
  ∀ (p : Params) (snap : Snapshot) (xs : List Word) (f f' : Filters) (draws draws' : Nat),
    f.legal p = true → f'.legal p = true → SameFilters f f' →
    List.Forall₂ SameNumber (processBlock p snap xs f draws).out (processBlock p snap xs f' draws').out
      ∧ SameFilters (processBlock p snap xs f draws).fb (processBlock p snap xs f' draws').fb

/-- R80, R99, R103, R105: a RENDER in RING mode with enough samples queued takes the oldest `N`, runs the pipeline over
them with the snapshot of the registers, responds OK with what it gives, and changes nothing else. -/
def Obligations.RenderProcessesTheOldestSamples : Prop :=
  ∀ (s : State) (n : Count), s.cfg.sourceMode = .ring → n.toNat ≤ s.rb.count →
    let snap := takeSnapshot s.par s.cfg s.draws
    let oldest := (List.range n.toNat).map (fun j => s.rb.store.read ((s.rb.tail + j) % s.par.C))
    let b := processBlock s.par snap.1 oldest s.fb snap.2
    exec (.render n) s = .next ({ s with
      rb := { s.rb with tail := (s.rb.tail + n.toNat) % s.par.C, count := s.rb.count - n.toNat }
      fb := b.fb, draws := b.draws }.respond .ok b.out)

/-- R104, R105: a RENDER in RING mode with too few samples queued answers BUFFER_UNDERRUN with `N` silent samples, and
changes nothing else. -/
def Obligations.RenderUnderrunIsSilent : Prop :=
  ∀ (s : State) (n : Count), legalParams s.par = true → s.cfg.sourceMode = .ring → s.rb.count < n.toNat →
    exec (.render n) s = .next (s.respond .bufferUnderrun (List.replicate n.toNat 0x00000000#32))

/-- R104, R106, R121: a RENDER in FILE mode with the source exhausted answers SOURCE_EXHAUSTED with `N` silent samples
and pulls nothing; an empty one otherwise answers OK and pulls nothing. -/
def Obligations.RenderWithoutAPull : Prop :=
  ∀ (s : State) (n : Count), legalParams s.par = true → s.cfg.sourceMode = .file →
    (s.fileExhausted = true →
      exec (.render n) s = .next (s.respond .sourceExhausted (List.replicate n.toNat 0x00000000#32)))
    ∧ (s.fileExhausted = false → n = 0#24 → exec (.render n) s = .next (s.respond .ok []))

/-- R106, R107: a RENDER in FILE mode whose pull is answered with samples pads them with silence, runs the pipeline over
all `N`, reports the end of stream, and changes nothing else; one answered with none leaves the block silent and
unprocessed. `m` is bits 23:0 of the answer word, read as `N` when larger; `eos` is bit 31. That words on P_FILE before the
request count as its answer is the model's choice (log 7). -/
def Obligations.RenderFromTheFileSource : Prop :=
  ∀ (s : State) (n : Count) (r : Word) (data rest : List Word),
    legalParams s.par = true → s.cfg.sourceMode = .file → s.fileExhausted = false → n ≠ 0#24 → s.inFlight = none →
    s.file.rx = r :: (data ++ rest) → data.length = min (r.toNat % 2 ^ 24) n.toNat →
    let out := data ++ List.replicate (n.toNat - data.length) 0x00000000#32
    let st := if r.msb then Status.sourceExhausted else Status.ok
    let pulled := { s with
      file := { rx := rest, tx := s.file.tx ++ [BitVec.ofNat 32 n.toNat] }, fileExhausted := r.msb }
    let b := processBlock s.par (takeSnapshot s.par s.cfg s.draws).1 out s.fb s.draws
    (data ≠ [] → exec (.render n) s = .next ({ pulled with fb := b.fb, draws := b.draws }.respond st b.out))
      ∧ (data = [] → exec (.render n) s = .next (pulled.respond st out))

/-- R62, R107: the file source's answer is not whole as long as its word `r` is not there, or fewer than `m` samples are
after it, `m` being bits 23:0 of `r` and at most `N`. A RENDER in FILE mode whose answer is not whole sends its request,
keeps its snapshot and waits; nothing else changes, and no response is sent. That the waiting RENDER is a field of the
state is the model's choice (log 7). -/
def Obligations.RenderWaitsForTheFileSource : Prop :=
  (∀ (n : Count) (rx : List Word), receiveAnswer n rx = none ↔
    rx = [] ∨ ∃ r ws, rx = r :: ws ∧ ws.length < min (r.toNat % 2 ^ 24) n.toNat)
  ∧ ∀ (s : State) (n : Count), legalParams s.par = true → s.cfg.sourceMode = .file → s.fileExhausted = false →
    n ≠ 0#24 → receiveAnswer n s.file.rx = none →
    exec (.render n) s = .next { s with
      file := { s.file with tx := s.file.tx ++ [BitVec.ofNat 32 n.toNat] }
      inFlight := some { n := n, snap := (takeSnapshot s.par s.cfg s.draws).1 } }

/-- R71, R109, R62: the response of every RENDER carries exactly `N` samples, whatever its status. No response is sent
only while the RENDER waits for the file source: in FILE mode, with the source not exhausted, `N` not zero and the answer
not whole; it responds when its answer is there, and not before. That it waits as a field of the state is the model's
choice (log 7). -/
def Obligations.EveryRenderReturnsExactlyN : Prop :=
  (∀ (s : State) (n : Count), ∃ t, exec (.render n) s = .next t ∧
    if s.cfg.sourceMode = .file ∧ s.fileExhausted = false ∧ n ≠ 0#24 ∧ receiveAnswer n s.file.rx = none then
      (∀ p, t.wire p = s.wire p) ∧ ∃ r, t.inFlight = some r ∧ r.n = n
    else ∃ st out, out.length = n.toNat
      ∧ (t.wire s.grant).tx = (s.wire s.grant).tx ++ Status.word st :: out)
  ∧ ∀ (s : State) (r : InFlight),
      if receiveAnswer r.n s.file.rx = none then
        (∀ p, (awaitAnswer r s).wire p = s.wire p) ∧ (awaitAnswer r s).inFlight = some r
      else (awaitAnswer r s).inFlight = none ∧ ∃ st out, out.length = r.n.toNat
        ∧ ((awaitAnswer r s).wire s.grant).tx = (s.wire s.grant).tx ++ Status.word st :: out

/-! ### Configuration (43_configuration.md) -/

/-- R112: a write of a one-bit register keeps bit 0 of the word, answers OK, and changes nothing else. -/
def Obligations.OneBitRegistersKeepBitZero : Prop :=
  ∀ (s : State) (v : Word),
    exec (.cfgWriteEchoEn v) s = .next ({ s with cfg := { s.cfg with echoEnabled := v.getLsbD 0 } }.respond .ok [])
    ∧ exec (.cfgWriteDistEn v) s
        = .next ({ s with cfg := { s.cfg with distortionEnabled := v.getLsbD 0 } }.respond .ok [])
    ∧ exec (.cfgWriteReverbEn v) s
        = .next ({ s with cfg := { s.cfg with reverbEnabled := v.getLsbD 0 } }.respond .ok [])

/-- R113: a write of DELAY_MS commits the value clamped to `[1, DELAY_MS_MAX]`, reports whether it clamped, and changes
nothing else. -/
def Obligations.DelayWritesClamp : Prop :=
  ∀ (s : State) (v : Word),
    (v.toInt < 1 → exec (.cfgWriteDelayMs v) s
      = .next ({ s with cfg := { s.cfg with delayMs := 1#32 } }.respond .invalidParameter []))
    ∧ (1 ≤ v.toInt → (s.par.delayMsMax : Int) < v.toInt → exec (.cfgWriteDelayMs v) s
      = .next ({ s with cfg := { s.cfg with delayMs := BitVec.ofNat 32 s.par.delayMsMax } }.respond
          .invalidParameter []))
    ∧ (1 ≤ v.toInt → v.toInt ≤ (s.par.delayMsMax : Int) → exec (.cfgWriteDelayMs v) s
      = .next ({ s with cfg := { s.cfg with delayMs := v } }.respond .ok []))

/-- R114: a write of LP_ALPHA commits the value clamped to `[+0.0, 1.0]`, a NaN as `+0.0`, `-0.0` as `+0.0` with OK,
and changes nothing else. -/
def Obligations.AlphaWritesClamp : Prop :=
  ∀ (s : State) (v : Word),
    (F32.isNaN v = true ∨ flt v 0x00000000#32 = true → exec (.cfgWriteLpAlpha v) s
      = .next ({ s with cfg := { s.cfg with lowpassAlpha := 0x00000000#32 } }.respond .invalidParameter []))
    ∧ (fgt v 0x3F800000#32 = true → exec (.cfgWriteLpAlpha v) s
      = .next ({ s with cfg := { s.cfg with lowpassAlpha := 0x3F800000#32 } }.respond .invalidParameter []))
    ∧ (fle 0x00000000#32 v = true → fle v 0x3F800000#32 = true → exec (.cfgWriteLpAlpha v) s
      = .next ({ s with cfg := { s.cfg with
          lowpassAlpha := if v = 0x80000000#32 then 0x00000000#32 else v } }.respond .ok []))

/-- R115: a write of DIST_GAIN commits a negative value and a NaN as `+0.0`, `-0.0` as `+0.0` with OK, any other value
as it is, and changes nothing else. -/
def Obligations.GainWritesClamp : Prop :=
  ∀ (s : State) (v : Word),
    (F32.isNaN v = true ∨ flt v 0x00000000#32 = true → exec (.cfgWriteDistGain v) s
      = .next ({ s with cfg := { s.cfg with distortionGain := 0x00000000#32 } }.respond .invalidParameter []))
    ∧ (fle 0x00000000#32 v = true → exec (.cfgWriteDistGain v) s
      = .next ({ s with cfg := { s.cfg with
          distortionGain := if v = 0x80000000#32 then 0x00000000#32 else v } }.respond .ok []))

/-- R116: a write of SOURCE_MODE selects the source by bit 0, re-arms the file source, answers OK, and changes nothing
else. -/
def Obligations.SourceModeWritesRearm : Prop :=
  ∀ (s : State) (v : Word), exec (.cfgWriteSourceMode v) s
    = .next ({ s with
        cfg := { s.cfg with sourceMode := if v.getLsbD 0 then .file else .ring }
        fileExhausted := false }.respond .ok [])

/-- R37, R38, R40: the value a CFG_WRITE commits is legal, whatever word was written. -/
def Obligations.CommittedValuesAreLegal : Prop :=
  ∀ (s : State) (v : Word),
    (∃ t, exec (.cfgWriteDelayMs v) s = .next t ∧ legalDelay s.par t.cfg.delayMs = true)
    ∧ (∃ t, exec (.cfgWriteLpAlpha v) s = .next t ∧ legalAlpha t.cfg.lowpassAlpha = true)
    ∧ (∃ t, exec (.cfgWriteDistGain v) s = .next t ∧ legalGain t.cfg.distortionGain = true)

/-- R44, R117: every CFG_READ answers OK with its register's word, and changes nothing. -/
def Obligations.ReadsReturnTheRegisters : Prop :=
  ∀ s : State,
    exec .cfgReadEchoEn s = .next (s.respond .ok [if s.cfg.echoEnabled then 1#32 else 0#32])
    ∧ exec .cfgReadDelayMs s = .next (s.respond .ok [s.cfg.delayMs])
    ∧ exec .cfgReadLpAlpha s = .next (s.respond .ok [s.cfg.lowpassAlpha])
    ∧ exec .cfgReadDistEn s = .next (s.respond .ok [if s.cfg.distortionEnabled then 1#32 else 0#32])
    ∧ exec .cfgReadDistGain s = .next (s.respond .ok [s.cfg.distortionGain])
    ∧ exec .cfgReadReverbEn s = .next (s.respond .ok [if s.cfg.reverbEnabled then 1#32 else 0#32])
    ∧ exec .cfgReadSourceMode s = .next (s.respond .ok [if s.cfg.sourceMode = .file then 1#32 else 0#32])
    ∧ exec .cfgReadRbCount s = .next (s.respond .ok [BitVec.ofNat 32 s.rb.count])
    ∧ exec .cfgReadRbHead s = .next (s.respond .ok [BitVec.ofNat 32 s.rb.head])
    ∧ exec .cfgReadRbTail s = .next (s.respond .ok [BitVec.ofNat 32 s.rb.tail])
    ∧ exec .cfgReadSrcStatus s = .next (s.respond .ok [if s.fileExhausted then 1#32 else 0#32])
    ∧ exec .cfgReadParamC s = .next (s.respond .ok [BitVec.ofNat 32 s.par.C])
    ∧ exec .cfgReadParamM s = .next (s.respond .ok [BitVec.ofNat 32 s.par.M])
    ∧ exec .cfgReadParamK s = .next (s.respond .ok [BitVec.ofNat 32 s.par.K])
    ∧ exec .cfgReadParamSr s = .next (s.respond .ok [BitVec.ofNat 32 s.par.SR])

/-- R59: a CFG_WRITE performed twice leaves the state of one performed once, but for the second response. -/
def Obligations.ConfigurationWritesAreIdempotent : Prop :=
  ∀ (s : State) (v : Word) (i : Instr),
    i ∈ [.cfgWriteEchoEn v, .cfgWriteDelayMs v, .cfgWriteLpAlpha v, .cfgWriteDistEn v, .cfgWriteDistGain v,
      .cfgWriteReverbEn v, .cfgWriteSourceMode v] →
    ∃ t u, exec i s = .next t ∧ exec i t = .next u
      ∧ { u with prod := t.prod, rend := t.rend, ctrl := t.ctrl } = t

/-- R46, R49, R67, R126: each command keeps to its own state: the parameters never change; the registers change only by
CFG_WRITE; the filter bank, a waiting RENDER, P_FILE and the count of draws only by RENDER; the ring buffer only by
RB_WRITE and RENDER; `SRC.fileExhausted` only by RENDER and a SOURCE_MODE write; no command consumes another's words or
answers on another port. -/
def Obligations.EachCommandKeepsToItsOwnState : Prop :=
  ∀ (i : Instr) (s t : State), exec i s = .next t →
    t.par = s.par ∧ t.resetIn = s.resetIn ∧ t.grant = s.grant ∧ t.turn = s.turn ∧ t.due = s.due
      ∧ (∀ p, (t.wire p).rx = (s.wire p).rx) ∧ (∀ p, p ≠ s.grant → t.wire p = s.wire p)
      ∧ (writesRegister i = false → t.cfg = s.cfg)
      ∧ ((∀ n, i ≠ .render n) → t.fb = s.fb ∧ t.inFlight = s.inFlight ∧ t.file = s.file ∧ t.draws = s.draws)
      ∧ (i.acceptedOn .ctrl = true → t.rb = s.rb)
      ∧ ((∀ n, i ≠ .render n) → (∀ v, i ≠ .cfgWriteSourceMode v) → t.fileExhausted = s.fileExhausted)

/-! ### One command a port, fairness, and the order of the stages (R47, R62, R100) -/

/-- R47, R52, R55: in every state a run reaches, each command port holds at most one command, whole, and none while a
RENDER from the port waits for its response; a frame sent on a port with none outstanding is there alone, and sending on a
port that has one outstanding, or sending what is no whole frame, changes nothing. That the frame gets a turn, and that a send which R52 forbids is no transfer, are the
model's choices (log 4, log 5). -/
def Obligations.EachPortHoldsAtMostOneCommand : Prop :=
  (∀ (p : Params) (s : State), legalParams p = true → Reachable p s → ∀ q,
    ((s.wire q).rx = [] ∨ nextFrame (s.wire q).rx = some ((s.wire q).rx, []))
      ∧ (s.inFlight ≠ none → s.grant = q → (s.wire q).rx = []))
  ∧ ∀ (s : State) (q : Port) (frame : List Word),
      (nextFrame frame = some (frame, []) → (s.wire q).rx = [] → (s.inFlight ≠ none → s.grant ≠ q) →
        (s.send q frame).wire q = { s.wire q with rx := frame } ∧ s.turn ≤ (s.send q frame).due.get q
          ∧ { s.send q frame with prod := s.prod, rend := s.rend, ctrl := s.ctrl, due := s.due } = s
          ∧ ∀ q', q' ≠ q → (s.send q frame).wire q' = s.wire q' ∧ (s.send q frame).due.get q' = s.due.get q')
      ∧ ((s.wire q).rx ≠ [] ∨ (s.inFlight ≠ none ∧ s.grant = q) ∨ nextFrame frame ≠ some (frame, []) →
        s.send q frame = s)

/-- R62: every command on a port is eventually performed: in every run in which the block goes on making steps, reset is
not applied and the file source answers every pull, there is a step that performs the command. The agents may send what
they like meanwhile. That the arbitration is fair through turns is the model's form (log 4). -/
def Obligations.EveryCommandIsEventuallyPerformed : Prop :=
  ∀ (p : Port) (moves : Nat → Move) (run : Nat → State),
    (run 0).inv = true → (run 0).resetIn = false → (run 0).ready p = true →
    (∀ n, run (n + 1) = (moves n).apply (run n)) → (∀ n, moves n ≠ .assertReset) →
    (∀ n, ∃ k, n ≤ k ∧ moves k = .step) →
    (∀ n r, (run n).inFlight = some r → ∃ k, n ≤ k ∧ receiveAnswer r.n (run k).file.rx ≠ none) →
    ∃ n, moves n = .step ∧ (run n).serves p = true ∧ ((run n).wire p).rx = ((run 0).wire p).rx

/-- R100, R101: a sample passes through LP, then ECHO, then REVERB, then DIST, each of the last three only where its enable
is set; then both cursors advance, modulo `M`; and the samples of a block are processed strictly in order. -/
def Obligations.StagesRunInOrder : Prop :=
  ∀ (p : Params) (snap : Snapshot) (x : Word) (f : Filters) (draws : Nat),
    let stages : List (Word → Filters → Nat → Flow) :=
      [lowpass snap.cfg.lowpassAlpha]
        ++ (if snap.cfg.echoEnabled then [echo p snap.delay] else [])
        ++ (if snap.cfg.reverbEnabled then [reverb p snap.taps] else [])
        ++ (if snap.cfg.distortionEnabled then [distort p snap.cfg.distortionGain] else [])
    let last := stages.foldl (fun a stage => stage a.y a.fb a.draws) { y := x, fb := f, draws := draws }
    let one := processSample p snap x f draws
    one.y = last.y ∧ one.draws = last.draws
      ∧ one.fb = { last.fb with ei := (last.fb.ei + 1) % p.M, ri := (last.fb.ri + 1) % p.M }
      ∧ ∀ xs, processBlock p snap (x :: xs) f draws
          = { processBlock p snap xs one.fb one.draws with out := one.y :: (processBlock p snap xs one.fb one.draws).out }
end

