-- ==== Sys2Proof/Laws/Arbitration.lean ====
section
/-! SUPPORT. Everything the choice of a port can be (R60, R62; log 4). -/

namespace Sys2Proof.Machine

/-- `best` is the port to serve of the ports in `seen`: none of them is ready, or it is, and goes before all of them that
are. -/
def Best (s : State) (seen : Port → Prop) (best : Option Port) : Prop :=
  match best with
  | none => ∀ q, seen q → s.ready q = false
  | some p => seen p ∧ s.ready p = true ∧ ∀ q, seen q → q ≠ p → s.ready q = true → s.ahead q p = true

/-- Looking at one more port keeps the best of those seen. -/
theorem best_better {s : State} {seen : Port → Prop} {best : Option Port} (p : Port) (h : Best s seen best)
    (hp : ∀ q, seen q → q.rank < p.rank) : Best s (fun q => seen q ∨ q = p) (s.better best p) := by
  unfold State.better
  by_cases hr : s.ready p = true
  · rw [if_pos hr]
    cases best with
    | none =>
      refine ⟨.inr rfl, hr, ?_⟩
      rintro q (hq | rfl) hn hq'
      · simp [h q hq] at hq'
      · exact absurd rfl hn
    | some b =>
      obtain ⟨h1, h2, h3⟩ := h
      have hb := hp b h1
      by_cases hlt : s.due.get p < s.due.get b
      · simp only [if_pos hlt]
        refine ⟨.inr rfl, hr, ?_⟩
        rintro q (hq | rfl) hn hq'
        · by_cases hqb : q = b
          · subst hqb; simp [State.ahead, hr, hlt]
          · have := h3 q hq hqb hq'
            simp only [State.ahead, h2, Bool.true_and, decide_eq_true_eq, hr] at this ⊢
            omega
        · exact absurd rfl hn
      · simp only [if_neg hlt]
        refine ⟨.inl h1, h2, ?_⟩
        rintro q (hq | rfl) hn hq'
        · exact h3 q hq hn hq'
        · simp only [State.ahead, h2, Bool.true_and, decide_eq_true_eq]
          omega
  · rw [if_neg hr]
    cases best with
    | none =>
      rintro q (hq | rfl)
      · exact h q hq
      · simpa using hr
    | some b =>
      refine ⟨.inl h.1, h.2.1, ?_⟩
      rintro q (hq | rfl) hn hq'
      · exact h.2.2 q hq hn hq'
      · exact absurd hq' hr

/-- The port served is the best of the three. -/
theorem best_pick (s : State) : Best s (fun _ => True) s.pick := by
  have h0 : Best s (fun _ => False) none := fun _ h => h.elim
  have h1 := best_better .prod h0 (fun _ h => h.elim)
  have h2 := best_better .rend h1 (by rintro q (h | rfl); exact h.elim; decide)
  have h3 := best_better .ctrl h2 (by rintro q ((h | rfl) | rfl); exact h.elim; decide; decide)
  have e : (fun q => ((False ∨ q = Port.prod) ∨ q = .rend) ∨ q = .ctrl) = fun _ => True := by
    funext q; cases q <;> simp
  rw [e] at h3
  exact h3

end Sys2Proof.Machine
end

