-- ==== Sys2Proof/Laws/Encoding.lean ====
section
/-! SUPPORT. The fields of a command word, and how a frame leaves a port. -/

namespace Sys2Proof

@[simp] theorem opcOf_commandWord (o s : BitVec 4) (n : Count) : opcOf (commandWord o s n) = o := by
  unfold opcOf commandWord
  ext i hi
  simp
  grind

@[simp] theorem selOf_commandWord (o s : BitVec 4) (n : Count) : selOf (commandWord o s n) = s := by
  unfold selOf commandWord
  ext i hi
  simp
  grind

@[simp] theorem countOf_commandWord (o s : BitVec 4) (n : Count) : countOf (commandWord o s n) = n := by
  unfold countOf commandWord
  ext i hi
  simp
  grind

/-- A frame whose payload has the length its word gives it is taken whole, whatever follows it (R70). -/
theorem nextFrame_append (w : Word) (payload rest : List Word) (h : payload.length = payloadWords w) :
    nextFrame (w :: payload ++ rest) = some (w :: payload, rest) := by
  simp [nextFrame, ← h]

/-- Everything `nextFrame` can do: the frame and the rest are the words, and the frame has its length (R70). -/
theorem nextFrame_spec {ws frame rest : List Word} (h : nextFrame ws = some (frame, rest)) :
    ∃ w payload, frame = w :: payload ∧ payload.length = payloadWords w ∧ ws = frame ++ rest := by
  cases ws with
  | nil => simp [nextFrame] at h
  | cons w ws =>
    simp only [nextFrame] at h
    split at h
    · cases h
      refine ⟨w, ws.take (payloadWords w), rfl, ?_, ?_⟩
      · simpa using ‹_›
      · simp
    · simp at h

end Sys2Proof
end

