-- ==== Sys2Proof/Laws/Float.lean ====
section
/-! SUPPORT. Facts of the binary32 primitives: what a drawn NaN is, what `settle` can do, and the small lemmas of
the comparisons. -/

namespace Sys2Proof.Machine

/-- The number of an appended pair of bit vectors. -/
theorem toNat_append_add {m n : Nat} (x : BitVec m) (y : BitVec n) :
    (x ++ y).toNat = x.toNat * 2 ^ n + y.toNat := by
  rw [BitVec.toNat_append, ← Nat.shiftLeft_add_eq_or_of_lt y.isLt, Nat.shiftLeft_eq]

/-- The magnitude bits of a quiet NaN: exponent all ones, bit 22 set, the low 22 bits free (R18). -/
theorem mag_quietNaN (free : BitVec 23) :
    F32.mag (quietNaN free) = 0x7FC00000 + (free.extractLsb' 0 22).toNat := by
  have h1 := (free.extractLsb' 22 1).isLt
  have h2 := (free.extractLsb' 0 22).isLt
  unfold F32.mag quietNaN
  rw [toNat_append_add, toNat_append_add]
  simp only [BitVec.toNat_ofNat]
  omega

/-- A drawn NaN is a NaN. -/
@[simp] theorem isNaN_quietNaN (free : BitVec 23) : F32.isNaN (quietNaN free) = true := by
  simp only [F32.isNaN, mag_quietNaN, F32.infMag, decide_eq_true_eq]
  omega

@[simp] theorem settle_some (w : Word) (draws : Nat) : settle (some w) draws = (w, draws) := rfl

@[simp] theorem settle_none (draws : Nat) :
    settle none draws = (quietNaN (Config.nanPayload draws), draws + 1) := rfl

/-- Everything `settle` can do. -/
theorem settle_cases (r : Option Word) (draws : Nat) :
    (∃ w, r = some w ∧ settle r draws = (w, draws)) ∨
    (r = none ∧ settle r draws = (quietNaN (Config.nanPayload draws), draws + 1)) := by
  cases r with
  | none => exact .inr ⟨rfl, rfl⟩
  | some w => exact .inl ⟨w, rfl, rfl⟩

/-- Draws are never given back. -/
theorem draws_le_settle (r : Option Word) (draws : Nat) : draws ≤ (settle r draws).2 := by
  cases r <;> simp

theorem mag_lt (a : Word) : F32.mag a < 2 ^ 31 := Nat.mod_lt _ (by decide)

theorem fle_iff (a b : Word) :
    fle a b = true ↔ F32.isNaN a = false ∧ F32.isNaN b = false ∧ F32.key a ≤ F32.key b := by
  simp [fle, and_assoc]

theorem flt_iff (a b : Word) :
    flt a b = true ↔ F32.isNaN a = false ∧ F32.isNaN b = false ∧ F32.key a < F32.key b := by
  simp [flt, and_assoc]

/-- Two numbers that are not NaN are comparable. -/
theorem fle_of_not_flt {a b : Word} (ha : F32.isNaN a = false) (hb : F32.isNaN b = false)
    (h : flt b a = false) : fle a b = true := by
  simp only [flt, ha, hb, Bool.not_false, Bool.true_and, decide_eq_false_iff_not, not_lt] at h
  exact (fle_iff a b).2 ⟨ha, hb, h⟩

/-- The magnitude a packed word carries. -/
theorem mag_pack (neg : Bool) {m : Nat} (h : m < 2 ^ 31) : F32.mag (F32.pack neg m) = m := by
  cases neg <;> simp [F32.mag, F32.pack] <;> omega

/-- A rounded magnitude is a magnitude of a number or of infinity. -/
theorem roundMag_le (num den : Nat) : roundMag num den ≤ F32.infMag := by
  unfold roundMag
  exact Nat.min_le_right _ _

end Sys2Proof.Machine
end

