-- ==== Sys2Proof/Laws/Memory.lean ====
section
/-! SUPPORT. The laws of a storage array: a read after a write, and that every operation keeps the canonical form
and the array's bounds. -/

namespace Sys2Proof.Machine

@[simp] theorem Memory.read_nil (i : Nat) : Memory.read [] i = silence := rfl

theorem Memory.read_cons (k : Nat) (w : Word) (m : Memory) (i : Nat) :
    Memory.read ((k, w) :: m) i = if k = i then w else Memory.read m i := rfl

/-- A canonical array with a head: its head does not hold silence, its tail is canonical and lies above. -/
theorem Memory.wf_cons (k : Nat) (w : Word) (m : Memory) :
    Memory.wf ((k, w) :: m) = true ↔ w ≠ silence ∧ (∀ c ∈ m, k < c.1) ∧ Memory.wf m = true := by
  induction m generalizing k w with
  | nil => simp [Memory.wf]
  | cons c rest ih =>
    obtain ⟨k', w'⟩ := c
    simp only [Memory.wf, Bool.and_eq_true, bne_iff_ne, ne_eq, decide_eq_true_eq, List.mem_cons,
      forall_eq_or_imp]
    constructor
    · rintro ⟨⟨h1, h2⟩, h3⟩
      exact ⟨h1, ⟨h2, fun c hc => Nat.lt_trans h2 (((ih k' w').1 h3).2.1 c hc)⟩, h3⟩
    · rintro ⟨h1, ⟨h2, _⟩, h3⟩
      exact ⟨⟨h1, h2⟩, h3⟩

/-- Below all its listed slots, an array reads silence. -/
theorem Memory.read_below (m : Memory) (i : Nat) (h : ∀ c ∈ m, i < c.1) : m.read i = silence := by
  induction m with
  | nil => rfl
  | cons c rest ih =>
    obtain ⟨k, w⟩ := c
    have hk : i < k := h (k, w) (by simp)
    rw [Memory.read_cons, if_neg (by omega)]
    exact ih fun c hc => h c (by simp [hc])

/-- Where the slots of a written array come from. -/
theorem Memory.mem_write {m : Memory} {i : Nat} {v : Word} {c : Nat × Word} (h : c ∈ m.write i v) :
    c = (i, v) ∨ c ∈ m := by
  induction m with
  | nil =>
    simp only [Memory.write] at h
    split at h <;> simp_all
  | cons d rest ih =>
    obtain ⟨k, w⟩ := d
    simp only [Memory.write] at h
    split at h
    · split at h <;> simp_all
    · split at h
      · split at h
        · exact .inr (by simp [h])
        · rcases List.mem_cons.1 h with h | h
          · exact .inl h
          · exact .inr (by simp [h])
      · rcases List.mem_cons.1 h with h | h
        · exact .inr (by simp [h])
        · rcases ih h with h | h
          · exact .inl h
          · exact .inr (by simp [h])

/-- A write keeps the canonical form. -/
theorem Memory.wf_write {m : Memory} (i : Nat) (v : Word) (h : m.wf = true) : (m.write i v).wf = true := by
  induction m with
  | nil =>
    simp only [Memory.write]
    split <;> simp_all [Memory.wf]
  | cons c rest ih =>
    obtain ⟨k, w⟩ := c
    obtain ⟨hw, hlt, hrest⟩ := (Memory.wf_cons k w rest).1 h
    simp only [Memory.write]
    split
    · split
      · exact h
      · refine (Memory.wf_cons i v _).2 ⟨‹_›, ?_, h⟩
        intro c hc
        rcases List.mem_cons.1 hc with rfl | hc
        · assumption
        · exact Nat.lt_trans ‹_› (hlt c hc)
    · split
      · split
        · exact hrest
        · subst_vars
          exact (Memory.wf_cons _ v rest).2 ⟨‹_›, hlt, hrest⟩
      · refine (Memory.wf_cons k w _).2 ⟨hw, ?_, ih hrest⟩
        intro c hc
        rcases Memory.mem_write hc with rfl | hc
        · show k < i
          omega
        · exact hlt c hc

/-- A read after a write: the word written in its slot, and every other slot as before. -/
theorem Memory.read_write {m : Memory} (h : m.wf = true) (i j : Nat) (v : Word) :
    (m.write i v).read j = if i = j then v else m.read j := by
  induction m with
  | nil =>
    simp only [Memory.write]
    split
    · split <;> simp_all
    · simp [Memory.read_cons]
  | cons c rest ih =>
    obtain ⟨k, w⟩ := c
    obtain ⟨hw, hlt, hrest⟩ := (Memory.wf_cons k w rest).1 h
    have hbelow : ∀ n, n ≤ k → Memory.read rest n = silence := fun n hn =>
      Memory.read_below rest n fun c hc => Nat.lt_of_le_of_lt hn (hlt c hc)
    simp only [Memory.write]
    split
    · rename_i hik
      split
      · rename_i hv
        by_cases hij : i = j
        · subst hij
          rw [if_pos rfl, Memory.read_cons, if_neg (by omega), hbelow i (by omega), hv]
        · rw [if_neg hij]
      · simp only [Memory.read_cons]
    · split
      · rename_i hik
        subst hik
        split
        · rename_i hv
          by_cases hij : i = j
          · subst hij
            rw [if_pos rfl, hbelow i (Nat.le_refl i), hv]
          · rw [if_neg hij, Memory.read_cons, if_neg hij]
        · simp only [Memory.read_cons]
          split <;> rfl
      · rw [Memory.read_cons, Memory.read_cons, ih hrest]
        by_cases hkj : k = j
        · subst hkj
          rw [if_pos rfl, if_pos rfl, if_neg (by omega)]
        · rw [if_neg hkj, if_neg hkj]

theorem Memory.read_write_same {m : Memory} (h : m.wf = true) (i : Nat) (v : Word) : (m.write i v).read i = v := by
  rw [Memory.read_write h, if_pos rfl]

theorem Memory.read_write_other {m : Memory} (h : m.wf = true) {i j : Nat} (v : Word) (hij : i ≠ j) :
    (m.write i v).read j = m.read j := by
  rw [Memory.read_write h, if_neg hij]

@[simp] theorem Memory.within_nil (len : Nat) : Memory.within len [] = true := rfl

/-- A write inside the array keeps its bounds. -/
theorem Memory.within_write {m : Memory} {len : Nat} (i : Nat) (v : Word) (hi : i < len)
    (h : m.within len = true) : (m.write i v).within len = true := by
  simp only [Memory.within, List.all_eq_true, decide_eq_true_eq] at h ⊢
  intro c hc
  rcases Memory.mem_write hc with rfl | hc
  · exact hi
  · exact h c hc

/-- A run of writes keeps the canonical form. -/
theorem Memory.wf_writeRun (len : Nat) {m : Memory} (i : Nat) (ws : List Word) (h : m.wf = true) :
    (m.writeRun len i ws).wf = true := by
  induction ws generalizing m i with
  | nil => exact h
  | cons w ws ih => exact ih (i + 1) (Memory.wf_write _ _ h)

/-- A run of writes keeps the array's bounds. -/
theorem Memory.within_writeRun {len : Nat} (hlen : 0 < len) {m : Memory} (i : Nat) (ws : List Word)
    (h : m.within len = true) : (m.writeRun len i ws).within len = true := by
  induction ws generalizing m i with
  | nil => exact h
  | cons w ws ih => exact ih (i + 1) (Memory.within_write _ _ (Nat.mod_lt _ hlen) h)

@[simp] theorem Memory.length_readRun (len : Nat) (m : Memory) (i n : Nat) : (m.readRun len i n).length = n := by
  simp [Memory.readRun]

/-- The slot `d` behind a cursor, for a delay inside the array. -/
theorem slotBehind_eq {len cursor d : Nat} (hc : cursor < len) (hd : d < len) :
    slotBehind len cursor d = if d ≤ cursor then cursor - d else cursor + len - d := by
  unfold slotBehind
  split
  · rename_i h
    have hx : ((cursor : Int) - (d : Int)) = ((cursor - d : Nat) : Int) := by omega
    rw [hx, ← Int.natCast_mod, Int.toNat_natCast]
    exact Nat.mod_eq_of_lt (by omega)
  · have hx : ((cursor : Int) - (d : Int)) = ((cursor + len - d : Nat) : Int) - (len : Int) := by omega
    rw [hx, Int.sub_emod_right, ← Int.natCast_mod, Int.toNat_natCast]
    exact Nat.mod_eq_of_lt (by omega)

theorem slotBehind_lt {len : Nat} (cursor d : Nat) (h : 0 < len) : slotBehind len cursor d < len := by
  unfold slotBehind
  have h1 := Int.emod_lt_of_pos ((cursor : Int) - (d : Int)) (show (0 : Int) < (len : Int) by omega)
  have h2 := Int.emod_nonneg ((cursor : Int) - (d : Int)) (show (len : Int) ≠ 0 by omega)
  omega

end Sys2Proof.Machine
end

