-- ==== Sys2Proof/Laws/State.lean ====
section
/-! SUPPORT. The small lemmas of State: one per field and update. An update that goes to one of the three command
ports is described once by `wire`, and leaves every other field as it was. -/

namespace Sys2Proof.Machine

/-! ### setWire -/

@[simp] theorem State.setWire_par (s : State) (p : Port) (w : Wire) : (s.setWire p w).par = s.par := by
  cases p <;> rfl

@[simp] theorem State.setWire_rb (s : State) (p : Port) (w : Wire) : (s.setWire p w).rb = s.rb := by
  cases p <;> rfl

@[simp] theorem State.setWire_fb (s : State) (p : Port) (w : Wire) : (s.setWire p w).fb = s.fb := by
  cases p <;> rfl

@[simp] theorem State.setWire_cfg (s : State) (p : Port) (w : Wire) : (s.setWire p w).cfg = s.cfg := by
  cases p <;> rfl

@[simp] theorem State.setWire_fileExhausted (s : State) (p : Port) (w : Wire) : (s.setWire p w).fileExhausted = s.fileExhausted := by
  cases p <;> rfl

@[simp] theorem State.setWire_file (s : State) (p : Port) (w : Wire) : (s.setWire p w).file = s.file := by
  cases p <;> rfl

@[simp] theorem State.setWire_inFlight (s : State) (p : Port) (w : Wire) : (s.setWire p w).inFlight = s.inFlight := by
  cases p <;> rfl

@[simp] theorem State.setWire_resetIn (s : State) (p : Port) (w : Wire) : (s.setWire p w).resetIn = s.resetIn := by
  cases p <;> rfl

@[simp] theorem State.setWire_grant (s : State) (p : Port) (w : Wire) : (s.setWire p w).grant = s.grant := by
  cases p <;> rfl

@[simp] theorem State.setWire_turn (s : State) (p : Port) (w : Wire) : (s.setWire p w).turn = s.turn := by
  cases p <;> rfl

@[simp] theorem State.setWire_due (s : State) (p : Port) (w : Wire) : (s.setWire p w).due = s.due := by
  cases p <;> rfl

@[simp] theorem State.setWire_draws (s : State) (p : Port) (w : Wire) : (s.setWire p w).draws = s.draws := by
  cases p <;> rfl

@[simp] theorem State.setWire_wire_same (s : State) (p : Port) (w : Wire) : (s.setWire p w).wire p = w := by
  cases p <;> rfl

theorem State.setWire_wire_other (s : State) {p q : Port} (w : Wire) (h : q ≠ p) :
    (s.setWire p w).wire q = s.wire q := by
  cases p <;> cases q <;> first | rfl | exact absurd rfl h

theorem State.setWire_wire (s : State) (p q : Port) (w : Wire) :
    (s.setWire p w).wire q = if q = p then w else s.wire q := by
  split
  · subst_vars; simp
  · exact s.setWire_wire_other w ‹_›

/-- Two states that agree on every field but the command ports' and on those too are equal. -/
theorem State.ext_wire {s t : State} (h : { s with prod := t.prod, rend := t.rend, ctrl := t.ctrl } = t)
    (hw : ∀ p, s.wire p = t.wire p) : s = t := by
  have h1 := hw .prod
  have h2 := hw .rend
  have h3 := hw .ctrl
  simp only [State.wire] at h1 h2 h3
  rw [← h, ← h1, ← h2, ← h3]

/-! ### respond -/

@[simp] theorem State.respond_par (s : State) (st : Status) (d : List Word) : (s.respond st d).par = s.par :=
  s.setWire_par _ _

@[simp] theorem State.respond_rb (s : State) (st : Status) (d : List Word) : (s.respond st d).rb = s.rb :=
  s.setWire_rb _ _

@[simp] theorem State.respond_fb (s : State) (st : Status) (d : List Word) : (s.respond st d).fb = s.fb :=
  s.setWire_fb _ _

@[simp] theorem State.respond_cfg (s : State) (st : Status) (d : List Word) : (s.respond st d).cfg = s.cfg :=
  s.setWire_cfg _ _

@[simp] theorem State.respond_fileExhausted (s : State) (st : Status) (d : List Word) : (s.respond st d).fileExhausted = s.fileExhausted :=
  s.setWire_fileExhausted _ _

@[simp] theorem State.respond_file (s : State) (st : Status) (d : List Word) : (s.respond st d).file = s.file :=
  s.setWire_file _ _

@[simp] theorem State.respond_inFlight (s : State) (st : Status) (d : List Word) : (s.respond st d).inFlight = s.inFlight :=
  s.setWire_inFlight _ _

@[simp] theorem State.respond_resetIn (s : State) (st : Status) (d : List Word) : (s.respond st d).resetIn = s.resetIn :=
  s.setWire_resetIn _ _

@[simp] theorem State.respond_grant (s : State) (st : Status) (d : List Word) : (s.respond st d).grant = s.grant :=
  s.setWire_grant _ _

@[simp] theorem State.respond_turn (s : State) (st : Status) (d : List Word) : (s.respond st d).turn = s.turn :=
  s.setWire_turn _ _

@[simp] theorem State.respond_due (s : State) (st : Status) (d : List Word) : (s.respond st d).due = s.due :=
  s.setWire_due _ _

@[simp] theorem State.respond_draws (s : State) (st : Status) (d : List Word) : (s.respond st d).draws = s.draws :=
  s.setWire_draws _ _

/-- Everything `respond` does: the status word and the data go out on the granted port (R71). -/
theorem State.respond_wire (s : State) (st : Status) (d : List Word) (q : Port) :
    (s.respond st d).wire q
      = if q = s.grant then { s.wire q with tx := (s.wire q).tx ++ st.word :: d } else s.wire q := by
  rw [State.respond, State.setWire_wire]
  split
  · subst_vars; rfl
  · rfl

/-! ### takeFrom -/

@[simp] theorem State.takeFrom_par (s : State) (p : Port) (r : List Word) : (s.takeFrom p r).par = s.par :=
  s.setWire_par _ _

@[simp] theorem State.takeFrom_rb (s : State) (p : Port) (r : List Word) : (s.takeFrom p r).rb = s.rb :=
  s.setWire_rb _ _

@[simp] theorem State.takeFrom_fb (s : State) (p : Port) (r : List Word) : (s.takeFrom p r).fb = s.fb :=
  s.setWire_fb _ _

@[simp] theorem State.takeFrom_cfg (s : State) (p : Port) (r : List Word) : (s.takeFrom p r).cfg = s.cfg :=
  s.setWire_cfg _ _

@[simp] theorem State.takeFrom_fileExhausted (s : State) (p : Port) (r : List Word) : (s.takeFrom p r).fileExhausted = s.fileExhausted :=
  s.setWire_fileExhausted _ _

@[simp] theorem State.takeFrom_file (s : State) (p : Port) (r : List Word) : (s.takeFrom p r).file = s.file :=
  s.setWire_file _ _

@[simp] theorem State.takeFrom_inFlight (s : State) (p : Port) (r : List Word) : (s.takeFrom p r).inFlight = s.inFlight :=
  s.setWire_inFlight _ _

@[simp] theorem State.takeFrom_resetIn (s : State) (p : Port) (r : List Word) : (s.takeFrom p r).resetIn = s.resetIn :=
  s.setWire_resetIn _ _

@[simp] theorem State.takeFrom_draws (s : State) (p : Port) (r : List Word) : (s.takeFrom p r).draws = s.draws :=
  s.setWire_draws _ _

@[simp] theorem State.takeFrom_grant (s : State) (p : Port) (r : List Word) : (s.takeFrom p r).grant = p := rfl

@[simp] theorem State.takeFrom_turn (s : State) (p : Port) (r : List Word) : (s.takeFrom p r).turn = s.turn + 1 := rfl

@[simp] theorem State.takeFrom_due (s : State) (p : Port) (r : List Word) : (s.takeFrom p r).due = s.due :=
  s.setWire_due _ _

theorem State.takeFrom_wire (s : State) (p q : Port) (r : List Word) :
    (s.takeFrom p r).wire q = if q = p then { s.wire q with rx := r } else s.wire q := by
  cases p <;> cases q <;> rfl

/-! ### The outside world's moves -/

@[simp] theorem State.place_par (s : State) (p : Port) (frame : List Word) : (s.place p frame).par = s.par :=
  s.setWire_par _ _

@[simp] theorem State.place_rb (s : State) (p : Port) (frame : List Word) : (s.place p frame).rb = s.rb :=
  s.setWire_rb _ _

@[simp] theorem State.place_fb (s : State) (p : Port) (frame : List Word) : (s.place p frame).fb = s.fb :=
  s.setWire_fb _ _

@[simp] theorem State.place_cfg (s : State) (p : Port) (frame : List Word) : (s.place p frame).cfg = s.cfg :=
  s.setWire_cfg _ _

@[simp] theorem State.place_fileExhausted (s : State) (p : Port) (frame : List Word) : (s.place p frame).fileExhausted = s.fileExhausted :=
  s.setWire_fileExhausted _ _

@[simp] theorem State.place_file (s : State) (p : Port) (frame : List Word) : (s.place p frame).file = s.file :=
  s.setWire_file _ _

@[simp] theorem State.place_inFlight (s : State) (p : Port) (frame : List Word) : (s.place p frame).inFlight = s.inFlight :=
  s.setWire_inFlight _ _

@[simp] theorem State.place_resetIn (s : State) (p : Port) (frame : List Word) : (s.place p frame).resetIn = s.resetIn :=
  s.setWire_resetIn _ _

@[simp] theorem State.place_grant (s : State) (p : Port) (frame : List Word) : (s.place p frame).grant = s.grant :=
  s.setWire_grant _ _

@[simp] theorem State.place_turn (s : State) (p : Port) (frame : List Word) : (s.place p frame).turn = s.turn :=
  s.setWire_turn _ _

@[simp] theorem State.place_draws (s : State) (p : Port) (frame : List Word) : (s.place p frame).draws = s.draws :=
  s.setWire_draws _ _

@[simp] theorem State.place_due (s : State) (p : Port) (frame : List Word) :
    (s.place p frame).due = s.due.set p (s.turn + Config.arbiter p s.turn) := rfl

theorem State.place_wire (s : State) (p q : Port) (frame : List Word) :
    (s.place p frame).wire q = if q = p then { s.wire q with rx := frame } else s.wire q := by
  cases p <;> cases q <;> rfl

@[simp] theorem Turns.get_set (d : Turns) (p q : Port) (n : Nat) :
    (d.set p n).get q = if q = p then n else d.get q := by
  cases p <;> cases q <;> rfl

/-- Everything `send` can do (R47, R52, R55). -/
theorem State.send_cases (s : State) (p : Port) (frame : List Word) :
    (s.free p = true ∧ wholeFrame frame = true ∧ s.send p frame = s.place p frame) ∨
    ((s.free p = false ∨ wholeFrame frame = false) ∧ s.send p frame = s) := by
  unfold State.send
  cases s.free p <;> cases wholeFrame frame <;> simp

theorem State.free_iff (s : State) (p : Port) :
    s.free p = true ↔ (s.wire p).rx = [] ∧ (s.inFlight ≠ none → s.grant ≠ p) := by
  cases h : s.inFlight <;> simp [State.free, h]

@[simp] theorem State.send_par (s : State) (p : Port) (frame : List Word) : (s.send p frame).par = s.par := by
  rcases s.send_cases p frame with ⟨_, _, h⟩ | ⟨_, h⟩ <;> simp [h]

@[simp] theorem State.send_rb (s : State) (p : Port) (frame : List Word) : (s.send p frame).rb = s.rb := by
  rcases s.send_cases p frame with ⟨_, _, h⟩ | ⟨_, h⟩ <;> simp [h]

@[simp] theorem State.send_fb (s : State) (p : Port) (frame : List Word) : (s.send p frame).fb = s.fb := by
  rcases s.send_cases p frame with ⟨_, _, h⟩ | ⟨_, h⟩ <;> simp [h]

@[simp] theorem State.send_cfg (s : State) (p : Port) (frame : List Word) : (s.send p frame).cfg = s.cfg := by
  rcases s.send_cases p frame with ⟨_, _, h⟩ | ⟨_, h⟩ <;> simp [h]

@[simp] theorem State.send_fileExhausted (s : State) (p : Port) (frame : List Word) : (s.send p frame).fileExhausted = s.fileExhausted := by
  rcases s.send_cases p frame with ⟨_, _, h⟩ | ⟨_, h⟩ <;> simp [h]

@[simp] theorem State.send_file (s : State) (p : Port) (frame : List Word) : (s.send p frame).file = s.file := by
  rcases s.send_cases p frame with ⟨_, _, h⟩ | ⟨_, h⟩ <;> simp [h]

@[simp] theorem State.send_inFlight (s : State) (p : Port) (frame : List Word) : (s.send p frame).inFlight = s.inFlight := by
  rcases s.send_cases p frame with ⟨_, _, h⟩ | ⟨_, h⟩ <;> simp [h]

@[simp] theorem State.send_resetIn (s : State) (p : Port) (frame : List Word) : (s.send p frame).resetIn = s.resetIn := by
  rcases s.send_cases p frame with ⟨_, _, h⟩ | ⟨_, h⟩ <;> simp [h]

@[simp] theorem State.send_grant (s : State) (p : Port) (frame : List Word) : (s.send p frame).grant = s.grant := by
  rcases s.send_cases p frame with ⟨_, _, h⟩ | ⟨_, h⟩ <;> simp [h]

@[simp] theorem State.send_turn (s : State) (p : Port) (frame : List Word) : (s.send p frame).turn = s.turn := by
  rcases s.send_cases p frame with ⟨_, _, h⟩ | ⟨_, h⟩ <;> simp [h]

@[simp] theorem State.send_draws (s : State) (p : Port) (frame : List Word) : (s.send p frame).draws = s.draws := by
  rcases s.send_cases p frame with ⟨_, _, h⟩ | ⟨_, h⟩ <;> simp [h]

@[simp] theorem State.fileAnswer_par (s : State) (ws : List Word) : (s.fileAnswer ws).par = s.par := rfl

@[simp] theorem State.fileAnswer_rb (s : State) (ws : List Word) : (s.fileAnswer ws).rb = s.rb := rfl

@[simp] theorem State.fileAnswer_fb (s : State) (ws : List Word) : (s.fileAnswer ws).fb = s.fb := rfl

@[simp] theorem State.fileAnswer_cfg (s : State) (ws : List Word) : (s.fileAnswer ws).cfg = s.cfg := rfl

@[simp] theorem State.fileAnswer_fileExhausted (s : State) (ws : List Word) : (s.fileAnswer ws).fileExhausted = s.fileExhausted := rfl

@[simp] theorem State.fileAnswer_prod (s : State) (ws : List Word) : (s.fileAnswer ws).prod = s.prod := rfl

@[simp] theorem State.fileAnswer_rend (s : State) (ws : List Word) : (s.fileAnswer ws).rend = s.rend := rfl

@[simp] theorem State.fileAnswer_ctrl (s : State) (ws : List Word) : (s.fileAnswer ws).ctrl = s.ctrl := rfl

@[simp] theorem State.fileAnswer_inFlight (s : State) (ws : List Word) : (s.fileAnswer ws).inFlight = s.inFlight := rfl

@[simp] theorem State.fileAnswer_resetIn (s : State) (ws : List Word) : (s.fileAnswer ws).resetIn = s.resetIn := rfl

@[simp] theorem State.fileAnswer_grant (s : State) (ws : List Word) : (s.fileAnswer ws).grant = s.grant := rfl

@[simp] theorem State.fileAnswer_turn (s : State) (ws : List Word) : (s.fileAnswer ws).turn = s.turn := rfl

@[simp] theorem State.fileAnswer_due (s : State) (ws : List Word) : (s.fileAnswer ws).due = s.due := rfl

@[simp] theorem State.fileAnswer_draws (s : State) (ws : List Word) : (s.fileAnswer ws).draws = s.draws := rfl

@[simp] theorem State.assertReset_par (s : State) : s.assertReset.par = s.par := rfl

@[simp] theorem State.assertReset_rb (s : State) : s.assertReset.rb = s.rb := rfl

@[simp] theorem State.assertReset_fb (s : State) : s.assertReset.fb = s.fb := rfl

@[simp] theorem State.assertReset_cfg (s : State) : s.assertReset.cfg = s.cfg := rfl

@[simp] theorem State.assertReset_fileExhausted (s : State) : s.assertReset.fileExhausted = s.fileExhausted := rfl

@[simp] theorem State.assertReset_prod (s : State) : s.assertReset.prod = s.prod := rfl

@[simp] theorem State.assertReset_rend (s : State) : s.assertReset.rend = s.rend := rfl

@[simp] theorem State.assertReset_ctrl (s : State) : s.assertReset.ctrl = s.ctrl := rfl

@[simp] theorem State.assertReset_file (s : State) : s.assertReset.file = s.file := rfl

@[simp] theorem State.assertReset_inFlight (s : State) : s.assertReset.inFlight = s.inFlight := rfl

@[simp] theorem State.assertReset_grant (s : State) : s.assertReset.grant = s.grant := rfl

@[simp] theorem State.assertReset_turn (s : State) : s.assertReset.turn = s.turn := rfl

@[simp] theorem State.assertReset_due (s : State) : s.assertReset.due = s.due := rfl

@[simp] theorem State.assertReset_draws (s : State) : s.assertReset.draws = s.draws := rfl

/-! ### applyReset -/

@[simp] theorem State.applyReset_par (s : State) : s.applyReset.par = s.par := rfl

@[simp] theorem State.applyReset_rb (s : State) : s.applyReset.rb = Ring.reset := rfl

@[simp] theorem State.applyReset_fb (s : State) : s.applyReset.fb = Filters.reset s.par.K := rfl

@[simp] theorem State.applyReset_cfg (s : State) : s.applyReset.cfg = Cfg.reset := rfl

@[simp] theorem State.applyReset_fileExhausted (s : State) : s.applyReset.fileExhausted = false := rfl

@[simp] theorem State.applyReset_file (s : State) : s.applyReset.file = s.file := rfl

@[simp] theorem State.applyReset_inFlight (s : State) : s.applyReset.inFlight = none := rfl

@[simp] theorem State.applyReset_resetIn (s : State) : s.applyReset.resetIn = false := rfl

@[simp] theorem State.applyReset_grant (s : State) : s.applyReset.grant = s.grant := rfl

@[simp] theorem State.applyReset_turn (s : State) : s.applyReset.turn = s.turn := rfl

@[simp] theorem State.applyReset_due (s : State) : s.applyReset.due = s.due := rfl

@[simp] theorem State.applyReset_draws (s : State) : s.applyReset.draws = s.draws := rfl

@[simp] theorem State.applyReset_wire (s : State) (p : Port) :
    s.applyReset.wire p = { rx := [], tx := (s.wire p).tx } := by
  cases p <;> rfl

/-! ### commit, sendPull -/

@[simp] theorem State.commit_par (s : State) (c : Cfg) (st : Status) : (s.commit c st).par = s.par := by
  simp [State.commit]

@[simp] theorem State.commit_rb (s : State) (c : Cfg) (st : Status) : (s.commit c st).rb = s.rb := by
  simp [State.commit]

@[simp] theorem State.commit_fb (s : State) (c : Cfg) (st : Status) : (s.commit c st).fb = s.fb := by
  simp [State.commit]

@[simp] theorem State.commit_cfg (s : State) (c : Cfg) (st : Status) : (s.commit c st).cfg = c := by
  simp [State.commit]

@[simp] theorem State.commit_fileExhausted (s : State) (c : Cfg) (st : Status) : (s.commit c st).fileExhausted = s.fileExhausted := by
  simp [State.commit]

@[simp] theorem State.commit_file (s : State) (c : Cfg) (st : Status) : (s.commit c st).file = s.file := by
  simp [State.commit]

@[simp] theorem State.commit_inFlight (s : State) (c : Cfg) (st : Status) : (s.commit c st).inFlight = s.inFlight := by
  simp [State.commit]

@[simp] theorem State.commit_resetIn (s : State) (c : Cfg) (st : Status) : (s.commit c st).resetIn = s.resetIn := by
  simp [State.commit]

@[simp] theorem State.commit_grant (s : State) (c : Cfg) (st : Status) : (s.commit c st).grant = s.grant := by
  simp [State.commit]

@[simp] theorem State.commit_turn (s : State) (c : Cfg) (st : Status) : (s.commit c st).turn = s.turn := by
  simp [State.commit]

@[simp] theorem State.commit_due (s : State) (c : Cfg) (st : Status) : (s.commit c st).due = s.due := by
  simp [State.commit]

@[simp] theorem State.commit_draws (s : State) (c : Cfg) (st : Status) : (s.commit c st).draws = s.draws := by
  simp [State.commit]

@[simp] theorem sendPull_par (n : Count) (s : State) : (sendPull n s).par = s.par := rfl

@[simp] theorem sendPull_rb (n : Count) (s : State) : (sendPull n s).rb = s.rb := rfl

@[simp] theorem sendPull_fb (n : Count) (s : State) : (sendPull n s).fb = s.fb := rfl

@[simp] theorem sendPull_cfg (n : Count) (s : State) : (sendPull n s).cfg = s.cfg := rfl

@[simp] theorem sendPull_fileExhausted (n : Count) (s : State) : (sendPull n s).fileExhausted = s.fileExhausted := rfl

@[simp] theorem sendPull_prod (n : Count) (s : State) : (sendPull n s).prod = s.prod := rfl

@[simp] theorem sendPull_rend (n : Count) (s : State) : (sendPull n s).rend = s.rend := rfl

@[simp] theorem sendPull_ctrl (n : Count) (s : State) : (sendPull n s).ctrl = s.ctrl := rfl

@[simp] theorem sendPull_inFlight (n : Count) (s : State) : (sendPull n s).inFlight = s.inFlight := rfl

@[simp] theorem sendPull_resetIn (n : Count) (s : State) : (sendPull n s).resetIn = s.resetIn := rfl

@[simp] theorem sendPull_grant (n : Count) (s : State) : (sendPull n s).grant = s.grant := rfl

@[simp] theorem sendPull_turn (n : Count) (s : State) : (sendPull n s).turn = s.turn := rfl

@[simp] theorem sendPull_due (n : Count) (s : State) : (sendPull n s).due = s.due := rfl

@[simp] theorem sendPull_draws (n : Count) (s : State) : (sendPull n s).draws = s.draws := rfl

@[simp] theorem sendPull_file (n : Count) (s : State) :
    (sendPull n s).file = { s.file with tx := s.file.tx ++ [n.setWidth 32] } := rfl

end Sys2Proof.Machine
end

