-- ==== Sys2Proof/Laws/Meaning.lean ====
section
/-! SUPPORT. One lemma for each operation that the meanings share, saying everything it can do. -/

namespace Sys2Proof.Machine

/-- Everything RB_READ can do (R80). -/
theorem dequeue_cases (r : Ring) (C n : Nat) :
    (r.count < n ∧ r.dequeue C n = none) ∨
    (n ≤ r.count ∧ r.dequeue C n
      = some (r.store.readRun C r.tail n, { r with tail := (r.tail + n) % C, count := r.count - n })) := by
  unfold Ring.dequeue
  split
  · exact .inl ⟨‹_›, rfl⟩
  · exact .inr ⟨by omega, rfl⟩

/-- Everything RB_WRITE can do (R79). -/
theorem execRbWrite_cases (samples : List Word) (s : State) :
    (s.par.C < s.rb.count + samples.length ∧ execRbWrite samples s = .next (s.respond .bufferFull [])) ∨
    (s.rb.count + samples.length ≤ s.par.C ∧
      execRbWrite samples s = .next ({ s with rb := s.rb.enqueue s.par.C samples }.respond .ok [])) := by
  unfold execRbWrite
  split
  · exact .inl ⟨‹_›, rfl⟩
  · exact .inr ⟨by omega, rfl⟩

/-- Everything a RENDER in RING mode can do (R105). -/
theorem renderRing_cases (n : Count) (snap : Snapshot) (s : State) :
    (s.rb.count < n.toNat ∧ renderRing n snap s = s.respond .bufferUnderrun (silentBlock n.toNat)) ∨
    (n.toNat ≤ s.rb.count ∧ renderRing n snap s = respondProcessed
      { s with rb := { s.rb with tail := (s.rb.tail + n.toNat) % s.par.C, count := s.rb.count - n.toNat } }
      snap .ok (s.rb.store.readRun s.par.C s.rb.tail n.toNat)) := by
  unfold renderRing
  rcases dequeue_cases s.rb s.par.C n.toNat with ⟨h, e⟩ | ⟨h, e⟩
  · exact .inl ⟨h, by rw [e]⟩
  · exact .inr ⟨h, by rw [e]⟩

/-- Everything a RENDER that has sent its pull can do (R62, R106). -/
theorem awaitAnswer_cases (r : InFlight) (s : State) :
    (receiveAnswer r.n s.file.rx = none ∧ awaitAnswer r s = { s with inFlight := some r }) ∨
    (∃ a, receiveAnswer r.n s.file.rx = some a ∧ awaitAnswer r s
      = finishFile r a { s with file := { s.file with rx := a.rest }, inFlight := none }) := by
  unfold awaitAnswer
  cases h : receiveAnswer r.n s.file.rx with
  | none => exact .inl ⟨rfl, rfl⟩
  | some a => exact .inr ⟨a, rfl, rfl⟩

/-- What a whole answer holds (R107). -/
theorem receiveAnswer_spec {n : Count} {ws : List Word} {a : Answer} (h : receiveAnswer n ws = some a) :
    ∃ r rest, ws = r :: rest ∧ a.samples.length = min (countOf r).toNat n.toNat ∧ a.eos = r.msb
      ∧ rest = a.samples ++ a.rest := by
  cases ws with
  | nil => simp [receiveAnswer] at h
  | cons r rest =>
    simp only [receiveAnswer] at h
    split at h
    · cases h
      refine ⟨r, rest, rfl, ?_, rfl, ?_⟩
      · simp only [List.length_take]
        omega
      · simp
    · simp at h

/-- Everything a RENDER in FILE mode can do (R106). -/
theorem renderFile_cases (n : Count) (snap : Snapshot) (s : State) :
    (s.fileExhausted = true ∧ renderFile n snap s = s.respond .sourceExhausted (silentBlock n.toNat)) ∨
    (s.fileExhausted = false ∧ n = 0#24 ∧ renderFile n snap s = s.respond .ok []) ∨
    (s.fileExhausted = false ∧ n ≠ 0#24 ∧
      renderFile n snap s = awaitAnswer { n := n, snap := snap } (sendPull n s)) := by
  unfold renderFile
  cases hx : s.fileExhausted
  · by_cases hn : n = 0#24
    · exact .inr (.inl ⟨rfl, hn, by simp [hn]⟩)
    · exact .inr (.inr ⟨rfl, hn, by simp [hn]⟩)
  · exact .inl ⟨rfl, by simp⟩

/-- A RENDER chooses by its snapshot (R99, R103). -/
theorem execRender_cases (n : Count) (s : State) :
    (s.cfg.sourceMode = .ring ∧ execRender n s
      = .next (renderRing n (takeSnapshot s.par s.cfg s.draws).1
          { s with draws := (takeSnapshot s.par s.cfg s.draws).2 })) ∨
    (s.cfg.sourceMode = .file ∧ execRender n s
      = .next (renderFile n (takeSnapshot s.par s.cfg s.draws).1
          { s with draws := (takeSnapshot s.par s.cfg s.draws).2 })) := by
  have hc : (takeSnapshot s.par s.cfg s.draws).1.cfg = s.cfg := rfl
  unfold execRender
  cases h : s.cfg.sourceMode
  · exact .inl ⟨rfl, by simp [hc, h]⟩
  · exact .inr ⟨rfl, by simp [hc, h]⟩

/-- PROCESS_BLOCK gives as many samples as it takes (R100, R109). -/
@[simp] theorem length_processBlock (p : Params) (snap : Snapshot) (xs : List Word) (f : Filters) (draws : Nat) :
    (processBlock p snap xs f draws).out.length = xs.length := by
  induction xs generalizing f draws with
  | nil => rfl
  | cons x xs ih => simp [processBlock, ih]

/-- PROCESS_BLOCK over one block and then another is PROCESS_BLOCK over both (R100). -/
theorem processBlock_append (p : Params) (snap : Snapshot) (xs ys : List Word) (f : Filters) (draws : Nat) :
    processBlock p snap (xs ++ ys) f draws
      = let a := processBlock p snap xs f draws
        let b := processBlock p snap ys a.fb a.draws
        { b with out := a.out ++ b.out } := by
  induction xs generalizing f draws with
  | nil => rfl
  | cons x xs ih => simp [processBlock, ih]

/-- Every command goes on: no meaning ends in a fault or a refusal (R120). -/
theorem exec_next (i : Instr) (s : State) : ∃ t, exec i s = .next t := by
  cases i with
  | rbWrite samples =>
    rcases execRbWrite_cases samples s with ⟨_, h⟩ | ⟨_, h⟩ <;> exact ⟨_, h⟩
  | render n =>
    rcases execRender_cases n s with ⟨_, h⟩ | ⟨_, h⟩ <;> exact ⟨_, h⟩
  | _ => exact ⟨_, rfl⟩

end Sys2Proof.Machine
end

