-- ==== Sys2Proof/Laws/PerInstr.lean ====
section
/-! SUPPORT. A law for each command, as syntax: its frame has the length that its own command word fixes (R70), and
the number of data words of its response is the one R71 gives. -/

namespace Sys2Proof.Laws

/-- How many data words the response of a command carries (R71). -/
def dataWordsOf : Instr → Nat
  | .render n => n.toNat
  | .nop => 0
  | .rbWrite _ => 0
  | .cfgWriteEchoEn _ => 0
  | .cfgWriteDelayMs _ => 0
  | .cfgWriteLpAlpha _ => 0
  | .cfgWriteDistEn _ => 0
  | .cfgWriteDistGain _ => 0
  | .cfgWriteReverbEn _ => 0
  | .cfgWriteSourceMode _ => 0
  | .cfgReadEchoEn => 1
  | .cfgReadDelayMs => 1
  | .cfgReadLpAlpha => 1
  | .cfgReadDistEn => 1
  | .cfgReadDistGain => 1
  | .cfgReadReverbEn => 1
  | .cfgReadSourceMode => 1
  | .cfgReadRbCount => 1
  | .cfgReadRbHead => 1
  | .cfgReadRbTail => 1
  | .cfgReadSrcStatus => 1
  | .cfgReadParamC => 1
  | .cfgReadParamM => 1
  | .cfgReadParamK => 1
  | .cfgReadParamSr => 1

/-- The frame of a well-formed command is its command word and as many payload words as that word fixes (R70), and
its word fixes the length of its response (R71). -/
def FrameLength.Statement (i : Instr) : Prop :=
  i.wellFormed = true → ∃ w payload, encode i = w :: payload ∧ payload.length = payloadWords w
    ∧ responseWords w = dataWordsOf i

theorem FrameLength.nop : FrameLength.Statement .nop :=
  fun _ => ⟨_, _, rfl, by simp [payloadWords], by simp [responseWords, dataWordsOf]⟩

theorem FrameLength.rbWrite (samples : List Word) : FrameLength.Statement (.rbWrite samples) := by
  intro h
  have hlt : samples.length < 2 ^ 24 := of_decide_eq_true h
  refine ⟨_, _, rfl, ?_, ?_⟩
  · simp only [payloadWords, opcOf_commandWord, countOf_commandWord]
    exact (Nat.mod_eq_of_lt hlt).symm
  · simp [responseWords, dataWordsOf]

theorem FrameLength.render (n : Count) : FrameLength.Statement (.render n) :=
  fun _ => ⟨_, _, rfl, by simp [payloadWords], by simp [responseWords, dataWordsOf]⟩

theorem FrameLength.cfgWriteEchoEn (v : Word) : FrameLength.Statement (.cfgWriteEchoEn v) :=
  fun _ => ⟨_, _, rfl, by simp [payloadWords], by simp [responseWords, dataWordsOf]⟩

theorem FrameLength.cfgWriteDelayMs (v : Word) : FrameLength.Statement (.cfgWriteDelayMs v) :=
  fun _ => ⟨_, _, rfl, by simp [payloadWords], by simp [responseWords, dataWordsOf]⟩

theorem FrameLength.cfgWriteLpAlpha (v : Word) : FrameLength.Statement (.cfgWriteLpAlpha v) :=
  fun _ => ⟨_, _, rfl, by simp [payloadWords], by simp [responseWords, dataWordsOf]⟩

theorem FrameLength.cfgWriteDistEn (v : Word) : FrameLength.Statement (.cfgWriteDistEn v) :=
  fun _ => ⟨_, _, rfl, by simp [payloadWords], by simp [responseWords, dataWordsOf]⟩

theorem FrameLength.cfgWriteDistGain (v : Word) : FrameLength.Statement (.cfgWriteDistGain v) :=
  fun _ => ⟨_, _, rfl, by simp [payloadWords], by simp [responseWords, dataWordsOf]⟩

theorem FrameLength.cfgWriteReverbEn (v : Word) : FrameLength.Statement (.cfgWriteReverbEn v) :=
  fun _ => ⟨_, _, rfl, by simp [payloadWords], by simp [responseWords, dataWordsOf]⟩

theorem FrameLength.cfgWriteSourceMode (v : Word) : FrameLength.Statement (.cfgWriteSourceMode v) :=
  fun _ => ⟨_, _, rfl, by simp [payloadWords], by simp [responseWords, dataWordsOf]⟩

theorem FrameLength.cfgReadEchoEn : FrameLength.Statement .cfgReadEchoEn :=
  fun _ => ⟨_, _, rfl, by simp [payloadWords], by simp [responseWords, dataWordsOf]⟩

theorem FrameLength.cfgReadDelayMs : FrameLength.Statement .cfgReadDelayMs :=
  fun _ => ⟨_, _, rfl, by simp [payloadWords], by simp [responseWords, dataWordsOf]⟩

theorem FrameLength.cfgReadLpAlpha : FrameLength.Statement .cfgReadLpAlpha :=
  fun _ => ⟨_, _, rfl, by simp [payloadWords], by simp [responseWords, dataWordsOf]⟩

theorem FrameLength.cfgReadDistEn : FrameLength.Statement .cfgReadDistEn :=
  fun _ => ⟨_, _, rfl, by simp [payloadWords], by simp [responseWords, dataWordsOf]⟩

theorem FrameLength.cfgReadDistGain : FrameLength.Statement .cfgReadDistGain :=
  fun _ => ⟨_, _, rfl, by simp [payloadWords], by simp [responseWords, dataWordsOf]⟩

theorem FrameLength.cfgReadReverbEn : FrameLength.Statement .cfgReadReverbEn :=
  fun _ => ⟨_, _, rfl, by simp [payloadWords], by simp [responseWords, dataWordsOf]⟩

theorem FrameLength.cfgReadSourceMode : FrameLength.Statement .cfgReadSourceMode :=
  fun _ => ⟨_, _, rfl, by simp [payloadWords], by simp [responseWords, dataWordsOf]⟩

theorem FrameLength.cfgReadRbCount : FrameLength.Statement .cfgReadRbCount :=
  fun _ => ⟨_, _, rfl, by simp [payloadWords], by simp [responseWords, dataWordsOf]⟩

theorem FrameLength.cfgReadRbHead : FrameLength.Statement .cfgReadRbHead :=
  fun _ => ⟨_, _, rfl, by simp [payloadWords], by simp [responseWords, dataWordsOf]⟩

theorem FrameLength.cfgReadRbTail : FrameLength.Statement .cfgReadRbTail :=
  fun _ => ⟨_, _, rfl, by simp [payloadWords], by simp [responseWords, dataWordsOf]⟩

theorem FrameLength.cfgReadSrcStatus : FrameLength.Statement .cfgReadSrcStatus :=
  fun _ => ⟨_, _, rfl, by simp [payloadWords], by simp [responseWords, dataWordsOf]⟩

theorem FrameLength.cfgReadParamC : FrameLength.Statement .cfgReadParamC :=
  fun _ => ⟨_, _, rfl, by simp [payloadWords], by simp [responseWords, dataWordsOf]⟩

theorem FrameLength.cfgReadParamM : FrameLength.Statement .cfgReadParamM :=
  fun _ => ⟨_, _, rfl, by simp [payloadWords], by simp [responseWords, dataWordsOf]⟩

theorem FrameLength.cfgReadParamK : FrameLength.Statement .cfgReadParamK :=
  fun _ => ⟨_, _, rfl, by simp [payloadWords], by simp [responseWords, dataWordsOf]⟩

theorem FrameLength.cfgReadParamSr : FrameLength.Statement .cfgReadParamSr :=
  fun _ => ⟨_, _, rfl, by simp [payloadWords], by simp [responseWords, dataWordsOf]⟩

end Sys2Proof.Laws
end

