-- ==== Sys2Proof/Laws/Step.lean ====
section
/-! SUPPORT. Everything a step can do, and the storage laws at reset. -/

namespace Sys2Proof.Machine

/-- Everything `fetchFrom` can do. -/
theorem fetchFrom_cases (s : State) (p : Port) :
    (nextFrame (s.wire p).rx = none ∧ fetchFrom s p = .idle) ∨
    (∃ frame rest i, nextFrame (s.wire p).rx = some (frame, rest) ∧ decode p frame = .command i
      ∧ fetchFrom s p = .command i (s.takeFrom p rest)) ∨
    (∃ frame rest why, nextFrame (s.wire p).rx = some (frame, rest) ∧ decode p frame = .illegal why
      ∧ fetchFrom s p = .illegal (frame.headD 0#32) (s.takeFrom p rest)) := by
  unfold fetchFrom
  cases hn : nextFrame (s.wire p).rx with
  | none => exact .inl ⟨rfl, rfl⟩
  | some fr =>
    obtain ⟨frame, rest⟩ := fr
    cases hd : decode p frame with
    | command i => exact .inr (.inl ⟨frame, rest, i, rfl, hd, by simp [hd]⟩)
    | illegal why => exact .inr (.inr ⟨frame, rest, why, rfl, hd, by simp [hd]⟩)

/-- Everything a step can do (R60, R62, R130, R132). -/
theorem step_cases (s : State) :
    (s.intact = false ∧ step s = .fault .invariantBroken) ∨
    (s.intact = true ∧ s.resetIn = true ∧ step s = .next s.applyReset) ∨
    (s.resetIn = false ∧ s.intact = true ∧ ∃ r, s.inFlight = some r ∧ step s = .next (awaitAnswer r s)) ∨
    (s.resetIn = false ∧ s.intact = true ∧ s.inFlight = none
      ∧ (∀ p, s.pick = some p → nextFrame (s.wire p).rx = none) ∧ step s = .next s) ∨
    (s.resetIn = false ∧ s.intact = true ∧ s.inFlight = none ∧
      ∃ p frame rest i, s.pick = some p ∧ nextFrame (s.wire p).rx = some (frame, rest)
        ∧ decode p frame = .command i ∧ step s = exec i (s.takeFrom p rest)) ∨
    (s.resetIn = false ∧ s.intact = true ∧ s.inFlight = none ∧
      ∃ p frame rest why, s.pick = some p ∧ nextFrame (s.wire p).rx = some (frame, rest)
        ∧ decode p frame = .illegal why
        ∧ step s = .next ((s.takeFrom p rest).refuseCommand (frame.headD 0#32))) := by
  unfold step fetch
  cases hi : s.intact
  · exact .inl ⟨rfl, by simp⟩
  · cases hr : s.resetIn
    · cases hf : s.inFlight with
      | some r => exact .inr (.inr (.inl ⟨rfl, rfl, r, rfl, by simp⟩))
      | none =>
        cases hp : s.pick with
        | none => exact .inr (.inr (.inr (.inl ⟨rfl, rfl, rfl, by simp, by simp⟩)))
        | some p =>
          rcases fetchFrom_cases s p with ⟨h, e⟩ | ⟨f, rest, i, h1, h2, e⟩ | ⟨f, rest, why, h1, h2, e⟩
          · exact .inr (.inr (.inr (.inl ⟨rfl, rfl, rfl, by simpa using h, by simp [e]⟩)))
          · exact .inr (.inr (.inr (.inr (.inl ⟨rfl, rfl, rfl, p, f, rest, i, rfl, h1, h2, by simp [e]⟩))))
          · exact .inr (.inr (.inr (.inr (.inr ⟨rfl, rfl, rfl, p, f, rest, why, rfl, h1, h2, by simp [e]⟩))))
    · exact .inr (.inl ⟨rfl, rfl, by simp⟩)

/-- The storage of a machine right after reset is canonical. -/
theorem storage_resetWith (p : Params) :
    (State.resetWith p).rb.store.wf = true ∧ (State.resetWith p).fb.eh.wf = true
      ∧ ∀ h ∈ (State.resetWith p).fb.rh, h.wf = true := by
  refine ⟨rfl, rfl, fun h hh => ?_⟩
  rw [show h = [] from List.eq_of_mem_replicate hh]
  rfl

end Sys2Proof.Machine
end

