-- ==== Sys2Proof/Tests/Slice0.lean ====
section
/-! SUPPORT. Tests. Expected values are the spec's own words and vectors (30_encoding.md R78, 95_test_vectors.md);
each test's comment names its source. Then a witness for every statement that has hypotheses. -/

namespace Sys2Proof.Tests

open Sys2Proof Sys2Proof.Machine

/-! ### WellFormed -/

/-- An RB_WRITE of 2^24 samples cannot be counted in 24 bits (R56). -/
theorem test_wellFormed_refuses_uncountable_write (samples : List Word) (h : samples.length = 2 ^ 24) :
    (Instr.rbWrite samples).wellFormed = false :=
  decide_eq_false (by rw [h]; exact Nat.lt_irrefl _)

/-- There is such a term. -/
theorem witness_uncountable_write : (List.replicate (2 ^ 24) silence).length = 2 ^ 24 := List.length_replicate

theorem test_wellFormed_accepts_small_write : (Instr.rbWrite [silence]).wellFormed = true := by decide

/-! ### Decoding: each command's word, written out from R68 and R69 -/

theorem test_decode_nop : decode .rend [0x00000000#32] = .command .nop := by decide

theorem test_decode_rbWrite : decode .prod [0x10000002#32, 0x3F800000#32, 0x80000000#32] = .command (.rbWrite [0x3F800000#32, 0x80000000#32]) := by decide

theorem test_decode_render : decode .rend [0x20000200#32] = .command (.render 512#24) := by decide

theorem test_decode_cfgWriteEchoEn : decode .ctrl [0x30000000#32, 0xFFFFFFFB#32] = .command (.cfgWriteEchoEn 0xFFFFFFFB#32) := by decide

theorem test_decode_cfgWriteDelayMs : decode .ctrl [0x31000000#32, 0xFFFFFFFB#32] = .command (.cfgWriteDelayMs 0xFFFFFFFB#32) := by decide

theorem test_decode_cfgWriteLpAlpha : decode .ctrl [0x32000000#32, 0xFFFFFFFB#32] = .command (.cfgWriteLpAlpha 0xFFFFFFFB#32) := by decide

theorem test_decode_cfgWriteDistEn : decode .ctrl [0x33000000#32, 0xFFFFFFFB#32] = .command (.cfgWriteDistEn 0xFFFFFFFB#32) := by decide

theorem test_decode_cfgWriteDistGain : decode .ctrl [0x34000000#32, 0xFFFFFFFB#32] = .command (.cfgWriteDistGain 0xFFFFFFFB#32) := by decide

theorem test_decode_cfgWriteReverbEn : decode .ctrl [0x35000000#32, 0xFFFFFFFB#32] = .command (.cfgWriteReverbEn 0xFFFFFFFB#32) := by decide

theorem test_decode_cfgWriteSourceMode : decode .ctrl [0x36000000#32, 0xFFFFFFFB#32] = .command (.cfgWriteSourceMode 0xFFFFFFFB#32) := by decide

theorem test_decode_cfgReadEchoEn : decode .ctrl [0x40000000#32] = .command .cfgReadEchoEn := by decide

theorem test_decode_cfgReadDelayMs : decode .ctrl [0x41000000#32] = .command .cfgReadDelayMs := by decide

theorem test_decode_cfgReadLpAlpha : decode .ctrl [0x42000000#32] = .command .cfgReadLpAlpha := by decide

theorem test_decode_cfgReadDistEn : decode .ctrl [0x43000000#32] = .command .cfgReadDistEn := by decide

theorem test_decode_cfgReadDistGain : decode .ctrl [0x44000000#32] = .command .cfgReadDistGain := by decide

theorem test_decode_cfgReadReverbEn : decode .ctrl [0x45000000#32] = .command .cfgReadReverbEn := by decide

theorem test_decode_cfgReadSourceMode : decode .ctrl [0x46000000#32] = .command .cfgReadSourceMode := by decide

theorem test_decode_cfgReadRbCount : decode .ctrl [0x48000000#32] = .command .cfgReadRbCount := by decide

theorem test_decode_cfgReadRbHead : decode .ctrl [0x49000000#32] = .command .cfgReadRbHead := by decide

theorem test_decode_cfgReadRbTail : decode .ctrl [0x4A000000#32] = .command .cfgReadRbTail := by decide

theorem test_decode_cfgReadSrcStatus : decode .ctrl [0x4B000000#32] = .command .cfgReadSrcStatus := by decide

theorem test_decode_cfgReadParamC : decode .ctrl [0x4C000000#32] = .command .cfgReadParamC := by decide

theorem test_decode_cfgReadParamM : decode .ctrl [0x4D000000#32] = .command .cfgReadParamM := by decide

theorem test_decode_cfgReadParamK : decode .ctrl [0x4E000000#32] = .command .cfgReadParamK := by decide

theorem test_decode_cfgReadParamSr : decode .ctrl [0x4F000000#32] = .command .cfgReadParamSr := by decide

/-- The words of R78 and 95_test_vectors.md 2.2 that decode to no command. -/
theorem test_decode_refuses :
    [decode .prod [0x00000001#32], decode .prod [0x11000000#32], decode .ctrl [0x10000001#32, 7#32],
      decode .rend [0x21000002#32], decode .prod [0x20000002#32], decode .ctrl [0x30000001#32, 1#32],
      decode .ctrl [0x37000000#32, 0#32], decode .ctrl [0x3F000000#32, 5#32], decode .ctrl [0x47000000#32],
      decode .ctrl [0x40000001#32], decode .rend [0xF0000000#32]]
    = [.illegal .nopWithFields, .illegal .selNotZero, .illegal .wrongPort, .illegal .selNotZero, .illegal .wrongPort,
      .illegal .countNotZero, .illegal .selReserved, .illegal .selReadOnly, .illegal .selReserved,
      .illegal .countNotZero, .illegal .opcReserved] := by decide

/-- R78's words from R76's text, and the nearest binary32 of a decimal literal (R12, R76). -/
theorem test_assemble :
    [assemble "CFG_WRITE LP_ALPHA, 0.5", assemble "CFG_WRITE DELAY_MS, 250", assemble "RENDER 512 ; a comment",
      assemble "setDelayMs -5", assemble "get RB_COUNT", assemble "CFG_WRITE DIST_GAIN, 0.8"]
    = [some [0x32000000#32, 0x3F000000#32], some [0x31000000#32, 0x000000FA#32], some [0x20000200#32],
      some [0x31000000#32, 0xFFFFFFFB#32], some [0x48000000#32], some [0x34000000#32, 0x3F4CCCCD#32]] := by
  decide +kernel

/-- Text outside the form of R76 (log 17): a trailing comma, and a count that is not the number of samples. -/
theorem test_assemble_refuses :
    [assembleTokens [['w', 'r', 'i', 't', 'e'], Token.opening, ['1'], Token.comma, Token.closing],
      assembleTokens [['w', 'r', 'i', 't', 'e'], Token.opening, ['1'], Token.comma, ['2'], Token.closing],
      assemble "CFG_WRITE RB_COUNT, 1"]
    = [none, some [0x10000002#32, 0x3F800000#32, 0x40000000#32], none] := by decide +kernel

/-- R54: least significant byte first. -/
theorem test_bytes : bytesOfWord 0x12345678#32 = [0x78#8, 0x56#8, 0x34#8, 0x12#8] := by decide

/-! ### Small states -/

/-- The parameter profile TEST-A (95_test_vectors.md, section 0). -/
def testA : Params :=
  { C := 10, M := 8, K := 2, SR := 1000, F := 0x3F000000#32, B := 0x3F000000#32, L := 0x3F4CCCCD#32 }

/-- A machine of profile TEST-A after reset, with one field of ring, registers and filters replaced. -/
def machineA (rb : Ring) (cfg : Cfg) (fb : Filters) : State :=
  { State.resetWith testA with rb := rb, cfg := cfg, fb := fb }

/-- The samples 1, 2, … of the vectors, as words. -/
def s1 : Word := 0x3F800000#32
def s2 : Word := 0x40000000#32
def s3 : Word := 0x40400000#32
def s4 : Word := 0x40800000#32
def s5 : Word := 0x40A00000#32
def s6 : Word := 0x40C00000#32

/-- The ring after vector 2.1 row 2. -/
def ringRow2 : Ring := { store := [(0, s1), (1, s2), (2, s3), (3, s4), (4, s5), (5, s6)], head := 6, tail := 4, count := 2 }

/-- The filter bank after reset. -/
def filters0 : Filters := Filters.reset 2

/-- A machine after reset whose ring holds vector 2.1 row 2. -/
def afterRow2 : State := machineA ringRow2 Cfg.reset filters0

/-- The outcome's state, seen through a function. -/
def seen {α : Type} (f : State → α) : Host.Outcome State Fault Refusal → Option α
  | .next t => some (f t)
  | .fault _ => none
  | .refused _ => none

/-- What was sent on the granted port (P_PROD in these states). -/
def answer (t : State) : List Word := t.prod.tx

/-! ### One step of each command -/

/-- R110. -/
theorem test_nop : seen answer (exec .nop afterRow2) = some [0x00000000#32] := by decide

/-- Vector 2.1 row 4: the write wraps and fills the ring. -/
theorem test_rbWrite_wraps :
    seen (fun t => (t.rb, answer t)) (exec (.rbWrite [0x40E00000#32, 0x41000000#32, 0x41100000#32, 0x41200000#32,
      0x41300000#32, 0x41400000#32, 0x41500000#32, 0x41600000#32]) afterRow2)
    = some (
        { head := 4, tail := 4, count := 10
          store := [(0, 0x41300000#32), (1, 0x41400000#32), (2, 0x41500000#32), (3, 0x41600000#32), (4, s5), (5, s6),
            (6, 0x40E00000#32), (7, 0x41000000#32), (8, 0x41100000#32), (9, 0x41200000#32)] },
        [0x00000000#32]) := by decide

/-- Vector 2.1 row 3: BUFFER_FULL moves nothing. -/
theorem test_rbWrite_full :
    seen (fun t => (t.rb, answer t)) (exec (.rbWrite (List.replicate 9 silence)) afterRow2)
    = some (ringRow2, [0x00000001#32]) := by decide

/-- Program P2, its last RENDER: the echo's history has wrapped. -/
theorem test_render_echo :
    seen (fun t => (answer t, t.fb.eh, t.fb.ei, t.rb.count)) (exec (.render 2#24) (machineA
      { store := [(0, s1)], head := 0, tail := 8, count := 2 }
      { Cfg.reset with echoEnabled := true, delayMs := 2#32 }
      { filters0 with eh := [(0, s1), (2, 0x3F000000#32), (4, 0x3E800000#32), (6, 0x3E000000#32)] }))
    = some ([0x00000000#32, 0x3D800000#32, 0x00000000#32],
        [(0, 0x3D800000#32), (2, 0x3F000000#32), (4, 0x3E800000#32), (6, 0x3E000000#32)], 2, 0) := by decide +kernel

/-- Vector 2.10 row 2: a short last answer is padded, processed whole, and ends the stream. -/
theorem test_render_file :
    seen (fun t => (answer t, t.fileExhausted, t.fb.ei, t.file)) (exec (.render 4#24)
      { machineA Ring.reset { Cfg.reset with sourceMode := .file } filters0 with
        file := { rx := [0x80000002#32, 0x3F000000#32, 0x3E800000#32], tx := [] } })
    = some ([0x00000004#32, 0x3F000000#32, 0x3E800000#32, 0x00000000#32, 0x00000000#32], true, 4,
        { rx := [], tx := [4#32] }) := by decide +kernel

/-- Vector 2.3: ECHO_EN keeps bit 0 only. -/
theorem test_write_echoEn : seen (fun t => (t.cfg.echoEnabled, answer t)) (exec (.cfgWriteEchoEn 2#32) afterRow2)
    = some (false, [0x00000000#32]) := by decide

/-- Vector 2.3: DELAY_MS 8 is clamped to 7. -/
theorem test_write_delayMs_high : seen (fun t => (t.cfg.delayMs, answer t)) (exec (.cfgWriteDelayMs 8#32) afterRow2)
    = some (7#32, [0x00000003#32]) := by decide

/-- Vector 2.3: the most negative DELAY_MS is clamped to 1. -/
theorem test_write_delayMs_low :
    seen (fun t => (t.cfg.delayMs, answer t)) (exec (.cfgWriteDelayMs 0x80000000#32) afterRow2)
    = some (1#32, [0x00000003#32]) := by decide

/-- Vector 2.3: the number just above 1.0 is clamped to 1.0. -/
theorem test_write_lpAlpha_high :
    seen (fun t => (t.cfg.lowpassAlpha, answer t)) (exec (.cfgWriteLpAlpha 0x3F800001#32) afterRow2)
    = some (0x3F800000#32, [0x00000003#32]) := by decide

/-- Vector 2.3: -0.0 is stored as +0.0 with OK. -/
theorem test_write_lpAlpha_negZero :
    seen (fun t => (t.cfg.lowpassAlpha, answer t)) (exec (.cfgWriteLpAlpha 0x80000000#32) afterRow2)
    = some (0x00000000#32, [0x00000000#32]) := by decide

/-- Vector 2.3. -/
theorem test_write_distEn :
    seen (fun t => (t.cfg.distortionEnabled, answer t)) (exec (.cfgWriteDistEn 0xFFFFFFFF#32) afterRow2)
    = some (true, [0x00000000#32]) := by decide

/-- Vector 2.3: a NaN gain commits +0.0. -/
theorem test_write_distGain_nan :
    seen (fun t => (t.cfg.distortionGain, answer t)) (exec (.cfgWriteDistGain 0xFFC00000#32) afterRow2)
    = some (0x00000000#32, [0x00000003#32]) := by decide

/-- Vector 2.3: +inf is accepted. -/
theorem test_write_distGain_inf :
    seen (fun t => (t.cfg.distortionGain, answer t)) (exec (.cfgWriteDistGain 0x7F800000#32) afterRow2)
    = some (0x7F800000#32, [0x00000000#32]) := by decide

/-- R112, from a machine with the reverb on. -/
theorem test_write_reverbEn :
    seen (fun t => (t.cfg.reverbEnabled, answer t)) (exec (.cfgWriteReverbEn 0#32)
      (machineA ringRow2 { Cfg.reset with reverbEnabled := true } filters0)) = some (false, [0x00000000#32]) := by decide

/-- Vector 2.10 row 9: any write of SOURCE_MODE re-arms an exhausted source. -/
theorem test_write_sourceMode :
    seen (fun t => (t.cfg.sourceMode, t.fileExhausted, answer t))
      (exec (.cfgWriteSourceMode 1#32) { afterRow2 with fileExhausted := true })
    = some (.file, false, [0x00000000#32]) := by decide

/-! Vectors 2.1 row 2, 2.3 (reads) and program P4: a read's status and data. -/

theorem test_read_EchoEn : seen answer (exec .cfgReadEchoEn afterRow2) = some [0x00000000#32, 0x00000000#32] := by decide

theorem test_read_DelayMs : seen answer (exec .cfgReadDelayMs afterRow2) = some [0x00000000#32, 0x00000001#32] := by decide

theorem test_read_LpAlpha : seen answer (exec .cfgReadLpAlpha afterRow2) = some [0x00000000#32, 0x00000000#32] := by decide

theorem test_read_DistEn : seen answer (exec .cfgReadDistEn afterRow2) = some [0x00000000#32, 0x00000000#32] := by decide

theorem test_read_DistGain : seen answer (exec .cfgReadDistGain afterRow2) = some [0x00000000#32, 0x3F800000#32] := by decide

theorem test_read_ReverbEn : seen answer (exec .cfgReadReverbEn afterRow2) = some [0x00000000#32, 0x00000000#32] := by decide

theorem test_read_SourceMode : seen answer (exec .cfgReadSourceMode afterRow2) = some [0x00000000#32, 0x00000000#32] := by decide

theorem test_read_RbCount : seen answer (exec .cfgReadRbCount afterRow2) = some [0x00000000#32, 0x00000002#32] := by decide

theorem test_read_RbHead : seen answer (exec .cfgReadRbHead afterRow2) = some [0x00000000#32, 0x00000006#32] := by decide

theorem test_read_RbTail : seen answer (exec .cfgReadRbTail afterRow2) = some [0x00000000#32, 0x00000004#32] := by decide

theorem test_read_SrcStatus : seen answer (exec .cfgReadSrcStatus { afterRow2 with fileExhausted := true }) = some [0x00000000#32, 0x00000001#32] := by decide

theorem test_read_ParamC : seen answer (exec .cfgReadParamC afterRow2) = some [0x00000000#32, 0x0000000A#32] := by decide

theorem test_read_ParamM : seen answer (exec .cfgReadParamM afterRow2) = some [0x00000000#32, 0x00000008#32] := by decide

theorem test_read_ParamK : seen answer (exec .cfgReadParamK afterRow2) = some [0x00000000#32, 0x00000002#32] := by decide

theorem test_read_ParamSr : seen answer (exec .cfgReadParamSr afterRow2) = some [0x00000000#32, 0x000003E8#32] := by decide

/-! ### The stages -/

/-- Vector 2.4, `α = 0.25`, the second sample: 0.25·1 + 0.75·0.25 = 0.4375. -/
theorem test_lp : (lowpass 0x3E800000#32 s1 { filters0 with lpMem := 0x3E800000#32 } 0).y = 0x3EE00000#32 := by decide +kernel

/-- Vector 2.5, TEST-C: with `D = 0` the echo reads the current sample. -/
theorem test_echo_zero_delay : (echo testA 0 s2 filters0 0).y = 0x40400000#32 := by decide +kernel

/-- Vector 2.6, TEST-A `D = 1`: one tap reads the input itself. -/
theorem test_reverb :
    (reverb testA (takeSnapshot testA Cfg.reset 0).1.taps s1 filters0 0).y = 0x3FA00000#32 := by decide +kernel

/-- R87: the tap weights of `B = 0.5`, `K = 6`. -/
theorem test_tap_weights : (tapsFrom 0x3F000000#32 6 0 6 0).1.map (fun t => t.weight)
    = [0x3F000000#32, 0x3E800000#32, 0x3E2AAAAB#32, 0x3E000000#32, 0x3DCCCCCD#32, 0x3DAAAAAB#32] := by decide +kernel

/-- Vector 2.7: `≈ 0.4` times 2 is exactly `L`; `1.0` times 2 is clipped; a NaN is silence. -/
theorem test_dist :
    ((distort testA s2 0x3ECCCCCD#32 filters0 0).y, (distort testA s2 0xBF800000#32 filters0 0).y, clip testA.L 0x7FC00000#32)
    = (0x3F4CCCCD#32, 0xBF4CCCCD#32, 0x00000000#32) := by decide +kernel

/-- Vector 2.7: `+inf` times `+0.0` is a NaN, whatever its payload, and the clip gives silence. -/
theorem test_dist_nan : (distort testA silence 0x7F800000#32 filters0 0).y = silence := by
  have h : F32.mul 0x7F800000#32 silence = none := by decide
  simp [distort, fmul, h, clip]

/-- Vector 2.6, TEST-B: the left-to-right sum of three weights is 0x3E9DDDDE. -/
theorem test_sum_of_weights :
    (F32.add 0x3E000000#32 0x3DCCCCCD#32).bind (fun s => F32.add s 0x3DAAAAAB#32) = some 0x3E9DDDDE#32 := by
  decide +kernel

/-! ### Steps -/

/-- A machine with a legal RENDER frame on P_REND. -/
def pendingA : State := { afterRow2 with rend := { rx := [0x20000001#32], tx := [] } }

/-- Vector 2.2: an illegal RENDER word consumes its frame and answers with two zero words. -/
theorem test_step_illegal :
    seen (fun t => (t.rend, t.rb)) (step { afterRow2 with rend := { rx := [0x21000002#32, 7#32], tx := [] } })
    = some ({ rx := [7#32], tx := [0x00000005#32, 0x00000000#32, 0x00000000#32] }, ringRow2) := by decide

/-- Vector 2.11: reset discards a pending RENDER without a response. -/
theorem test_step_reset :
    seen (fun t => (t.rend, t.rb, t.cfg.delayMs))
      (step { afterRow2 with rend := { rx := [0x20000004#32], tx := [] }, resetIn := true })
    = some ({ rx := [], tx := [] }, Ring.reset, 1#32) := by decide

/-- Program P4: the block sends its FILE_PULL and waits (I19). -/
theorem test_step_waits :
    seen (fun t => (t.rend, t.file.tx, t.inFlight.isSome))
      (step { machineA Ring.reset { Cfg.reset with sourceMode := .file } filters0 with
        rend := { rx := [0x20000004#32], tx := [] } })
    = some ({ rx := [], tx := [] }, [0x00000004#32], true) := by decide +kernel

/-- R130: a state whose count exceeds the capacity is a fault. -/
theorem test_step_corrupt :
    step (machineA { ringRow2 with count := 11 } Cfg.reset filters0) = .fault .invariantBroken := by rfl

/-- R62: of two ports that hold a command, the one with the earlier turn is served. -/
theorem test_pick_earliest_turn :
    { pendingA with ctrl := { rx := [0#32], tx := [] }, due := { prod := 0, rend := 3, ctrl := 2 } }.pick = some .ctrl := by
  decide

/-- R47: a second command is not taken while the first is outstanding. -/
theorem test_send_on_busy_port : pendingA.send .rend [0x20000002#32] = pendingA := by decide

/-- The first command after reset, whatever `C` and `M` are. -/
theorem test_first_command :
    seen (fun t => (t.ctrl.tx, t.turn)) (step (State.reset.withFetchWord 32 0x44000000))
    = some ([0x00000000#32, 0x3F800000#32], 1) := by decide

/-! ### Witnesses: states and operands that meet a statement's hypotheses together -/

/-- A machine of profile TEST-A in FILE mode, whose file source has not answered. -/
def fileA : State := machineA Ring.reset { Cfg.reset with sourceMode := .file } filters0

/-- A machine with an illegal word on P_CTRL. -/
def illegalA : State := { afterRow2 with ctrl := { rx := [0x47000000#32], tx := [] } }

/-- A RENDER that waits on the file source. -/
def waitingA : State :=
  { fileA with inFlight := some { n := 4#24, snap := (takeSnapshot testA fileA.cfg 0).1 } }

/-- A snapshot with given registers and delay. -/
def snapshotA (c : Cfg) (D : Nat) : Snapshot := { cfg := c, delay := D, taps := [] }

/-- The registers with the echo on. -/
def echoOn : Cfg := { Cfg.reset with echoEnabled := true, delayMs := 2#32 }

theorem witness_DecodeAfterEncode :
    (Instr.rbWrite [s1]).wellFormed = true ∧ (Instr.rbWrite [s1]).acceptedOn .prod = true := by decide

theorem witness_DecodesOnlyItsOwnEncoding : decode .ctrl [0x4F000000#32] = .command .cfgReadParamSr := by decide

/-- A payload of the right length for each refusal of the statement's list, at its boundary. -/
theorem witness_ReservedEncodingsAreIllegal :
    payloadWords 0x50000000#32 = 0 ∧ payloadWords 0x00000001#32 = 0 ∧ payloadWords 0x11000000#32 = 0
      ∧ payloadWords 0x30000001#32 = 1 ∧ payloadWords 0x37000000#32 = 1 ∧ payloadWords 0x47000000#32 = 0
      ∧ payloadWords 0x10000000#32 = 0 ∧ payloadWords 0x20FFFFFF#32 = 0 ∧ payloadWords 0x40000000#32 = 0 := by decide

theorem witness_BytesCrossLeastSignificantFirst : (0 : Nat) < 4 ∧ (3 : Nat) < 4 := by decide

/-- A well-formed command, a frame of each length and a cut one. -/
theorem witness_FrameLeavesThePortWhole :
    (Instr.cfgWriteDelayMs 7#32).wellFormed = true ∧ payloadWords 0x11000002#32 = 2 ∧ payloadWords 0x3F000000#32 = 1
      ∧ payloadWords 0x20000005#32 = 0 ∧ [s1].length < payloadWords 0x11000002#32 := by decide

theorem witness_StepPerformsTheDecodedCommand :
    pendingA.resetIn = false ∧ pendingA.intact = true ∧ pendingA.inFlight = none ∧ pendingA.pick = some .rend
      ∧ nextFrame (pendingA.wire .rend).rx = some ([0x20000001#32], [])
      ∧ decode .rend [0x20000001#32] = .command (.render 1#24) := by decide

theorem witness_IllegalCommandChangesNothing :
    illegalA.resetIn = false ∧ illegalA.intact = true ∧ illegalA.inFlight = none ∧ illegalA.pick = some .ctrl
      ∧ nextFrame (illegalA.wire .ctrl).rx = some ([0x47000000#32], [])
      ∧ decode .ctrl [0x47000000#32] = .illegal .selReserved := by decide

/-- The port served holds a command; with no command there is none to serve. -/
theorem witness_ArbitrationServesAPortWithACommand :
    pendingA.pick = some .rend ∧ afterRow2.pick = none ∧ ∀ p, afterRow2.ready p = false := by
  refine ⟨by decide, by decide, fun p => ?_⟩
  cases p <;> decide

/-- A state that breaks R26, with reset released and applied. -/
theorem witness_StepFaultsExactlyOnABrokenInvariant :
    (machineA { ringRow2 with head := 10 } Cfg.reset filters0).intact = false
      ∧ step (machineA { ringRow2 with head := 10 } Cfg.reset filters0).assertReset = .fault .invariantBroken :=
  ⟨by decide, rfl⟩

theorem witness_StepKeepsTheInvariant : pendingA.inv = true ∧ seen (fun t => t.inv) (step pendingA) = some true := by
  decide +kernel

theorem witness_ResetMeetsTheInvariant : legalParams testA = true := by decide +kernel

theorem witness_NoRunFromResetStops : legalParams testA = true ∧ Reachable testA (State.resetWith testA) :=
  ⟨by decide +kernel, .reset⟩

theorem witness_ResetDiscardsPendingCommands :
    pendingA.assertReset.intact = true ∧ pendingA.assertReset.resetIn = true := by decide

theorem witness_WaitingRenderHoldsEveryPort :
    waitingA.resetIn = false ∧ waitingA.intact = true
      ∧ waitingA.inFlight = some { n := 4#24, snap := (takeSnapshot testA fileA.cfg 0).1 }
      ∧ receiveAnswer 4#24 waitingA.file.rx = none := ⟨by decide, by decide, rfl, by decide⟩

theorem witness_WaitingRenderEndsAsOneStep :
    fileA.resetIn = false ∧ fileA.intact = true ∧ fileA.inFlight = none ∧ fileA.cfg.sourceMode = .file
      ∧ fileA.fileExhausted = false ∧ (4#24 : Count) ≠ 0#24 ∧ receiveAnswer 4#24 fileA.file.rx = none
      ∧ ∃ w, exec (.render 4#24) fileA = .next w :=
  ⟨by decide, by decide, by decide, by decide, by decide, by decide, by decide, exec_next _ _⟩

/-- A write that just fits, from a legal ring. -/
theorem witness_RbWriteStoresEverySample :
    afterRow2.rb.legal afterRow2.par.C = true
      ∧ afterRow2.rb.count + (List.replicate 8 s1).length ≤ afterRow2.par.C := by decide

/-- A write of one sample too many, and a RENDER of one sample too many. -/
theorem witness_RejectedTransfersMoveNothing :
    afterRow2.par.C < afterRow2.rb.count + (List.replicate 9 s1).length
      ∧ afterRow2.cfg.sourceMode = .ring ∧ afterRow2.rb.count < (3#24 : Count).toNat := by decide

/-- A write and a RENDER in a row: both are performed. -/
theorem witness_QueueIsFirstInFirstOut :
    afterRow2.rb.legal afterRow2.par.C = true
      ∧ (performAll [.rbWrite [s1], .render 2#24] afterRow2).map (fun x => (x.2.1, x.2.2)) = some ([s1], [s5, s6]) := by
  decide +kernel

theorem witness_CountIsConserved : afterRow2.rb.intact afterRow2.par.C = true := by decide

/-- The midpoint past the largest finite number, the units just below it, a tie, and a finite word. -/
theorem witness_RoundingIsToNearestEven :
    (0 : Nat) < 1 ∧ roundMag ((2 ^ 25 - 1) * 2 ^ 252) 1 = F32.infMag
      ∧ roundMag ((2 ^ 25 - 1) * 2 ^ 252 - 1) 1 < F32.infMag ∧ roundMag 3 2 = 2 ∧ roundMag 3 2 < F32.infMag
      ∧ F32.isFinite 0x7F7FFFFF#32 = true := by decide +kernel

/-- Operands of every case: rounded finite ones, a zero, infinities of one sign and of both. -/
theorem witness_OperationsRoundTheExactResult :
    F32.isFinite 0x7F7FFFFF#32 = true ∧ (0x7F7FFFFF#32 : Word) ≠ negZero ∧ F32.isFinite 0x80000001#32 = true
      ∧ F32.isZero 0x80000001#32 = false ∧ F32.isFinite negZero = true ∧ F32.isZero negZero = true
      ∧ F32.isInf 0x7F800000#32 = true ∧ F32.isInf 0xFF800000#32 = true
      ∧ F32.neg? 0x7F800000#32 ≠ F32.neg? 0xFF800000#32 := by decide

/-- A NaN, opposite infinities, one infinity twice, a zero and an infinity, two zeros. -/
theorem witness_NanResultsAreQuietNans :
    F32.isNaN 0x7F800001#32 = true ∧ F32.add 0x7F800000#32 0xFF800000#32 = none ∧ F32.sub 0xFF800000#32 0xFF800000#32 = none
      ∧ F32.mul 0x80000000#32 0x7F800000#32 = none ∧ F32.div 0x00000000#32 0x80000000#32 = none := by decide

theorem witness_ComparisonsFollowTheNumbers :
    F32.isNaN 0xFFC00000#32 = true ∧ F32.isFinite 0xFF7FFFFF#32 = true ∧ F32.isFinite 0x00000001#32 = true
      ∧ F32.isNaN 0x7F800000#32 = false ∧ F32.isNaN 0xFF800000#32 = false ∧ F32.isNaN 0x80000000#32 = false := by decide

theorem witness_SmallIntegersConvertExactly :
    (2 ^ 24 : Nat) ≤ 2 ^ 24 ∧ F32.value (F32.ofNat (2 ^ 24)) = ((2 ^ 24 : Nat) : Int) * 2 ^ 149 := by decide +kernel

/-- Both ends of the legal delays. -/
theorem witness_DelayInSamplesIsExact :
    legalParams testA = true ∧ legalDelay testA 1#32 = true ∧ legalDelay testA 7#32 = true := by decide +kernel

/-- A parameter set for each of the two cases: one where a millisecond lies in the history, one where none does. -/
theorem witness_DelayMsMaxIsTheLargestSetting :
    (1 ≤ testA.M ∧ 1 ≤ testA.SR ∧ testA.SR / 1000 ≤ testA.M - 1 ∧ testA.delayMsMax = 7)
      ∧ (({ testA with M := 1, SR := 44100 } : Params).M - 1 < ({ testA with M := 1, SR := 44100 } : Params).SR / 1000
        ∧ ({ testA with M := 1, SR := 44100 } : Params).delayMsMax = 1) := by decide

theorem witness_TapsHaveTheirDelaysAndWeights : legalParams testA = true ∧ 1 < testA.K := by decide +kernel

/-- The smallest and the largest legal `α`. -/
theorem witness_LowpassKeepsSilenceAndPassesThrough :
    legalAlpha 0x00000000#32 = true ∧ legalAlpha 0x00000001#32 = true ∧ legalAlpha 0x3F800000#32 = true
      ∧ Cfg.reset.echoEnabled = false ∧ Cfg.reset.reverbEnabled = false ∧ Cfg.reset.distortionEnabled = false
      ∧ filters0.lpMem = silence ∧ fle 0x00000000#32 silence = true := by decide

/-- An `α` above 0, on which the two infinities give a NaN. -/
theorem witness_LowpassFormula :
    fle 0x3F000000#32 silence = false ∧ F32.mul 0x3F000000#32 0x7F800000#32 = some 0x7F800000#32
      ∧ F32.mul 0x3F000000#32 0xFF800000#32 = some 0xFF800000#32 ∧ F32.add 0x7F800000#32 0xFF800000#32 = none := by
  decide +kernel

/-- The largest delay and the zero delay; a product and a sum that are numbers, and one that is none. -/
theorem witness_EchoAddsTheDelayedSum :
    filters0.eh.wf = true ∧ filters0.ei < testA.M ∧ 7 < testA.M ∧ 0 < testA.M
      ∧ F32.mul testA.F (filters0.eh.read (slotBehind testA.M filters0.ei 7)) = some silence
      ∧ F32.mul testA.F s2 = some s1 ∧ F32.add s2 s1 = some s3 ∧ F32.mul testA.F 0x7FC00000#32 = none := by decide +kernel

theorem witness_EchoOfAnImpulseDecays :
    legalParams testA = true ∧ testA.F ≠ negZero ∧ (snapshotA echoOn 7).cfg.lowpassAlpha = silence
      ∧ (snapshotA echoOn 7).cfg.echoEnabled = true ∧ (snapshotA echoOn 7).cfg.reverbEnabled = false
      ∧ (snapshotA echoOn 7).cfg.distortionEnabled = false ∧ 1 ≤ (snapshotA echoOn 7).delay
      ∧ (snapshotA echoOn 7).delay < testA.M ∧ filters0.eh = [] ∧ filters0.ei < testA.M := by decide +kernel

theorem witness_ReverbAddsTheWeightedTaps :
    filters0.legal testA = true
      ∧ ∀ tap ∈ (takeSnapshot testA Cfg.reset 0).1.taps, tap.delay < testA.M := by decide +kernel

theorem witness_DisabledStagesHoldTheirHistory :
    Cfg.reset.echoEnabled = false ∧ Cfg.reset.reverbEnabled = false ∧ Cfg.reset.distortionEnabled = false := by decide

theorem witness_CursorsAdvanceOncePerSample : filters0.ei < testA.M ∧ filters0.ri < testA.M := by decide

/-- A value for each case of the clip, the limits themselves among those it keeps. -/
theorem witness_ClipCases :
    F32.isFinite testA.L = true ∧ flt silence testA.L = true ∧ F32.isNaN 0x7FC00000#32 = true
      ∧ fgt 0x3F4CCCCE#32 testA.L = true ∧ flt 0xBF4CCCCE#32 (F32.neg testA.L) = true
      ∧ fgt testA.L testA.L = false ∧ flt (F32.neg testA.L) (F32.neg testA.L) = false := by decide

theorem witness_DistortionStaysInRange : F32.isFinite testA.L = true ∧ flt silence testA.L = true := by decide

theorem witness_ResetConfigurationIsTheIdentity :
    Cfg.reset.lowpassAlpha = silence ∧ Cfg.reset.echoEnabled = false ∧ Cfg.reset.reverbEnabled = false
      ∧ Cfg.reset.distortionEnabled = false ∧ filters0.ei < testA.M ∧ filters0.ri < testA.M := by decide

/-- Two filter states that differ in the payload of a NaN. -/
theorem witness_PipelineIsDeterministicUpToNanPayloads :
    filters0.legal testA = true
      ∧ { filters0 with lpMem := 0x7FC00000#32 }.legal testA = true ∧ { filters0 with lpMem := 0xFFC00001#32 }.legal testA = true
      ∧ SameFilters { filters0 with lpMem := 0x7FC00000#32 } { filters0 with lpMem := 0xFFC00001#32 } := by
  refine ⟨by decide, by decide, by decide, .inr ⟨by decide, by decide⟩, fun _ => .inl rfl, rfl, ?_, rfl⟩
  exact List.forall₂_same.2 fun _ _ _ => .inl rfl

/-- A RENDER of all that is queued. -/
theorem witness_RenderProcessesTheOldestSamples :
    afterRow2.cfg.sourceMode = .ring ∧ (2#24 : Count).toNat ≤ afterRow2.rb.count := by decide

/-- A RENDER of one sample more than is queued. -/
theorem witness_RenderUnderrunIsSilent :
    legalParams afterRow2.par = true ∧ afterRow2.cfg.sourceMode = .ring ∧ afterRow2.rb.count < (3#24 : Count).toNat := by
  decide +kernel

theorem witness_RenderWithoutAPull :
    legalParams fileA.par = true ∧ fileA.cfg.sourceMode = .file ∧ fileA.fileExhausted = false
      ∧ { fileA with fileExhausted := true }.cfg.sourceMode = .file
      ∧ { fileA with fileExhausted := true }.fileExhausted = true := by decide +kernel

/-- An answer with samples (its `m` above `N`) and an answer with none. -/
theorem witness_RenderFromTheFileSource :
    legalParams fileA.par = true ∧ fileA.cfg.sourceMode = .file ∧ fileA.fileExhausted = false
      ∧ (2#24 : Count) ≠ 0#24 ∧ fileA.inFlight = none
      ∧ (fileA.fileAnswer [0x00000005#32, s1, s2, s3]).file.rx = 0x00000005#32 :: ([s1, s2] ++ [s3])
      ∧ [s1, s2].length = min ((0x00000005#32 : Word).toNat % 2 ^ 24) (2#24 : Count).toNat
      ∧ (fileA.fileAnswer [0x80000000#32]).file.rx = 0x80000000#32 :: ([] ++ [])
      ∧ ([] : List Word).length = min ((0x80000000#32 : Word).toNat % 2 ^ 24) (2#24 : Count).toNat := by decide +kernel

/-- No answer word, an answer cut before its last sample, and one that is whole. -/
theorem witness_RenderWaitsForTheFileSource :
    legalParams fileA.par = true ∧ fileA.cfg.sourceMode = .file ∧ fileA.fileExhausted = false
      ∧ (4#24 : Count) ≠ 0#24 ∧ receiveAnswer 4#24 fileA.file.rx = none
      ∧ receiveAnswer 4#24 (fileA.fileAnswer [0x00000002#32, s1]).file.rx = none
      ∧ receiveAnswer 4#24 [0x00000002#32, s1, s2] ≠ none := by decide +kernel

/-- A RENDER that waits, and for each reason one that does not; an answer that is there. -/
theorem witness_EveryRenderReturnsExactlyN :
    (fileA.cfg.sourceMode = .file ∧ fileA.fileExhausted = false ∧ (4#24 : Count) ≠ 0#24
        ∧ receiveAnswer 4#24 fileA.file.rx = none)
      ∧ afterRow2.cfg.sourceMode ≠ .file ∧ { fileA with fileExhausted := true }.fileExhausted ≠ false
      ∧ receiveAnswer 4#24 [0x80000001#32, s1] ≠ none := by decide

/-- A value for each clause: below 1, above `DELAY_MS_MAX`, and both ends of the range. -/
theorem witness_DelayWritesClamp :
    (0#32 : Word).toInt < 1 ∧ 1 ≤ (8#32 : Word).toInt ∧ (testA.delayMsMax : Int) < (8#32 : Word).toInt
      ∧ 1 ≤ (1#32 : Word).toInt ∧ (7#32 : Word).toInt ≤ (testA.delayMsMax : Int) := by decide

/-- A value for each clause, the boundaries among them. -/
theorem witness_AlphaWritesClamp :
    F32.isNaN 0x7FC00000#32 = true ∧ flt 0x80000001#32 0x00000000#32 = true ∧ fgt 0x3F800001#32 0x3F800000#32 = true
      ∧ fle 0x00000000#32 0x80000000#32 = true ∧ fle 0x80000000#32 0x3F800000#32 = true
      ∧ fle 0x00000000#32 0x3F800000#32 = true ∧ fle 0x3F800000#32 0x3F800000#32 = true := by decide

/-- A value for each clause, the boundaries among them. -/
theorem witness_GainWritesClamp :
    F32.isNaN 0xFFC00000#32 = true ∧ flt 0xFF800000#32 0x00000000#32 = true
      ∧ fle 0x00000000#32 0x80000000#32 = true ∧ fle 0x00000000#32 0x7F800000#32 = true := by decide

theorem witness_ConfigurationWritesAreIdempotent :
    Instr.cfgWriteDelayMs 9#32 ∈ [.cfgWriteEchoEn 9#32, .cfgWriteDelayMs 9#32, .cfgWriteLpAlpha 9#32, .cfgWriteDistEn 9#32,
      .cfgWriteDistGain 9#32, .cfgWriteReverbEn 9#32, .cfgWriteSourceMode 9#32] := by decide

/-- A command for each clause of the frame. -/
theorem witness_EachCommandKeepsToItsOwnState :
    (∃ t, exec (.rbWrite [s1]) afterRow2 = .next t) ∧ writesRegister (.rbWrite [s1]) = false
      ∧ writesRegister .cfgReadParamC = false ∧ (Instr.cfgReadParamC).acceptedOn .ctrl = true
      ∧ (∀ n, Instr.nop ≠ .render n) ∧ (∀ v, Instr.nop ≠ .cfgWriteSourceMode v) :=
  ⟨exec_next _ _, rfl, rfl, rfl, by simp, by simp⟩

/-- A free port and a frame; a port that holds a command, one whose RENDER waits, and words that are no whole frame. -/
theorem witness_EachPortHoldsAtMostOneCommand :
    (legalParams testA = true ∧ Reachable testA (State.resetWith testA))
      ∧ (nextFrame [0x10000001#32, s1] = some ([0x10000001#32, s1], []) ∧ (pendingA.wire .prod).rx = []
        ∧ pendingA.inFlight = none)
      ∧ (pendingA.wire .rend).rx ≠ [] ∧ (waitingA.inFlight ≠ none ∧ waitingA.grant = .prod)
      ∧ nextFrame [0x10000001#32] ≠ some ([0x10000001#32], []) :=
  ⟨⟨by decide +kernel, .reset⟩, by decide, by decide, by decide, by decide⟩

/-- A machine with a NOP on P_PROD and one on P_CTRL. -/
def busyA : State := { afterRow2 with prod := { rx := [0#32], tx := [] }, ctrl := { rx := [0#32], tx := [] } }

/-- The run of it that only makes steps. -/
def runA : Nat → State
  | 0 => busyA
  | n + 1 => Move.step.apply (runA n)

/-- After two steps it is idle. -/
theorem runA_idle (n : Nat) : runA (n + 2) = runA 2 := by
  induction n with
  | zero => rfl
  | succ n ih =>
    show Move.step.apply (runA (n + 2)) = runA 2
    rw [ih]
    decide +kernel

/-- The command on P_CTRL waits while the one on P_PROD is performed. -/
theorem witness_EveryCommandIsEventuallyPerformed :
    (runA 0).inv = true ∧ (runA 0).resetIn = false ∧ (runA 0).ready .ctrl = true
      ∧ (∀ n, runA (n + 1) = Move.step.apply (runA n)) ∧ Move.step ≠ .assertReset
      ∧ (∀ n : Nat, ∃ k, n ≤ k ∧ Move.step = .step)
      ∧ (∀ n r, (runA n).inFlight = some r → ∃ k, n ≤ k ∧ receiveAnswer r.n (runA k).file.rx ≠ none)
      ∧ (runA 0).serves .ctrl = false ∧ (runA 1).serves .ctrl = true := by
  refine ⟨by decide +kernel, by decide, by decide, fun _ => rfl, by decide, fun n => ⟨n, Nat.le_refl n, rfl⟩, ?_,
    by decide +kernel, by decide +kernel⟩
  intro n r h
  have hn : (runA n).inFlight = none := by
    match n with
    | 0 => decide
    | 1 => decide +kernel
    | n + 2 =>
      rw [runA_idle]
      decide +kernel
  rw [hn] at h
  exact nomatch h

end Sys2Proof.Tests
end

section
/-! SUPPORT. The magnitudes of binary32 as numbers of units of 2^(-149) (R16; log 15): which numbers they are, that they
rise with the magnitude bits, and what `roundMag` makes of a quotient. -/

namespace Sys2Proof.Machine

/-! ### Magnitude bits and units -/

/-- The number of units that magnitude bits stand for: `F32.units` as a function of the magnitude alone. -/
def magUnits (m : Nat) : Nat :=
  if m < 2 ^ 23 then m else (2 ^ 23 + m % 2 ^ 23) * 2 ^ (m / 2 ^ 23 - 1)

theorem units_eq_magUnits (a : Word) : F32.units a = magUnits (F32.mag a) := rfl

/-- In binade `k` the significand `r` counts steps of `2 ^ k` units; `r = 2 ^ 24` is the start of the next binade. -/
theorem magUnits_binade {k r : Nat} (hr : r ≤ 2 ^ 24) (hk : k = 0 ∨ 2 ^ 23 ≤ r) :
    magUnits (k * 2 ^ 23 + r) = r * 2 ^ k := by
  unfold magUnits
  rcases Nat.lt_or_ge r (2 ^ 23) with hlow | hlow
  · obtain rfl : k = 0 := by omega
    rw [if_pos (by omega)]
    omega
  rw [if_neg (by omega)]
  rcases Nat.lt_or_ge r (2 ^ 24) with hlt | hge
  · rw [show (k * 2 ^ 23 + r) % 2 ^ 23 = r - 2 ^ 23 by omega, show (k * 2 ^ 23 + r) / 2 ^ 23 - 1 = k by omega,
      Nat.add_sub_cancel' hlow]
  · obtain rfl : r = 2 ^ 24 := by omega
    rw [show (k * 2 ^ 23 + 2 ^ 24) % 2 ^ 23 = 0 by omega, show (k * 2 ^ 23 + 2 ^ 24) / 2 ^ 23 - 1 = k + 1 by omega]
    ring

/-- Every magnitude is a significand in a binade. -/
theorem exists_binade (m : Nat) : ∃ k r, r < 2 ^ 24 ∧ (k = 0 ∨ 2 ^ 23 ≤ r) ∧ m = k * 2 ^ 23 + r :=
  ⟨m / 2 ^ 23 - 1, m - (m / 2 ^ 23 - 1) * 2 ^ 23, by omega, by omega, by omega⟩

/-- One magnitude up is one significand step up. -/
theorem magUnits_strictMono : StrictMono magUnits := by
  refine strictMono_nat_of_lt_succ fun m => ?_
  obtain ⟨k, r, hr, hk, rfl⟩ := exists_binade m
  rw [magUnits_binade (by omega) hk, Nat.add_assoc, magUnits_binade (by omega) (by omega)]
  exact Nat.mul_lt_mul_of_pos_right (Nat.lt_succ_self r) (Nat.two_pow_pos k)

@[simp] theorem magUnits_zero : magUnits 0 = 0 := rfl

@[simp] theorem magUnits_eq_zero_iff {m : Nat} : magUnits m = 0 ↔ m = 0 :=
  magUnits_strictMono.injective.eq_iff' magUnits_zero

/-- Infinity's bits stand where the first number past the finite ones would. -/
theorem magUnits_infMag : magUnits F32.infMag = 2 ^ 23 * 2 ^ 254 :=
  magUnits_binade (k := 254) (r := 2 ^ 23) (by decide) (.inr le_rfl)

/-- From the start of binade `k` on, every magnitude is a whole number of steps of that binade. -/
theorem magUnits_below_or_dvd (k m : Nat) : magUnits m < 2 ^ 23 * 2 ^ k ∨ 2 ^ k ∣ magUnits m := by
  obtain ⟨j, r, hr, hj, rfl⟩ := exists_binade m
  rw [magUnits_binade hr.le hj]
  rcases Nat.lt_or_ge j k with hjk | hkj
  · have hpow : 2 ^ (j + 1) ≤ 2 ^ k := Nat.pow_le_pow_right (by decide) hjk
    have hmul : r * 2 ^ j < 2 ^ 24 * 2 ^ j := Nat.mul_lt_mul_of_pos_right hr (Nat.two_pow_pos j)
    rw [Nat.pow_succ] at hpow
    exact .inl (by omega)
  · exact .inr (Dvd.dvd.mul_left (Nat.pow_dvd_pow 2 hkj) r)

/-- A number of at most 24 significant bits is the value of some magnitude. -/
theorem exists_magUnits_eq (j : Nat) : ∀ r, r ≤ 2 ^ 24 → ∃ m, magUnits m = r * 2 ^ j := by
  induction j with
  | zero => exact fun r hr => ⟨0 * 2 ^ 23 + r, magUnits_binade hr (.inl rfl)⟩
  | succ j ih =>
    intro r hr
    rcases Nat.lt_or_ge r (2 ^ 23) with hlow | hhigh
    · obtain ⟨m, hm⟩ := ih (2 * r) (by omega)
      exact ⟨m, by rw [hm]; ring⟩
    · exact ⟨(j + 1) * 2 ^ 23 + r, magUnits_binade hr (.inr hhigh)⟩

/-! ### Rounding to an integer -/

/-- The three ways of rounding a quotient: down below the middle, up above it, to the even neighbour in the middle. -/
theorem roundHalfEven_cases {n d : Nat} (hd : 0 < d) :
    ∃ t, t < d ∧ n = n / d * d + t ∧
      ((2 * t < d ∧ roundHalfEven n d = n / d) ∨ (d < 2 * t ∧ roundHalfEven n d = n / d + 1)
        ∨ (2 * t = d ∧ roundHalfEven n d = n / d + n / d % 2)) := by
  refine ⟨n % d, Nat.mod_lt n hd, (Nat.div_add_mod' n d).symm, ?_⟩
  unfold roundHalfEven
  split_ifs with h1 h2
  · exact .inl ⟨h1, rfl⟩
  · exact .inr (.inl ⟨h2, rfl⟩)
  · exact .inr (.inr ⟨by omega, rfl⟩)

/-- No integer is nearer to `n / d` than the rounded quotient, and an equally near one is the same or the rounded one is
even. -/
theorem roundHalfEven_nearest {n d : Nat} (hd : 0 < d) (y : Nat) :
    ((roundHalfEven n d * d : Int) - n).natAbs ≤ ((y * d : Int) - n).natAbs
      ∧ (((roundHalfEven n d * d : Int) - n).natAbs = ((y * d : Int) - n).natAbs →
          y = roundHalfEven n d ∨ roundHalfEven n d % 2 = 0) := by
  obtain ⟨t, ht, hn, hr⟩ := roundHalfEven_cases (n := n) hd
  generalize hq : n / d = q at hn hr
  have hnext : (q + 1) * d = q * d + d := Nat.succ_mul q d
  have hy : y = q ∨ y = q + 1 ∨ y * d + d ≤ q * d ∨ (q + 1) * d + d ≤ y * d := by
    rcases lt_trichotomy y q with h | h | h
    · exact .inr (.inr (.inl (by simpa [Nat.succ_mul] using Nat.mul_le_mul_right d h)))
    · exact .inl h
    · rcases Nat.eq_or_lt_of_le h with h | h
      · exact .inr (.inl h.symm)
      · exact .inr (.inr (.inr (by simpa [Nat.succ_mul] using Nat.mul_le_mul_right d h)))
  have hround : roundHalfEven n d = q ∨ roundHalfEven n d = q + 1 := by omega
  rw [← Int.natCast_mul, ← Int.natCast_mul]
  rcases hround with h | h
  · rw [h] at hr ⊢
    rcases hy with rfl | rfl | hy | hy <;> omega
  · rw [h] at hr ⊢
    rcases hy with rfl | rfl | hy | hy <;> omega

/-- An odd integer's upper neighbour is reached exactly from the midpoint of the two on. -/
theorem succ_le_roundHalfEven_iff {n d p : Nat} (hd : 0 < d) (hp : p % 2 = 1) :
    p + 1 ≤ roundHalfEven n d ↔ (2 * p + 1) * d ≤ 2 * n := by
  obtain ⟨t, ht, hn, hr⟩ := roundHalfEven_cases (n := n) hd
  generalize hq : n / d = q at hn hr
  have hmid : (2 * p + 1) * d = 2 * (p * d) + d := by ring
  rcases lt_trichotomy q p with h | h | h
  · have := Nat.mul_le_mul_right d (Nat.succ_le_of_lt h)
    rw [Nat.succ_mul] at this
    omega
  · subst h
    omega
  · have := Nat.mul_le_mul_right d (Nat.succ_le_of_lt h)
    rw [Nat.succ_mul] at this
    omega

/-- The rounded quotient is not below an integer that the quotient is not below. -/
theorem le_roundHalfEven {n d a : Nat} (hd : 0 < d) (h : a * d ≤ n) : a ≤ roundHalfEven n d := by
  obtain ⟨t, -, -, hr⟩ := roundHalfEven_cases (n := n) hd
  have := (Nat.le_div_iff_mul_le hd).2 h
  omega

/-- The rounded quotient is not above an integer that the quotient is below. -/
theorem roundHalfEven_le {n d b : Nat} (hd : 0 < d) (h : n < b * d) : roundHalfEven n d ≤ b := by
  obtain ⟨t, -, -, hr⟩ := roundHalfEven_cases (n := n) hd
  have := (Nat.div_lt_iff_lt_mul hd).2 h
  omega

/-! ### Rounding to a magnitude -/

/-- Rounding picks the binade of the quotient and rounds the number of its steps to an integer. -/
theorem roundMag_binade (num : Nat) {den : Nat} (hd : 0 < den) :
    ∃ k, roundMag num den = min (k * 2 ^ 23 + roundHalfEven num (den * 2 ^ k)) F32.infMag
      ∧ (k = 0 ∨ 2 ^ 23 * (den * 2 ^ k) ≤ num) ∧ num < 2 ^ 24 * (den * 2 ^ k) := by
  refine ⟨Nat.log2 (num / den) - 23, rfl, ?_⟩
  have hsplit (a k : Nat) : 2 ^ a * (den * 2 ^ k) = 2 ^ (a + k) * den := by ring
  rw [hsplit, hsplit, ← Nat.le_div_iff_mul_le hd, ← Nat.div_lt_iff_lt_mul hd]
  constructor
  · by_cases h : Nat.log2 (num / den) ≤ 23
    · exact .inl (by omega)
    · rw [Nat.add_sub_cancel' (by omega)]
      exact .inr (Nat.log2_self_le (by rintro h0; simp [h0] at h))
  · exact Nat.lt_log2_self.trans_le (Nat.pow_le_pow_right (by decide) (by omega))

/-- Rounding overflows exactly from the midpoint past the largest finite number on. -/
theorem roundMag_eq_infMag_iff (num : Nat) {den : Nat} (hd : 0 < den) :
    roundMag num den = F32.infMag ↔ (2 ^ 25 - 1) * (den * 2 ^ 253) ≤ 2 * num := by
  obtain ⟨k, hm, hlo, hhi⟩ := roundMag_binade num hd
  have hstep (j : Nat) : 0 < den * 2 ^ j := Nat.mul_pos hd (Nat.two_pow_pos j)
  have hr := roundHalfEven_le (hstep k) hhi
  have hcarry : roundMag num den = F32.infMag ↔ 255 * 2 ^ 23 ≤ k * 2 ^ 23 + roundHalfEven num (den * 2 ^ k) := by
    rw [hm, min_eq_right_iff]
    rfl
  rw [hcarry]
  rcases lt_trichotomy k 253 with hk | rfl | hk
  · have hle : den * 2 ^ (k + 1) ≤ den * 2 ^ 253 :=
      Nat.mul_le_mul_left den (Nat.pow_le_pow_right (by decide) hk)
    rw [Nat.pow_succ, ← Nat.mul_assoc] at hle
    have := hstep k
    omega
  · have := succ_le_roundHalfEven_iff (n := num) (p := 2 ^ 24 - 1) (hstep 253) (by decide)
    omega
  · have hle : den * 2 ^ (253 + 1) ≤ den * 2 ^ k :=
      Nat.mul_le_mul_left den (Nat.pow_le_pow_right (by decide) hk)
    rw [Nat.pow_succ, ← Nat.mul_assoc] at hle
    have hlo : 2 ^ 23 * (den * 2 ^ k) ≤ num := by omega
    have := le_roundHalfEven (hstep k) hlo
    omega

/-- No magnitude is nearer to `num / den` than a rounded one that did not overflow, and an equally near one is the same
or the rounded one is even: from the start of the binade on by the rounding to an integer, and what lies below that start
is farther than the start is. -/
theorem roundMag_nearest {num den : Nat} (hd : 0 < den) (h : roundMag num den < F32.infMag) (m : Nat) :
    ((magUnits (roundMag num den) * den : Int) - num).natAbs ≤ ((magUnits m * den : Int) - num).natAbs
      ∧ (((magUnits (roundMag num den) * den : Int) - num).natAbs = ((magUnits m * den : Int) - num).natAbs →
          m = roundMag num den ∨ roundMag num den % 2 = 0) := by
  obtain ⟨k, hm, hlo, hhi⟩ := roundMag_binade num hd
  have hstep : 0 < den * 2 ^ k := Nat.mul_pos hd (Nat.two_pow_pos k)
  have hr : k = 0 ∨ 2 ^ 23 ≤ roundHalfEven num (den * 2 ^ k) := hlo.imp_right (le_roundHalfEven hstep)
  replace hm : roundMag num den = k * 2 ^ 23 + roundHalfEven num (den * 2 ^ k) := by omega
  have hu : magUnits (roundMag num den) = roundHalfEven num (den * 2 ^ k) * 2 ^ k := by
    rw [hm, magUnits_binade (roundHalfEven_le hstep hhi) hr]
  have hscale (y : Nat) : ((y * 2 ^ k : Nat) * den : Int) = (y : Int) * (den * 2 ^ k : Nat) := by
    push_cast
    ring
  have hnear := fun y => roundHalfEven_nearest (n := num) hstep y
  have heven : roundHalfEven num (den * 2 ^ k) % 2 = 0 → roundMag num den % 2 = 0 := by omega
  by_cases hdvd : 2 ^ k ∣ magUnits m
  · obtain ⟨y, hy⟩ := hdvd
    rw [Nat.mul_comm] at hy
    rw [hu, hy, hscale, hscale]
    refine ⟨(hnear y).1, fun heq => ((hnear y).2 heq).imp (fun hyr => ?_) heven⟩
    exact magUnits_strictMono.injective (by rw [hu, hy, hyr])
  · have hbelow := (magUnits_below_or_dvd k m).resolve_right hdvd
    have hlo : 2 ^ 23 * (den * 2 ^ k) ≤ num := hlo.resolve_left (by rintro rfl; simp at hdvd)
    have hlt : magUnits m * den < 2 ^ 23 * (den * 2 ^ k) := by
      calc magUnits m * den < 2 ^ 23 * 2 ^ k * den := Nat.mul_lt_mul_of_pos_right hbelow hd
        _ = 2 ^ 23 * (den * 2 ^ k) := by ring
    have hstart := (hnear (2 ^ 23)).1
    rw [← hscale, ← hu] at hstart
    have hfar : ((magUnits (roundMag num den) * den : Int) - num).natAbs < ((magUnits m * den : Int) - num).natAbs := by
      refine hstart.trans_lt ?_
      rw [← Int.natCast_mul (magUnits m), ← Int.natCast_mul (2 ^ 23)]
      omega
    exact ⟨hfar.le, fun heq => absurd heq hfar.ne⟩

/-- A quotient that is the value of a finite magnitude is rounded to it. -/
theorem roundMag_magUnits {m den : Nat} (hd : 0 < den) (hm : m < F32.infMag) :
    roundMag (magUnits m * den) den = m := by
  have hfin : roundMag (magUnits m * den) den < F32.infMag := by
    refine lt_of_le_of_ne (roundMag_le _ _) fun hinf => ?_
    rw [roundMag_eq_infMag_iff _ hd] at hinf
    have hmax : magUnits m ≤ magUnits (253 * 2 ^ 23 + (2 ^ 24 - 1)) :=
      magUnits_strictMono.monotone (Nat.le_of_lt_succ hm)
    rw [magUnits_binade (by decide) (.inr (by decide))] at hmax
    have hle : magUnits m * den ≤ (2 ^ 24 - 1) * (den * 2 ^ 253) := by
      calc magUnits m * den ≤ (2 ^ 24 - 1) * 2 ^ 253 * den := Nat.mul_le_mul_right den hmax
        _ = (2 ^ 24 - 1) * (den * 2 ^ 253) := by ring
    have hstep : 0 < den * 2 ^ 253 := Nat.mul_pos hd (Nat.two_pow_pos 253)
    omega
  have hzero := (roundMag_nearest hd hfin m).1
  rw [Int.natCast_mul, sub_self, Int.natAbs_zero, Nat.le_zero, Int.natAbs_eq_zero, sub_eq_zero] at hzero
  exact magUnits_strictMono.injective (Nat.eq_of_mul_eq_mul_right hd (by exact_mod_cast hzero))

end Sys2Proof.Machine
end

section
/-! SUPPORT. Binary32 words by their sign and magnitude (R16; log 15): the classes, the fields, what `neg` and `pack` do,
and the order of the values. -/

namespace Sys2Proof.Machine

/-! ### Sign and magnitude -/

theorem toNat_eq_sign_add_mag (a : Word) : a.toNat = (if F32.neg? a then 2 ^ 31 else 0) + F32.mag a := by
  have := a.isLt
  rw [F32.neg?, BitVec.msb_eq_decide, F32.mag]
  split_ifs with h <;> simp only [decide_eq_true_eq] at h <;> omega

/-- A word is its sign and its magnitude. -/
theorem eq_of_neg?_of_mag {a b : Word} (hs : F32.neg? a = F32.neg? b) (hm : F32.mag a = F32.mag b) : a = b := by
  apply BitVec.eq_of_toNat_eq
  rw [toNat_eq_sign_add_mag, toNat_eq_sign_add_mag b, hs, hm]

theorem neg?_pack (s : Bool) {m : Nat} (h : m < 2 ^ 31) : F32.neg? (F32.pack s m) = s := by
  rw [F32.neg?, BitVec.msb_eq_decide, F32.pack, BitVec.toNat_ofNat]
  cases s <;> simp <;> omega

theorem pack_neg?_mag (a : Word) : F32.pack (F32.neg? a) (F32.mag a) = a :=
  eq_of_neg?_of_mag (neg?_pack _ (mag_lt a)) (mag_pack _ (mag_lt a))

theorem roundMag_lt (num den : Nat) : roundMag num den < 2 ^ 31 :=
  (roundMag_le num den).trans_lt (by decide)

@[simp] theorem mag_pack_roundMag (s : Bool) (num den : Nat) :
    F32.mag (F32.pack s (roundMag num den)) = roundMag num den := mag_pack s (roundMag_lt num den)

@[simp] theorem neg?_pack_roundMag (s : Bool) (num den : Nat) : F32.neg? (F32.pack s (roundMag num den)) = s :=
  neg?_pack s (roundMag_lt num den)

@[simp] theorem neg?_neg (a : Word) : F32.neg? (F32.neg a) = !F32.neg? a := by
  rw [F32.neg?, F32.neg, BitVec.msb_xor, show BitVec.msb negZero = true from rfl, Bool.xor_true, F32.neg?]

@[simp] theorem mag_neg (a : Word) : F32.mag (F32.neg a) = F32.mag a := by
  rw [F32.mag, F32.neg, BitVec.toNat_xor, Nat.xor_mod_two_pow, show negZero.toNat % 2 ^ 31 = 0 from rfl, Nat.xor_zero,
    F32.mag]

@[simp] theorem isNaN_neg (a : Word) : F32.isNaN (F32.neg a) = F32.isNaN a := by simp [F32.isNaN]
@[simp] theorem isInf_neg (a : Word) : F32.isInf (F32.neg a) = F32.isInf a := by simp [F32.isInf]
@[simp] theorem isFinite_neg (a : Word) : F32.isFinite (F32.neg a) = F32.isFinite a := by simp [F32.isFinite]

@[simp] theorem value_neg (a : Word) : F32.value (F32.neg a) = -F32.value a := by
  simp only [F32.value, units_eq_magUnits, mag_neg, neg?_neg]
  cases F32.neg? a <;> simp

theorem natAbs_value (a : Word) : (F32.value a).natAbs = magUnits (F32.mag a) := by
  rw [F32.value, units_eq_magUnits]
  split_ifs <;> simp

theorem value_eq_zero_iff {a : Word} : F32.value a = 0 ↔ F32.mag a = 0 := by
  rw [← Int.natAbs_eq_zero, natAbs_value, magUnits_eq_zero_iff]

theorem decide_value_neg {a : Word} (h : F32.value a ≠ 0) : decide (F32.value a < 0) = F32.neg? a := by
  unfold F32.value at h ⊢
  cases hs : F32.neg? a with
  | false => simp
  | true =>
    simp only [hs, if_true, decide_eq_true_eq] at h ⊢
    omega

/-! ### Classes -/

theorem isFinite_iff {a : Word} : F32.isFinite a = true ↔ F32.isNaN a = false ∧ F32.isInf a = false := by
  simp only [F32.isFinite, F32.isNaN, F32.isInf, decide_eq_true_eq, decide_eq_false_iff_not, beq_eq_false_iff_ne]
  omega

theorem isNaN_of_isInf {a : Word} (h : F32.isInf a = true) : F32.isNaN a = false := by
  simp only [F32.isInf, F32.isNaN, beq_iff_eq] at *
  simp [h]

theorem isZero_of_isInf {a : Word} (h : F32.isInf a = true) : F32.isZero a = false := by
  simp only [F32.isInf, F32.isZero, beq_iff_eq] at *
  simp [h, F32.infMag]

theorem isInf_pack_infMag (s : Bool) : F32.isInf (F32.pack s F32.infMag) = true := by cases s <;> rfl

theorem isZero_pack_zero (s : Bool) : F32.isZero (F32.pack s 0) = true := by cases s <;> rfl

theorem neg?_pack_infMag (s : Bool) : F32.neg? (F32.pack s F32.infMag) = s := neg?_pack s (by decide)

/-- A quiet NaN has all ones in its exponent and in bit 22 (R18). -/
theorem extractLsb'_quietNaN (free : BitVec 23) : (quietNaN free).extractLsb' 22 9 = 0x1FF#9 := by
  apply BitVec.eq_of_toNat_eq
  have := (free.extractLsb' 0 22).isLt
  rw [BitVec.extractLsb'_toNat, Nat.shiftRight_eq_div_pow, quietNaN, toNat_append_add, toNat_append_add]
  simp only [BitVec.toNat_ofNat]
  omega

/-! ### Fields -/

section Fields

variable (w : Word)

/-- The magnitude is the exponent field above the fraction field. -/
theorem mag_eq_fields :
    F32.mag w = (w.extractLsb' 23 8).toNat * 2 ^ 23 + (w.extractLsb' 0 23).toNat := by
  simp only [BitVec.extractLsb'_toNat, Nat.shiftRight_eq_div_pow, F32.mag]
  omega

theorem isNaN_iff_fields :
    F32.isNaN w = true ↔ w.extractLsb' 23 8 = 0xFF#8 ∧ w.extractLsb' 0 23 ≠ 0#23 := by
  have hf := (w.extractLsb' 0 23).isLt
  have he := (w.extractLsb' 23 8).isLt
  simp only [F32.isNaN, F32.infMag, mag_eq_fields, decide_eq_true_eq, ne_eq, ← BitVec.toNat_inj, BitVec.toNat_ofNat]
  omega

theorem isInf_iff_fields :
    F32.isInf w = true ↔ w.extractLsb' 23 8 = 0xFF#8 ∧ w.extractLsb' 0 23 = 0#23 := by
  have hf := (w.extractLsb' 0 23).isLt
  simp only [F32.isInf, F32.infMag, mag_eq_fields, beq_iff_eq, ← BitVec.toNat_inj, BitVec.toNat_ofNat]
  omega

theorem isFinite_iff_fields : F32.isFinite w = true ↔ w.extractLsb' 23 8 ≠ 0xFF#8 := by
  have hf := (w.extractLsb' 0 23).isLt
  have he := (w.extractLsb' 23 8).isLt
  simp only [F32.isFinite, F32.infMag, mag_eq_fields, decide_eq_true_eq, ne_eq, ← BitVec.toNat_inj, BitVec.toNat_ofNat]
  omega

theorem isZero_iff_fields :
    F32.isZero w = true ↔ w.extractLsb' 23 8 = 0#8 ∧ w.extractLsb' 0 23 = 0#23 := by
  simp only [F32.isZero, mag_eq_fields, beq_iff_eq, ← BitVec.toNat_inj, BitVec.toNat_ofNat]
  omega

theorem units_eq_fields :
    F32.units w = if w.extractLsb' 23 8 = 0#8 then (w.extractLsb' 0 23).toNat
      else (2 ^ 23 + (w.extractLsb' 0 23).toNat) * 2 ^ ((w.extractLsb' 23 8).toNat - 1) := by
  have hf := (w.extractLsb' 0 23).isLt
  simp only [F32.units, mag_eq_fields, ← BitVec.toNat_inj, BitVec.toNat_ofNat]
  generalize (w.extractLsb' 23 8).toNat = e at *
  generalize (w.extractLsb' 0 23).toNat = f at *
  by_cases h0 : e = 0
  · rw [if_pos (by omega), if_pos h0, h0]
    omega
  · rw [if_neg (by omega), if_neg h0, show (e * 2 ^ 23 + f) % 2 ^ 23 = f by omega,
      show (e * 2 ^ 23 + f) / 2 ^ 23 = e by omega]

end Fields

/-! ### Order -/

/-- The order of the keys is the order of the values. -/
theorem value_lt_value_iff (a b : Word) : F32.value a < F32.value b ↔ F32.key a < F32.key b := by
  have hlt : magUnits (F32.mag a) < magUnits (F32.mag b) ↔ F32.mag a < F32.mag b := magUnits_strictMono.lt_iff_lt
  have hgt : magUnits (F32.mag b) < magUnits (F32.mag a) ↔ F32.mag b < F32.mag a := magUnits_strictMono.lt_iff_lt
  have ha : magUnits (F32.mag a) = 0 ↔ F32.mag a = 0 := magUnits_eq_zero_iff
  have hb : magUnits (F32.mag b) = 0 ↔ F32.mag b = 0 := magUnits_eq_zero_iff
  simp only [F32.value, F32.key, units_eq_magUnits]
  split_ifs <;> omega

theorem value_le_value_iff (a b : Word) : F32.value a ≤ F32.value b ↔ F32.key a ≤ F32.key b := by
  rw [← not_lt, value_lt_value_iff, not_lt]

/-- The infinities bound the keys of all words that are no NaN. -/
theorem key_bounds {b : Word} (hb : F32.isNaN b = false) :
    -(F32.infMag : Int) ≤ F32.key b ∧ F32.key b ≤ F32.infMag := by
  simp only [F32.isNaN, decide_eq_false_iff_not] at hb
  unfold F32.key
  split_ifs <;> omega

theorem key_eq_infMag_iff {b : Word} : F32.key b = F32.infMag ↔ b = 0x7F800000#32 := by
  refine ⟨fun h => ?_, by rintro rfl; rfl⟩
  unfold F32.key F32.infMag at h
  split_ifs at h with hs
  · omega
  · exact eq_of_neg?_of_mag (Bool.eq_false_iff.2 hs) (by exact_mod_cast h)

theorem key_eq_neg_infMag_iff {b : Word} : F32.key b = -(F32.infMag : Int) ↔ b = 0xFF800000#32 := by
  refine ⟨fun h => ?_, by rintro rfl; rfl⟩
  unfold F32.key F32.infMag at h
  split_ifs at h with hs
  · exact eq_of_neg?_of_mag hs (by exact_mod_cast Int.neg_inj.1 h)
  · omega

/-! ### Comparisons -/

theorem comparisons_of_isNaN {a b : Word} (h : F32.isNaN a = true ∨ F32.isNaN b = true) :
    flt a b = false ∧ fgt a b = false ∧ fle a b = false := by
  rcases h with h | h <;> simp [flt, fgt, fle, h]

theorem comparisons_of_isFinite {a b : Word} (ha : F32.isFinite a = true) (hb : F32.isFinite b = true) :
    (flt a b = true ↔ F32.value a < F32.value b) ∧ (fgt a b = true ↔ F32.value b < F32.value a)
      ∧ (fle a b = true ↔ F32.value a ≤ F32.value b) := by
  have han := (isFinite_iff.1 ha).1
  have hbn := (isFinite_iff.1 hb).1
  simp [fgt, flt_iff, fle_iff, han, hbn, value_lt_value_iff, value_le_value_iff]

theorem comparisons_posInf {b : Word} (hb : F32.isNaN b = false) :
    (flt b 0x7F800000#32 = true ↔ b ≠ 0x7F800000#32) ∧ fle b 0x7F800000#32 = true
      ∧ fgt b 0x7F800000#32 = false ∧ flt 0x7F800000#32 b = false
      ∧ (fgt 0x7F800000#32 b = true ↔ b ≠ 0x7F800000#32)
      ∧ (fle 0x7F800000#32 b = true ↔ b = 0x7F800000#32) := by
  have hbounds := key_bounds hb
  simp only [fgt, Bool.eq_false_iff, flt_iff, fle_iff, hb, show F32.isNaN 0x7F800000#32 = false from rfl,
    show F32.key 0x7F800000#32 = F32.infMag from rfl, true_and, ne_eq, ← key_eq_infMag_iff]
  omega

theorem comparisons_negInf {b : Word} (hb : F32.isNaN b = false) :
    (flt 0xFF800000#32 b = true ↔ b ≠ 0xFF800000#32) ∧ fle 0xFF800000#32 b = true
      ∧ fgt 0xFF800000#32 b = false ∧ flt b 0xFF800000#32 = false
      ∧ (fgt b 0xFF800000#32 = true ↔ b ≠ 0xFF800000#32)
      ∧ (fle b 0xFF800000#32 = true ↔ b = 0xFF800000#32) := by
  have hbounds := key_bounds hb
  simp only [fgt, Bool.eq_false_iff, flt_iff, fle_iff, hb, show F32.isNaN 0xFF800000#32 = false from rfl,
    show F32.key 0xFF800000#32 = -(F32.infMag : Int) from rfl, true_and, ne_eq, ← key_eq_neg_infMag_iff]
  omega

end Sys2Proof.Machine
end

section
/-! SUPPORT. What each binary32 operation gives, by the classes of its operands (R16, R18; log 15). -/

namespace Sys2Proof.Machine

/-! ### Sums and differences -/

theorem F32.add_of_isFinite {a b : Word} (ha : F32.isFinite a = true) (hb : F32.isFinite b = true) :
    F32.add a b = some (F32.pack
      (if F32.value a + F32.value b = 0 then F32.neg? a && F32.neg? b else decide (F32.value a + F32.value b < 0))
      (roundMag (F32.value a + F32.value b).natAbs 1)) := by
  obtain ⟨han, hai⟩ := isFinite_iff.1 ha
  obtain ⟨hbn, hbi⟩ := isFinite_iff.1 hb
  by_cases h0 : F32.value a + F32.value b = 0
  · simp [F32.add, han, hai, hbn, hbi, h0, show roundMag 0 1 = 0 from rfl]
  · simp [F32.add, han, hai, hbn, hbi, h0]

theorem F32.add_of_isInf_left {a b : Word} (ha : F32.isInf a = true) (hb : F32.isNaN b = false)
    (hs : F32.isInf b = true → F32.neg? a = F32.neg? b) : F32.add a b = some a := by
  cases hbi : F32.isInf b <;> simp_all [F32.add, isNaN_of_isInf]

theorem F32.add_of_isInf_right {a b : Word} (ha : F32.isFinite a = true) (hb : F32.isInf b = true) :
    F32.add a b = some b := by
  obtain ⟨han, hai⟩ := isFinite_iff.1 ha
  simp [F32.add, han, hai, hb, isNaN_of_isInf hb]

theorem F32.add_eq_none_iff (a b : Word) :
    F32.add a b = none ↔ F32.isNaN a = true ∨ F32.isNaN b = true
      ∨ (F32.isInf a = true ∧ F32.isInf b = true ∧ F32.neg? a ≠ F32.neg? b) := by
  unfold F32.add
  split_ifs <;> grind

theorem F32.sub_eq_add_neg {a b : Word} (hb : F32.isNaN b = false) : F32.sub a b = F32.add a (F32.neg b) := by
  simp [F32.sub, hb]

theorem F32.sub_of_isFinite {a b : Word} (ha : F32.isFinite a = true) (hb : F32.isFinite b = true) :
    F32.sub a b = some (F32.pack
      (if F32.value a - F32.value b = 0 then F32.neg? a && !F32.neg? b else decide (F32.value a - F32.value b < 0))
      (roundMag (F32.value a - F32.value b).natAbs 1)) := by
  rw [F32.sub_eq_add_neg (isFinite_iff.1 hb).1, F32.add_of_isFinite ha (by rwa [isFinite_neg]), value_neg, neg?_neg,
    Int.sub_eq_add_neg]

theorem F32.sub_eq_none_iff (a b : Word) :
    F32.sub a b = none ↔ F32.isNaN a = true ∨ F32.isNaN b = true
      ∨ (F32.isInf a = true ∧ F32.isInf b = true ∧ F32.neg? a = F32.neg? b) := by
  cases hb : F32.isNaN b with
  | true => simp [F32.sub, hb]
  | false => simp [F32.sub_eq_add_neg hb, F32.add_eq_none_iff, hb]

/-! ### Products -/

theorem F32.mul_comm (a b : Word) : F32.mul a b = F32.mul b a := by
  simp only [F32.mul, Bool.or_comm, Nat.mul_comm, bne_comm]

theorem F32.mul_of_isFinite {a b : Word} (ha : F32.isFinite a = true) (hb : F32.isFinite b = true) :
    F32.mul a b = some (F32.pack (F32.neg? a != F32.neg? b) (roundMag (F32.units a * F32.units b) (2 ^ 149))) := by
  obtain ⟨han, hai⟩ := isFinite_iff.1 ha
  obtain ⟨hbn, hbi⟩ := isFinite_iff.1 hb
  simp [F32.mul, han, hai, hbn, hbi]

theorem F32.mul_of_isInf_left {a b : Word} (ha : F32.isInf a = true) (hb : F32.isNaN b = false)
    (hz : F32.isZero b = false) : F32.mul a b = some (F32.pack (F32.neg? a != F32.neg? b) F32.infMag) := by
  simp [F32.mul, ha, hb, hz, isNaN_of_isInf ha, isZero_of_isInf ha]

theorem F32.mul_eq_none_iff (a b : Word) :
    F32.mul a b = none ↔ F32.isNaN a = true ∨ F32.isNaN b = true
      ∨ (F32.isInf a = true ∧ F32.isZero b = true) ∨ (F32.isZero a = true ∧ F32.isInf b = true) := by
  have ha := isZero_of_isInf (a := a)
  have hb := isZero_of_isInf (a := b)
  unfold F32.mul
  split_ifs <;> grind

/-! ### Quotients -/

theorem F32.div_of_isFinite {a b : Word} (ha : F32.isFinite a = true) (hb : F32.isFinite b = true)
    (hz : F32.isZero b = false) :
    F32.div a b = some (F32.pack (F32.neg? a != F32.neg? b) (roundMag (F32.units a * 2 ^ 149) (F32.units b))) := by
  obtain ⟨han, hai⟩ := isFinite_iff.1 ha
  obtain ⟨hbn, hbi⟩ := isFinite_iff.1 hb
  simp [F32.div, han, hai, hbn, hbi, hz]

theorem F32.div_of_isZero_right {a b : Word} (ha : F32.isFinite a = true) (hb : F32.isFinite b = true)
    (hbz : F32.isZero b = true) (haz : F32.isZero a = false) :
    F32.div a b = some (F32.pack (F32.neg? a != F32.neg? b) F32.infMag) := by
  obtain ⟨han, hai⟩ := isFinite_iff.1 ha
  obtain ⟨hbn, hbi⟩ := isFinite_iff.1 hb
  simp [F32.div, han, hai, hbn, hbi, hbz, haz]

theorem F32.div_of_isInf_left {a b : Word} (ha : F32.isInf a = true) (hb : F32.isFinite b = true) :
    F32.div a b = some (F32.pack (F32.neg? a != F32.neg? b) F32.infMag) := by
  obtain ⟨hbn, hbi⟩ := isFinite_iff.1 hb
  simp [F32.div, ha, isNaN_of_isInf ha, hbn, hbi]

theorem F32.div_of_isInf_right {a b : Word} (ha : F32.isFinite a = true) (hb : F32.isInf b = true) :
    F32.div a b = some (F32.pack (F32.neg? a != F32.neg? b) 0) := by
  obtain ⟨han, hai⟩ := isFinite_iff.1 ha
  simp [F32.div, hb, isNaN_of_isInf hb, han, hai]

theorem F32.div_eq_none_iff (a b : Word) :
    F32.div a b = none ↔ F32.isNaN a = true ∨ F32.isNaN b = true
      ∨ (F32.isInf a = true ∧ F32.isInf b = true) ∨ (F32.isZero a = true ∧ F32.isZero b = true) := by
  have ha := isZero_of_isInf (a := a)
  have hb := isZero_of_isInf (a := b)
  unfold F32.div
  split_ifs <;> grind

/-! ### Results that need no rounding -/

theorem pack_roundMag_units {x : Word} (hx : F32.isFinite x = true) {den : Nat} (hd : 0 < den) :
    F32.pack (F32.neg? x) (roundMag (F32.units x * den) den) = x := by
  rw [units_eq_magUnits, roundMag_magUnits hd (by simpa [F32.isFinite] using hx), pack_neg?_mag]

/-- Adding a zero keeps a finite word, unless both are zeros and the sum's sign differs. -/
theorem F32.add_of_isZero_right {x z : Word} (hx : F32.isFinite x = true) (hz : F32.isZero z = true)
    (hs : F32.value x = 0 → F32.neg? x = true → F32.neg? z = true) : F32.add x z = some x := by
  have hzm : F32.mag z = 0 := by simpa [F32.isZero] using hz
  have hzf : F32.isFinite z = true := by simp [F32.isFinite, hzm, F32.infMag]
  have hsign : (if F32.value x = 0 then F32.neg? x && F32.neg? z else decide (F32.value x < 0)) = F32.neg? x := by
    split_ifs with h0
    · cases hn : F32.neg? x <;> simp_all
    · exact decide_value_neg h0
  rw [F32.add_of_isFinite hx hzf, value_eq_zero_iff.2 hzm, add_zero, hsign, natAbs_value, ← Nat.mul_one (magUnits _),
    ← units_eq_magUnits, pack_roundMag_units hx Nat.one_pos]

theorem F32.add_neg_self {x : Word} (hx : F32.isFinite x = true) : F32.add x (F32.neg x) = some silence := by
  rw [F32.add_of_isFinite hx (by rwa [isFinite_neg]), value_neg, add_neg_cancel, if_pos rfl, neg?_neg, Bool.and_not_self]
  rfl

theorem F32.mul_one {x : Word} (hx : F32.isFinite x = true) : F32.mul x one = some x := by
  rw [F32.mul_of_isFinite hx rfl, show F32.neg? one = false from rfl, show F32.units one = 2 ^ 149 by decide,
    Bool.bne_false, pack_roundMag_units hx (Nat.two_pow_pos 149)]

theorem F32.div_one {x : Word} (hx : F32.isFinite x = true) : F32.div x one = some x := by
  rw [F32.div_of_isFinite hx rfl rfl, show F32.neg? one = false from rfl, show F32.units one = 2 ^ 149 by decide,
    Bool.bne_false, pack_roundMag_units hx (Nat.two_pow_pos 149)]

end Sys2Proof.Machine
end

section
/-! The obligations on the parameters and the binary32 arithmetic of 00_scope.md (R13, R16, R18). -/

namespace Sys2Proof.Machine

/-- Settles O24: a word's units are those of its magnitude, so the nearest magnitude is the nearest word. -/
theorem roundingIsToNearestEven : Obligations.RoundingIsToNearestEven := by
  unfold Obligations.RoundingIsToNearestEven
  intro num den hd
  refine ⟨?_, fun h w _ => ?_⟩
  · rw [roundMag_eq_infMag_iff num hd, show den * (2 ^ 25 - 1) * 2 ^ 253 = (2 ^ 25 - 1) * (den * 2 ^ 253) by ring]
  · rw [units_eq_magUnits, units_eq_magUnits, mag_pack_roundMag]
    exact roundMag_nearest hd h (F32.mag w)

/-- Settles O25: each clause is the rule of the operation for the operands' classes. -/
theorem operationsRoundTheExactResult : Obligations.OperationsRoundTheExactResult := by
  unfold Obligations.OperationsRoundTheExactResult
  refine ⟨fun a b ha hb => ?finite, fun a b ha hb => ?infFinite, fun a b ha hb => ?infInf, fun x hx => ?exact⟩
  case finite =>
    exact ⟨⟨_, F32.add_of_isFinite ha hb, mag_pack_roundMag _ _ _, neg?_pack_roundMag _ _ _⟩,
      ⟨_, F32.sub_of_isFinite ha hb, mag_pack_roundMag _ _ _, neg?_pack_roundMag _ _ _⟩,
      ⟨_, F32.mul_of_isFinite ha hb, mag_pack_roundMag _ _ _, neg?_pack_roundMag _ _ _⟩,
      fun hz => ⟨_, F32.div_of_isFinite ha hb hz, mag_pack_roundMag _ _ _, neg?_pack_roundMag _ _ _⟩,
      fun hz hz' => ⟨_, F32.div_of_isZero_right ha hb hz hz', isInf_pack_infMag _, neg?_pack_infMag _⟩⟩
  case infFinite =>
    obtain ⟨hbn, hbi⟩ := isFinite_iff.1 hb
    refine ⟨?_, ?_, ?_, ?_, ?_, ?_, ?_⟩
    · exact F32.add_of_isInf_left ha hbn (by simp [hbi])
    · exact F32.add_of_isInf_right hb ha
    · rw [F32.sub_eq_add_neg hbn]
      exact F32.add_of_isInf_left ha (by rwa [isNaN_neg]) (by simp [hbi])
    · rw [F32.sub_eq_add_neg (isNaN_of_isInf ha)]
      exact F32.add_of_isInf_right hb (by rwa [isInf_neg])
    · exact ⟨_, F32.div_of_isInf_left ha hb, isInf_pack_infMag _, neg?_pack_infMag _⟩
    · exact ⟨_, F32.div_of_isInf_right hb ha, isZero_pack_zero _, neg?_pack _ (by decide)⟩
    · exact fun hz =>
        ⟨F32.mul_comm a b, _, F32.mul_of_isInf_left ha hbn hz, isInf_pack_infMag _, neg?_pack_infMag _⟩
  case infInf =>
    have hbn := isNaN_of_isInf hb
    refine ⟨fun hs => F32.add_of_isInf_left ha hbn fun _ => hs, fun hs => ?_, ?_⟩
    · rw [F32.sub_eq_add_neg hbn]
      exact F32.add_of_isInf_left ha (by rwa [isNaN_neg]) fun _ => by rw [neg?_neg]; exact Bool.eq_not.2 hs
    · exact ⟨_, F32.mul_of_isInf_left ha hbn (isZero_of_isInf hb), isInf_pack_infMag _, neg?_pack_infMag _⟩
  case exact =>
    refine ⟨fun hne => ?_, ?_, F32.mul_one hx, F32.div_one hx, ?_, F32.add_neg_self hx⟩
    · refine F32.add_of_isZero_right hx rfl fun h0 hs => absurd ?_ hne
      exact eq_of_neg?_of_mag hs (value_eq_zero_iff.1 h0)
    · exact F32.add_of_isZero_right hx rfl fun _ _ => rfl
    · rw [F32.sub_eq_add_neg (isFinite_iff.1 hx).1, F32.add_neg_self hx]

/-- Settles O26: where each operation has no number, and the fields of a drawn NaN. -/
theorem nanResultsAreQuietNans : Obligations.NanResultsAreQuietNans := by
  unfold Obligations.NanResultsAreQuietNans
  refine ⟨fun _ _ _ => ⟨rfl, rfl, rfl, rfl, rfl⟩, fun a b => ?_, rfl, rfl, rfl, rfl, rfl, fun draws => ?_⟩
  · exact ⟨F32.add_eq_none_iff a b, F32.sub_eq_none_iff a b, F32.mul_eq_none_iff a b, F32.div_eq_none_iff a b⟩
  · exact ⟨rfl, isNaN_quietNaN _, extractLsb'_quietNaN _⟩

/-- Settles O27: the classes by the fields, and the comparisons by the order of the keys, which is that of the values. -/
theorem comparisonsFollowTheNumbers : Obligations.ComparisonsFollowTheNumbers := by
  unfold Obligations.ComparisonsFollowTheNumbers
  refine ⟨fun w => ?_, fun a b => comparisons_of_isNaN, fun a b => comparisons_of_isFinite, fun b hb => ?_,
    rfl, rfl, rfl, rfl⟩
  · exact ⟨isNaN_iff_fields w, isInf_iff_fields w, isFinite_iff_fields w, isZero_iff_fields w, units_eq_fields w,
      rfl, rfl⟩
  · obtain ⟨h1, h2, h3, h4, h5, h6⟩ := comparisons_posInf hb
    exact ⟨h1, h2, h3, h4, h5, h6, comparisons_negInf hb⟩

/-- Settles O28: an integer up to 2^24 has at most 24 significant bits, so it is the value of a finite magnitude, and
rounding keeps it. -/
theorem smallIntegersConvertExactly : Obligations.SmallIntegersConvertExactly := by
  unfold Obligations.SmallIntegersConvertExactly
  intro n hn
  obtain ⟨m, hm⟩ := exists_magUnits_eq 149 n hn
  have hfin : m < F32.infMag := by
    rw [← magUnits_strictMono.lt_iff_lt, hm, magUnits_infMag]
    omega
  have hround : roundMag (n * 2 ^ 149) 1 = m := by
    rw [← hm, ← Nat.mul_one (magUnits m), roundMag_magUnits Nat.one_pos hfin]
  have hword : F32.ofNat n = F32.pack false m := by rw [F32.ofNat, hround]
  have hlt : m < 2 ^ 31 := hfin.trans (by decide)
  rw [hword, F32.isFinite, F32.value, neg?_pack _ hlt, units_eq_magUnits, mag_pack _ hlt, hm]
  exact ⟨decide_eq_true hfin, by push_cast; rfl⟩

end Sys2Proof.Machine

namespace Sys2Proof

/-! ### The derived parameter (R13) -/

/-- A setting's delay lies in the history exactly up to `(1000·M − 1) div SR`. -/
theorem delay_le_iff {M SR : Nat} (hM : 1 ≤ M) (hSR : 1 ≤ SR) (d : Nat) :
    d * SR / 1000 ≤ M - 1 ↔ d ≤ (1000 * M - 1) / SR := by
  rw [Nat.le_div_iff_mul_le hSR]
  omega

/-- Settles O30: the settings whose delay lies in the history are those up to the quotient that R13 writes. -/
theorem delayMsMaxIsTheLargestSetting : Obligations.DelayMsMaxIsTheLargestSetting := by
  unfold Obligations.DelayMsMaxIsTheLargestSetting
  intro p hM hSR
  have hle := delay_le_iff hM hSR
  have hone := hle 1
  rw [Nat.one_mul] at hone
  refine ⟨rfl, fun h => ⟨?_, fun d hd => ?_⟩, fun h => ?_⟩
  · rw [hle, Params.delayMsMax, Nat.max_eq_right (hone.1 h)]
  · rw [Params.delayMsMax, Nat.max_lt] at hd
    have := hle d
    omega
  · rw [Params.delayMsMax]
    omega

end Sys2Proof
end

section
/-! SUPPORT. What every command leaves alone: the parameters, the reset input, the commands on the ports with their turns,
and the other ports (R46, R49, R67). -/

namespace Sys2Proof.Machine

/-- `t` is `s` with neither a command consumed nor its turn changed, and with words sent on the granted port alone. -/
structure SameCommands (s t : State) : Prop where
  par : t.par = s.par
  resetIn : t.resetIn = s.resetIn
  grant : t.grant = s.grant
  turn : t.turn = s.turn
  due : t.due = s.due
  rx : ∀ p, (t.wire p).rx = (s.wire p).rx
  others : ∀ p, p ≠ s.grant → t.wire p = s.wire p

theorem SameCommands.trans {s t u : State} (h : SameCommands s t) (h' : SameCommands t u) : SameCommands s u where
  par := h'.par.trans h.par
  resetIn := h'.resetIn.trans h.resetIn
  grant := h'.grant.trans h.grant
  turn := h'.turn.trans h.turn
  due := h'.due.trans h.due
  rx p := (h'.rx p).trans (h.rx p)
  others p hp := (h'.others p (by rwa [h.grant])).trans (h.others p hp)

/-- An update of the block's data and of P_FILE. -/
theorem sameCommands_data (s : State) {rb : Ring} {fb : Filters} {cfg : Cfg} {x : Bool} {file : Wire}
    {w : Option InFlight} {draws : Nat} :
    SameCommands s { s with
      rb := rb, fb := fb, cfg := cfg, fileExhausted := x, file := file, inFlight := w, draws := draws } :=
  ⟨rfl, rfl, rfl, rfl, rfl, fun p => by cases p <;> rfl, fun p _ => by cases p <;> rfl⟩

theorem sameCommands_respond (s : State) (st : Status) (d : List Word) : SameCommands s (s.respond st d) where
  par := s.respond_par st d
  resetIn := s.respond_resetIn st d
  grant := s.respond_grant st d
  turn := s.respond_turn st d
  due := s.respond_due st d
  rx p := by
    rw [State.respond_wire]
    split <;> rfl
  others p hp := by rw [State.respond_wire, if_neg hp]

theorem sameCommands_commit (s : State) (c : Cfg) (st : Status) : SameCommands s (s.commit c st) :=
  (sameCommands_data s).trans (sameCommands_respond _ st [])

theorem sameCommands_respondProcessed (s : State) (snap : Snapshot) (st : Status) (block : List Word) :
    SameCommands s (respondProcessed s snap st block) :=
  (sameCommands_data s).trans (sameCommands_respond _ st _)

theorem sameCommands_renderRing (n : Count) (snap : Snapshot) (s : State) : SameCommands s (renderRing n snap s) := by
  rcases renderRing_cases n snap s with ⟨-, h⟩ | ⟨-, h⟩ <;> rw [h]
  · exact sameCommands_respond s _ _
  · exact (sameCommands_data s).trans (sameCommands_respondProcessed _ _ _ _)

/-- Everything RENDER_FILE does from the answer on (R106). -/
theorem finishFile_cases (r : InFlight) (a : Answer) (s : State) :
    ∃ st, finishFile r a s
        = { s with fileExhausted := s.fileExhausted || a.eos }.respond st
            (a.samples ++ silentBlock (r.n.toNat - a.samples.length))
      ∨ finishFile r a s
        = respondProcessed { s with fileExhausted := s.fileExhausted || a.eos } r.snap st
            (a.samples ++ silentBlock (r.n.toNat - a.samples.length)) := by
  refine ⟨if a.eos then .sourceExhausted else .ok, ?_⟩
  by_cases h : a.samples = []
  · exact .inl (if_pos h)
  · exact .inr (if_neg h)

theorem sameCommands_finishFile (r : InFlight) (a : Answer) (s : State) : SameCommands s (finishFile r a s) := by
  obtain ⟨st, h | h⟩ := finishFile_cases r a s <;> rw [h]
  · exact (sameCommands_data s).trans (sameCommands_respond _ _ _)
  · exact (sameCommands_data s).trans (sameCommands_respondProcessed _ _ _ _)

theorem sameCommands_awaitAnswer (r : InFlight) (s : State) : SameCommands s (awaitAnswer r s) := by
  rcases awaitAnswer_cases r s with ⟨-, h⟩ | ⟨a, -, h⟩ <;> rw [h]
  · exact sameCommands_data s
  · exact (sameCommands_data s).trans (sameCommands_finishFile r a _)

theorem sameCommands_renderFile (n : Count) (snap : Snapshot) (s : State) : SameCommands s (renderFile n snap s) := by
  rcases renderFile_cases n snap s with ⟨-, h⟩ | ⟨-, -, h⟩ | ⟨-, -, h⟩ <;> rw [h]
  · exact sameCommands_respond s _ _
  · exact sameCommands_respond s _ _
  · exact (sameCommands_data s).trans (sameCommands_awaitAnswer _ _)

/-- A command answers on its own port and leaves the other commands alone. -/
theorem sameCommands_exec {i : Instr} {s t : State} (h : exec i s = .next t) : SameCommands s t := by
  cases i with
  | rbWrite samples =>
    rcases execRbWrite_cases samples s with ⟨-, e⟩ | ⟨-, e⟩ <;> cases e.symm.trans h
    · exact sameCommands_respond s _ _
    · exact (sameCommands_data s).trans (sameCommands_respond _ _ _)
  | render n =>
    rcases execRender_cases n s with ⟨-, e⟩ | ⟨-, e⟩ <;> cases e.symm.trans h
    · exact (sameCommands_data s).trans (sameCommands_renderRing _ _ _)
    · exact (sameCommands_data s).trans (sameCommands_renderFile _ _ _)
  | cfgWriteSourceMode v =>
    cases h
    exact (sameCommands_data s).trans (sameCommands_commit _ _ _)
  | cfgWriteEchoEn v | cfgWriteDelayMs v | cfgWriteLpAlpha v | cfgWriteDistEn v | cfgWriteDistGain v
  | cfgWriteReverbEn v =>
    cases h
    exact sameCommands_commit s _ _
  | _ =>
    cases h
    exact sameCommands_respond s _ _

end Sys2Proof.Machine
end

section
/-! SUPPORT. What a command keeps of the block's data (R46, R49): a RENDER the registers, any other command the filter
bank, a waiting RENDER, P_FILE and the draws. -/

namespace Sys2Proof.Machine

@[simp] theorem respondProcessed_cfg (s : State) (snap : Snapshot) (st : Status) (block : List Word) :
    (respondProcessed s snap st block).cfg = s.cfg := State.respond_cfg _ _ _

@[simp] theorem renderRing_cfg (n : Count) (snap : Snapshot) (s : State) : (renderRing n snap s).cfg = s.cfg := by
  rcases renderRing_cases n snap s with ⟨-, h⟩ | ⟨-, h⟩ <;> simp [h]

@[simp] theorem finishFile_cfg (r : InFlight) (a : Answer) (s : State) : (finishFile r a s).cfg = s.cfg := by
  obtain ⟨st, h | h⟩ := finishFile_cases r a s <;> simp [h]

@[simp] theorem awaitAnswer_cfg (r : InFlight) (s : State) : (awaitAnswer r s).cfg = s.cfg := by
  rcases awaitAnswer_cases r s with ⟨-, h⟩ | ⟨a, -, h⟩ <;> simp [h]

@[simp] theorem renderFile_cfg (n : Count) (snap : Snapshot) (s : State) : (renderFile n snap s).cfg = s.cfg := by
  rcases renderFile_cases n snap s with ⟨-, h⟩ | ⟨-, -, h⟩ | ⟨-, -, h⟩ <;> simp [h]

/-- A RENDER leaves the registers alone. -/
theorem execRender_cfg {n : Count} {s t : State} (h : execRender n s = .next t) : t.cfg = s.cfg := by
  rcases execRender_cases n s with ⟨-, e⟩ | ⟨-, e⟩ <;> cases e.symm.trans h <;> simp

/-- What a command that is no RENDER keeps of the block's data, with the commands that change the rest. -/
theorem exec_data {i : Instr} {s t : State} (h : exec i s = .next t) (hi : ∀ n, i ≠ .render n) :
    t.fb = s.fb ∧ t.inFlight = s.inFlight ∧ t.file = s.file ∧ t.draws = s.draws
      ∧ (writesRegister i = false → t.cfg = s.cfg)
      ∧ (i.acceptedOn .ctrl = true → t.rb = s.rb)
      ∧ ((∀ v, i ≠ .cfgWriteSourceMode v) → t.fileExhausted = s.fileExhausted) := by
  cases i with
  | render n => exact absurd rfl (hi n)
  | rbWrite samples =>
    rcases execRbWrite_cases samples s with ⟨-, e⟩ | ⟨-, e⟩ <;> cases e.symm.trans h <;> simp [Instr.acceptedOn]
  | cfgWriteSourceMode v => cases h; simp [writesRegister]
  | cfgWriteEchoEn v | cfgWriteDelayMs v | cfgWriteLpAlpha v | cfgWriteDistEn v | cfgWriteDistGain v
  | cfgWriteReverbEn v => cases h; simp [writesRegister]
  | nop => cases h; simp
  | _ => cases h; simp [State.answerRead]

end Sys2Proof.Machine
end

section
/-! SUPPORT. The block's data stay legal: the ring buffer (R22 to R26), the filter bank (R28 to R34), the registers (R37,
R38, R40) and a waiting RENDER (R99, R106), under each operation of a command. -/

namespace Sys2Proof.Machine

/-! ### The ring buffer -/

/-- The ring's indices as a congruence (R26), and its canonical storage. -/
theorem Ring.legal_iff (C : Nat) (r : Ring) :
    r.legal C = true ↔ r.count ≤ C ∧ r.head < C ∧ r.tail < C ∧ (r.head : Int) - r.tail ≡ r.count [ZMOD C]
      ∧ r.store.wf = true ∧ r.store.within C = true := by
  simp [Ring.legal, Ring.intact, Int.ModEq, and_assoc]

theorem Ring.legal_enqueue {C : Nat} {r : Ring} {samples : List Word} (h : r.legal C = true)
    (hfit : r.count + samples.length ≤ C) : (r.enqueue C samples).legal C = true := by
  rw [Ring.legal_iff] at h ⊢
  obtain ⟨-, hhead, htail, hmod, hwf, hwithin⟩ := h
  have hC : 0 < C := by omega
  refine ⟨hfit, Nat.mod_lt _ hC, htail, ?_, Memory.wf_writeRun _ _ _ hwf, Memory.within_writeRun hC _ _ hwithin⟩
  simp only [Ring.enqueue]
  push_cast
  calc ((r.head : Int) + samples.length) % C - r.tail
      ≡ r.head + samples.length - r.tail [ZMOD C] := (Int.mod_modEq _ _).sub_right _
    _ = r.head - r.tail + samples.length := by ring
    _ ≡ r.count + samples.length [ZMOD C] := hmod.add_right _

theorem Ring.legal_advanceTail {C n : Nat} {r : Ring} (h : r.legal C = true) (hn : n ≤ r.count) :
    Ring.legal C { r with tail := (r.tail + n) % C, count := r.count - n } = true := by
  rw [Ring.legal_iff] at h ⊢
  obtain ⟨hcount, hhead, htail, hmod, hwf, hwithin⟩ := h
  refine ⟨(Nat.sub_le _ _).trans hcount, hhead, Nat.mod_lt _ (by omega), ?_, hwf, hwithin⟩
  push_cast [hn]
  calc (r.head : Int) - (r.tail + n) % C
      ≡ r.head - (r.tail + n) [ZMOD C] := (Int.mod_modEq _ _).sub_left _
    _ = r.head - r.tail - n := by ring
    _ ≡ r.count - n [ZMOD C] := hmod.sub_right _

theorem Ring.legal_reset {C : Nat} (hC : 0 < C) : Ring.reset.legal C = true :=
  (Ring.legal_iff C Ring.reset).2 ⟨Nat.zero_le C, hC, hC, rfl, rfl, rfl⟩

/-! ### The filter bank -/

theorem Filters.legal_iff (p : Params) (f : Filters) :
    f.legal p = true ↔ f.ei < p.M ∧ f.ri = f.ei ∧ (f.eh.wf = true ∧ f.eh.within p.M = true)
      ∧ f.rh.length = p.K ∧ (∀ h ∈ f.rh, h.wf = true ∧ h.within p.M = true) ∧ sameHistories f.rh = true := by
  simp [Filters.legal, and_assoc]

/-- Histories with the same contents have the same contents after the same operation on each. -/
theorem sameHistories_map {hs : List Memory} (g : Memory → Memory) (h : sameHistories hs = true) :
    sameHistories (hs.map g) = true := by
  cases hs with
  | nil => rfl
  | cons a as =>
    simp only [sameHistories, List.map_cons, List.all_map, List.all_eq_true, decide_eq_true_eq, Function.comp_apply] at h ⊢
    exact fun b hb => congrArg g (h b hb)

theorem sameHistories_replicate (n : Nat) (m : Memory) : sameHistories (List.replicate n m) = true := by
  cases n <;> simp [List.replicate_succ, sameHistories]

theorem Filters.legal_reset {p : Params} (hM : 0 < p.M) : (Filters.reset p.K).legal p = true := by
  refine (Filters.legal_iff p _).2 ⟨hM, rfl, ⟨rfl, rfl⟩, List.length_replicate, fun m hm => ?_,
    sameHistories_replicate p.K []⟩
  rw [List.eq_of_mem_replicate hm]
  exact ⟨rfl, rfl⟩

section Stages

variable {p : Params} {f : Filters}

theorem legal_lowpass (a x : Word) (draws : Nat) (h : f.legal p = true) :
    (lowpass a x f draws).fb.legal p = true := by
  unfold lowpass
  split <;> exact h

theorem legal_echo (D : Nat) (x : Word) (draws : Nat) (h : f.legal p = true) :
    (echo p D x f draws).fb.legal p = true := by
  rw [Filters.legal_iff] at h ⊢
  obtain ⟨hcursor, hsame, ⟨hwf, hwithin⟩, hrest⟩ := h
  exact ⟨hcursor, hsame, ⟨Memory.wf_write _ _ (Memory.wf_write _ _ hwf),
    Memory.within_write _ _ hcursor (Memory.within_write _ _ hcursor hwithin)⟩, hrest⟩

theorem legal_reverb (taps : List Tap) (x : Word) (draws : Nat) (h : f.legal p = true) :
    (reverb p taps x f draws).fb.legal p = true := by
  rw [Filters.legal_iff] at h ⊢
  obtain ⟨hcursor, hsame, heh, hlen, hrh, heq⟩ := h
  refine ⟨hcursor, hsame, heh, (List.length_map _).trans hlen, fun m hm => ?_, sameHistories_map _ heq⟩
  obtain ⟨m', hm', rfl⟩ := List.mem_map.1 hm
  obtain ⟨hwf, hwithin⟩ := hrh m' hm'
  exact ⟨Memory.wf_write _ _ hwf, Memory.within_write _ _ (hsame ▸ hcursor) hwithin⟩

theorem legal_advanceCursors (h : f.legal p = true) : (advanceCursors p.M f).legal p = true := by
  rw [Filters.legal_iff] at h ⊢
  obtain ⟨hcursor, hsame, hrest⟩ := h
  exact ⟨Nat.mod_lt _ (by omega), by rw [advanceCursors, hsame], hrest⟩

/-- A stage that keeps the filter bank legal may be switched off. -/
theorem legal_switched {stage : Word → Filters → Nat → Flow} (on : Bool) {a : Flow}
    (hstage : (stage a.y a.fb a.draws).fb.legal p = true) (ha : a.fb.legal p = true) :
    (if on then stage a.y a.fb a.draws else bypass a.y a.fb a.draws).fb.legal p = true := by
  split
  · exact hstage
  · exact ha

theorem legal_processSample (snap : Snapshot) (x : Word) (draws : Nat) (h : f.legal p = true) :
    (processSample p snap x f draws).fb.legal p = true := by
  have hecho := legal_switched (stage := echo p snap.delay) snap.cfg.echoEnabled
    (legal_echo _ _ _ (legal_lowpass snap.cfg.lowpassAlpha x draws h)) (legal_lowpass _ _ _ h)
  have hreverb := legal_switched (stage := reverb p snap.taps) snap.cfg.reverbEnabled
    (legal_reverb _ _ _ hecho) hecho
  exact legal_advanceCursors (legal_switched (stage := distort p snap.cfg.distortionGain) _ hreverb hreverb)

theorem legal_processBlock (snap : Snapshot) (xs : List Word) (draws : Nat) (h : f.legal p = true) :
    (processBlock p snap xs f draws).fb.legal p = true := by
  induction xs generalizing f draws with
  | nil => exact h
  | cons x xs ih => exact ih _ (legal_processSample snap x draws h)

end Stages

/-! ### The registers -/

theorem Cfg.legal_iff (p : Params) (c : Cfg) :
    c.legal p = true ↔ legalDelay p c.delayMs = true ∧ legalAlpha c.lowpassAlpha = true
      ∧ legalGain c.distortionGain = true := by
  simp [Cfg.legal, and_assoc]

/-- A clamped delay is in range: the upper end is committed only where it is below a 32-bit word. -/
theorem legalDelay_clampDelay (p : Params) (v : Word) : legalDelay p (clampDelay p v).1 = true := by
  have hmax : 1 ≤ p.delayMsMax := Nat.le_max_left _ _
  have hlt : s32 v < 2 ^ 31 := BitVec.toInt_lt
  unfold clampDelay
  split_ifs with hlow hhigh <;> simp only [legalDelay, decide_eq_true_eq]
  · rw [show s32 1#32 = 1 from rfl]
    omega
  · have hword : s32 (zext p.delayMsMax) = p.delayMsMax := by
      rw [s32, zext, BitVec.toInt_eq_toNat_of_lt] <;> rw [BitVec.toNat_ofNat] <;> omega
    omega
  · omega

theorem legalAlpha_clampAlpha (v : Word) : legalAlpha (clampAlpha v).1 = true := by
  unfold clampAlpha
  split_ifs with hnan hneg hone hzero
  · rfl
  · rfl
  · rfl
  · rfl
  · have hnan : F32.isNaN v = false := by simpa using hnan
    have hlow : fle silence v = true := fle_of_not_flt rfl hnan (by simpa using hneg)
    have hhigh : fle v one = true := fle_of_not_flt hnan rfl (by simpa [fgt] using hone)
    simp [legalAlpha, hlow, hhigh, hzero]

theorem legalGain_clampGain (v : Word) : legalGain (clampGain v).1 = true := by
  unfold clampGain
  split_ifs with hnan hneg hzero
  · rfl
  · rfl
  · rfl
  · have hlow : fle silence v = true := fle_of_not_flt rfl (by simpa using hnan) (by simpa using hneg)
    simp [legalGain, hlow, hzero]

theorem Cfg.legal_reset (p : Params) : Cfg.reset.legal p = true := by
  have hmax : 1 ≤ p.delayMsMax := Nat.le_max_left _ _
  rw [Cfg.legal_iff]
  refine ⟨?_, rfl, rfl⟩
  simpa [legalDelay, Cfg.reset, s32] using hmax

/-! ### A waiting RENDER -/

@[simp] theorem length_tapsFrom (B : Word) (D t k draws : Nat) : (tapsFrom B D t k draws).1.length = k := by
  induction k generalizing t draws with
  | zero => rfl
  | succ k ih => simp [tapsFrom, ih]

theorem InFlight.legal_takeSnapshot {p : Params} {c : Cfg} {n : Count} (draws : Nat) (hn : n ≠ 0#24)
    (hmode : c.sourceMode = .file) : InFlight.legal p c { n := n, snap := (takeSnapshot p c draws).1 } = true := by
  simp [InFlight.legal, takeSnapshot, hn, hmode]

/-! ### The state -/

theorem pos_of_legalParams {p : Params} (h : legalParams p = true) : 0 < p.C ∧ 0 < p.M := by
  simp only [legalParams, Bool.and_eq_true, decide_eq_true_eq] at h
  omega

/-- The part of the invariant between commands that is about the block's data. -/
structure State.Legal (s : State) : Prop where
  par : legalParams s.par = true
  rb : s.rb.legal s.par.C = true
  fb : s.fb.legal s.par = true
  cfg : s.cfg.legal s.par = true
  waiting : ∀ r, s.inFlight = some r → r.legal s.par s.cfg = true ∧ s.fileExhausted = false

theorem State.inv_iff (s : State) : s.inv = true ↔ s.Legal ∧ s.oneOutstanding = true ∧ s.fair = true := by
  simp only [State.inv, Bool.and_eq_true]
  constructor
  · rintro ⟨⟨⟨⟨⟨⟨hpar, hrb⟩, hfb⟩, hcfg⟩, hwait⟩, hone⟩, hfair⟩
    refine ⟨⟨hpar, hrb, hfb, hcfg, fun r hr => ?_⟩, hone, hfair⟩
    simpa [hr] using hwait
  · rintro ⟨⟨hpar, hrb, hfb, hcfg, hwait⟩, hone, hfair⟩
    refine ⟨⟨⟨⟨⟨⟨hpar, hrb⟩, hfb⟩, hcfg⟩, ?_⟩, hone⟩, hfair⟩
    cases hr : s.inFlight with
    | none => rfl
    | some r => simpa using hwait r hr

section Operations

variable {s t : State}

/-- What the ports hold is no part of the block's data. -/
theorem legal_congr (h : s.Legal) (hpar : t.par = s.par) (hrb : t.rb = s.rb) (hfb : t.fb = s.fb) (hcfg : t.cfg = s.cfg)
    (hwait : t.inFlight = s.inFlight) (hsrc : t.fileExhausted = s.fileExhausted) : t.Legal := by
  obtain ⟨h1, h2, h3, h4, h5⟩ := h
  exact ⟨by rwa [hpar], by rwa [hpar, hrb], by rwa [hpar, hfb], by rwa [hpar, hcfg], by rwa [hpar, hcfg, hwait, hsrc]⟩

theorem legal_respond (h : s.Legal) (st : Status) (d : List Word) : (s.respond st d).Legal :=
  legal_congr h (s.respond_par st d) (s.respond_rb st d) (s.respond_fb st d) (s.respond_cfg st d) (s.respond_inFlight st d)
    (s.respond_fileExhausted st d)

theorem legal_takeFrom (h : s.Legal) (p : Port) (rest : List Word) : (s.takeFrom p rest).Legal :=
  legal_congr h (s.takeFrom_par p rest) (s.takeFrom_rb p rest) (s.takeFrom_fb p rest) (s.takeFrom_cfg p rest)
    (s.takeFrom_inFlight p rest) (s.takeFrom_fileExhausted p rest)

theorem legal_respondProcessed (h : s.Legal) (snap : Snapshot) (st : Status) (block : List Word) :
    (respondProcessed s snap st block).Legal := by
  refine legal_respond ?_ _ _
  exact ⟨h.par, h.rb, legal_processBlock snap block s.draws h.fb, h.cfg, h.waiting⟩

theorem legal_renderRing (h : s.Legal) (n : Count) (snap : Snapshot) : (renderRing n snap s).Legal := by
  rcases renderRing_cases n snap s with ⟨-, e⟩ | ⟨hn, e⟩ <;> rw [e]
  · exact legal_respond h _ _
  · refine legal_respondProcessed ?_ _ _ _
    exact ⟨h.par, Ring.legal_advanceTail h.rb hn, h.fb, h.cfg, h.waiting⟩

theorem legal_finishFile (h : s.Legal) (hidle : s.inFlight = none) (r : InFlight) (a : Answer) :
    (finishFile r a s).Legal := by
  have hx : State.Legal { s with fileExhausted := s.fileExhausted || a.eos } :=
    ⟨h.par, h.rb, h.fb, h.cfg, by simp [hidle]⟩
  obtain ⟨st, e | e⟩ := finishFile_cases r a s <;> rw [e]
  · exact legal_respond hx _ _
  · exact legal_respondProcessed hx _ _ _

theorem legal_awaitAnswer (h : s.Legal) {r : InFlight} (hr : r.legal s.par s.cfg = true)
    (hsrc : s.fileExhausted = false) : (awaitAnswer r s).Legal := by
  rcases awaitAnswer_cases r s with ⟨-, e⟩ | ⟨a, -, e⟩ <;> rw [e]
  · refine ⟨h.par, h.rb, h.fb, h.cfg, ?_⟩
    rintro _ ⟨⟩
    exact ⟨hr, hsrc⟩
  · refine legal_finishFile ?_ rfl r a
    exact ⟨h.par, h.rb, h.fb, h.cfg, nofun⟩

theorem legal_renderFile (h : s.Legal) (n : Count) (snap : Snapshot)
    (hr : n ≠ 0#24 → InFlight.legal s.par s.cfg { n := n, snap := snap } = true) : (renderFile n snap s).Legal := by
  rcases renderFile_cases n snap s with ⟨-, e⟩ | ⟨-, -, e⟩ | ⟨hsrc, hn, e⟩ <;> rw [e]
  · exact legal_respond h _ _
  · exact legal_respond h _ _
  · exact legal_awaitAnswer (s := sendPull n s) ⟨h.par, h.rb, h.fb, h.cfg, h.waiting⟩ (hr hn) hsrc

theorem legal_commit (h : s.Legal) (hidle : s.inFlight = none) {c : Cfg} (hc : c.legal s.par = true) (st : Status) :
    (s.commit c st).Legal :=
  legal_respond (s := { s with cfg := c }) ⟨h.par, h.rb, h.fb, hc, by simp [hidle]⟩ st []

end Operations

/-- Every command keeps the data legal when no RENDER waits. -/
theorem legal_exec {i : Instr} {s t : State} (h : s.Legal) (hidle : s.inFlight = none) (he : exec i s = .next t) :
    t.Legal := by
  obtain ⟨hdelay, halpha, hgain⟩ := (Cfg.legal_iff s.par s.cfg).1 h.cfg
  cases i with
  | rbWrite samples =>
    rcases execRbWrite_cases samples s with ⟨-, e⟩ | ⟨hfit, e⟩ <;> cases e.symm.trans he
    · exact legal_respond h _ _
    · refine legal_respond ?_ _ _
      exact ⟨h.par, Ring.legal_enqueue h.rb hfit, h.fb, h.cfg, h.waiting⟩
  | render n =>
    have hd (draws : Nat) : State.Legal { s with draws := draws } := ⟨h.par, h.rb, h.fb, h.cfg, h.waiting⟩
    rcases execRender_cases n s with ⟨-, e⟩ | ⟨hmode, e⟩ <;> cases e.symm.trans he
    · exact legal_renderRing (hd _) _ _
    · exact legal_renderFile (hd _) _ _ fun hn => InFlight.legal_takeSnapshot _ hn hmode
  | cfgWriteDelayMs v =>
    cases he
    refine legal_commit h hidle ?_ _
    exact (Cfg.legal_iff _ _).2 ⟨legalDelay_clampDelay s.par v, halpha, hgain⟩
  | cfgWriteLpAlpha v =>
    cases he
    refine legal_commit h hidle ?_ _
    exact (Cfg.legal_iff _ _).2 ⟨hdelay, legalAlpha_clampAlpha v, hgain⟩
  | cfgWriteDistGain v =>
    cases he
    refine legal_commit h hidle ?_ _
    exact (Cfg.legal_iff _ _).2 ⟨hdelay, halpha, legalGain_clampGain v⟩
  | cfgWriteSourceMode v =>
    cases he
    have hrearmed : State.Legal { s with fileExhausted := false } := ⟨h.par, h.rb, h.fb, h.cfg, by simp [hidle]⟩
    refine legal_commit hrearmed hidle ?_ _
    exact h.cfg
  | cfgWriteEchoEn v | cfgWriteDistEn v | cfgWriteReverbEn v =>
    cases he
    refine legal_commit h hidle ?_ _
    exact h.cfg
  | _ =>
    cases he
    exact legal_respond h _ _

theorem legal_applyReset (s : State) (h : legalParams s.par = true) : s.applyReset.Legal := by
  obtain ⟨hC, hM⟩ := pos_of_legalParams h
  exact ⟨h, Ring.legal_reset hC, Filters.legal_reset hM, Cfg.legal_reset s.par, nofun⟩

end Sys2Proof.Machine
end

section
/-! SUPPORT. One command a port, and the turns (R47, R62). -/

namespace Sys2Proof.Machine

theorem Port.mem_all (p : Port) : p ∈ Port.all := by cases p <;> decide

theorem wholeFrame_iff (ws : List Word) : wholeFrame ws = true ↔ nextFrame ws = some (ws, []) := decide_eq_true_iff

theorem State.oneOutstanding_iff (s : State) :
    s.oneOutstanding = true ↔ (∀ p, (s.wire p).rx = [] ∨ wholeFrame (s.wire p).rx = true)
      ∧ (s.inFlight ≠ none → (s.wire s.grant).rx = []) := by
  simp only [State.oneOutstanding, Bool.and_eq_true, List.all_eq_true, Port.mem_all, true_imp_iff, Bool.or_eq_true,
    decide_eq_true_eq, Option.isNone_iff_eq_none, or_iff_not_imp_left (a := s.inFlight = none), ne_eq]

theorem State.fair_iff (s : State) :
    s.fair = true ↔ ∀ p, s.ready p = true → s.turn + Port.all.countP (s.ahead p) ≤ s.due.get p + 2 := by
  simp only [State.fair, List.all_eq_true, Port.mem_all, true_imp_iff, Bool.or_eq_true, Bool.not_eq_true', decide_eq_true_eq,
    ← Bool.not_eq_true, or_iff_not_imp_left, not_not]

theorem State.ahead_iff (s : State) (p q : Port) :
    s.ahead p q = true ↔ s.ready q = true
      ∧ (s.due.get q < s.due.get p ∨ s.due.get q = s.due.get p ∧ q.rank < p.rank) := by
  simp [State.ahead]

@[simp] theorem State.ahead_self (s : State) (p : Port) : s.ahead p p = false := by simp [State.ahead]

theorem State.ready_eq_false {s : State} {p : Port} (h : (s.wire p).rx = []) : s.ready p = false := by
  simp [State.ready, h, nextFrame]

/-- A count of less that leaves out a member is smaller. -/
theorem countP_lt_countP {α : Type} [DecidableEq α] {f g : α → Bool} {l : List α} {a : α} (ha : a ∈ l)
    (hle : ∀ x, f x = true → g x = true) (hf : f a = false) (hg : g a = true) : l.countP f < l.countP g := by
  have hothers : l.countP f ≤ l.countP g - 1 := by
    simpa [List.countP_erase, ha, hf, hg] using List.countP_mono_left (l := l.erase a) fun x _ => hle x
  have hpos : 0 < l.countP g := List.countP_pos_iff.2 ⟨a, ha, hg⟩
  omega

/-- At most the two other ports' commands go before a port's. -/
theorem State.countP_ahead_le (s : State) (p : Port) : Port.all.countP (s.ahead p) ≤ 2 :=
  Nat.le_of_lt_succ (List.countP_lt_length_iff.2 ⟨p, Port.mem_all p, s.ahead_self p⟩)

/-- The arbitration looks at the ports' words, the turns and the count of commands taken, and at nothing else. -/
theorem SameCommands.fair {s t : State} (h : SameCommands s t) (hs : s.fair = true) : t.fair = true := by
  have hready : t.ready = s.ready := funext fun p => by rw [State.ready, h.rx, State.ready]
  have hahead : t.ahead = s.ahead := by
    funext p q
    rw [State.ahead, hready, h.due, State.ahead]
  rw [State.fair_iff] at hs ⊢
  rwa [hready, hahead, h.turn, h.due]

theorem SameCommands.oneOutstanding {s t : State} (h : SameCommands s t) (hs : s.oneOutstanding = true)
    (hg : (s.wire s.grant).rx = []) : t.oneOutstanding = true := by
  rw [State.oneOutstanding_iff] at hs ⊢
  exact ⟨fun p => by rw [h.rx]; exact hs.1 p, fun _ => by rw [h.rx, h.grant, hg]⟩

theorem oneOutstanding_takeFrom {s : State} (hs : s.oneOutstanding = true) (p : Port) :
    (s.takeFrom p []).oneOutstanding = true := by
  rw [State.oneOutstanding_iff] at hs ⊢
  refine ⟨fun q => ?_, fun _ => by rw [State.takeFrom_wire, State.takeFrom_grant, if_pos rfl]⟩
  rw [State.takeFrom_wire]
  split
  · exact .inl rfl
  · exact hs.1 q

/-- Serving the earliest command leaves one command fewer before each other. -/
theorem fair_takeFrom {s : State} {p : Port} (hs : s.fair = true) (hp : s.pick = some p) :
    (s.takeFrom p []).fair = true := by
  obtain ⟨-, -, hbest⟩ : Best s (fun _ => True) (some p) := hp ▸ best_pick s
  have hready (q : Port) : (s.takeFrom p []).ready q = true ↔ q ≠ p ∧ s.ready q = true := by
    unfold State.ready
    rw [State.takeFrom_wire]
    split <;> simp_all [nextFrame]
  rw [State.fair_iff] at hs ⊢
  intro q hq
  obtain ⟨hne, hq⟩ := (hready q).1 hq
  have hcount : Port.all.countP ((s.takeFrom p []).ahead q) < Port.all.countP (s.ahead q) := by
    refine countP_lt_countP (Port.mem_all p) (fun r hr => ?_) ?_ (hbest q trivial hne hq)
    · rw [State.ahead_iff, hready, State.takeFrom_due] at hr
      exact (s.ahead_iff q r).2 ⟨hr.1.2, hr.2⟩
    · rw [Bool.eq_false_iff, ne_eq, State.ahead_iff, hready]
      exact fun h => h.1.1 rfl
  have := hs q hq
  rw [State.takeFrom_turn, State.takeFrom_due]
  omega

/-- A whole frame is taken with no word left after it (R55, R70). -/
theorem oneOutstanding_nextFrame {s : State} {p : Port} {frame rest : List Word} (hs : s.oneOutstanding = true)
    (h : nextFrame (s.wire p).rx = some (frame, rest)) : rest = [] := by
  rcases ((State.oneOutstanding_iff s).1 hs).1 p with hnil | hwhole
  · rw [hnil] at h
    cases h
  · rw [(wholeFrame_iff _).1 hwhole] at h
    cases h
    rfl

theorem oneOutstanding_place {s : State} {p : Port} {frame : List Word} (hs : s.oneOutstanding = true)
    (hfree : s.free p = true) (hframe : wholeFrame frame = true) : (s.place p frame).oneOutstanding = true := by
  rw [State.oneOutstanding_iff] at hs ⊢
  obtain ⟨-, hgrant⟩ := (s.free_iff p).1 hfree
  constructor
  · intro q
    rw [State.place_wire]
    split
    · exact .inr hframe
    · exact hs.1 q
  · intro hwait
    rw [State.place_inFlight] at hwait
    rw [State.place_wire, State.place_grant, if_neg (hgrant hwait)]
    exact hs.2 hwait

/-- A new command's turn is not before the present one, so the commands it goes before are not overdue. -/
theorem fair_place {s : State} {p : Port} (hs : s.fair = true) (frame : List Word) :
    (s.place p frame).fair = true := by
  have hready {q : Port} (hne : q ≠ p) : (s.place p frame).ready q = s.ready q := by
    rw [State.ready, State.place_wire, if_neg hne, State.ready]
  have hdue (q : Port) : (s.place p frame).due.get q = if q = p then s.turn + Config.arbiter p s.turn else s.due.get q := by
    rw [State.place_due, Turns.get_set]
  rw [State.fair_iff] at hs ⊢
  intro q hq
  have hcount := (s.place p frame).countP_ahead_le q
  rw [State.place_turn]
  by_cases hlate : s.turn ≤ (s.place p frame).due.get q
  · omega
  have hne : q ≠ p := by
    rintro rfl
    simp at hlate
  have hfewer : Port.all.countP ((s.place p frame).ahead q) ≤ Port.all.countP (s.ahead q) := by
    refine List.countP_mono_left fun r _ hr => ?_
    rw [State.ahead_iff] at hr ⊢
    have hrp : r ≠ p := by
      rintro rfl
      have := hdue r
      rw [if_pos rfl] at this
      omega
    rwa [hready hrp, hdue r, if_neg hrp, hdue q, if_neg hne] at hr
  have := hs q (by rwa [← hready hne])
  rw [hdue q, if_neg hne]
  omega

end Sys2Proof.Machine
end

section
/-! The obligations on the state (10_state.md): the invariant between commands (R26, R30 to R34, R47, R62, R99), reset (R48),
and what each command may change (R46, R49, R67). -/

namespace Sys2Proof.Machine

/-! ### The invariant of every reachable state -/

/-- Reset leaves no command on any port and legal data. -/
theorem inv_applyReset {s : State} (h : legalParams s.par = true) : s.applyReset.inv = true := by
  refine (State.inv_iff _).2 ⟨legal_applyReset s h, ?_, ?_⟩
  · exact (State.oneOutstanding_iff _).2 ⟨fun p => .inl (by simp), by simp⟩
  · refine (State.fair_iff _).2 fun p hp => ?_
    rw [State.ready_eq_false (by simp)] at hp
    cases hp

/-- The state after reset is the one that reset leaves of it. -/
theorem inv_resetWith {p : Params} (h : legalParams p = true) : (State.resetWith p).inv = true :=
  inv_applyReset (s := State.resetWith p) h

theorem legalParams_config : legalParams Config.params = true := by
  have hC := Config.ringCapacityLessOne.isLt
  have hM := Config.historyLengthLessOne.isLt
  have hF : F32.isFinite Config.params.F = true ∧ fle silence Config.params.F = true ∧ flt Config.params.F one = true := by
    decide
  have hB : F32.isFinite Config.params.B = true ∧ fle silence Config.params.B = true := by decide
  have hL : F32.isFinite Config.params.L = true ∧ flt silence Config.params.L = true := by decide
  simp only [legalParams, hF, hB, hL, Bool.and_true, Bool.and_eq_true, decide_eq_true_eq]
  simp only [Config.params]
  omega

/-- The invariant after a command taken from its port, when what it does keeps the data legal and leaves the other commands
alone. -/
theorem inv_of_takeFrom {s t : State} {p : Port} {frame rest : List Word} (hs : s.inv = true) (hpick : s.pick = some p)
    (hframe : nextFrame (s.wire p).rx = some (frame, rest)) (hlegal : t.Legal)
    (hsame : SameCommands (s.takeFrom p rest) t) : t.inv = true := by
  obtain ⟨-, hone, hfair⟩ := s.inv_iff.1 hs
  obtain rfl := oneOutstanding_nextFrame hone hframe
  have hgrant : ((s.takeFrom p []).wire (s.takeFrom p []).grant).rx = [] := by
    rw [State.takeFrom_wire, State.takeFrom_grant, if_pos rfl]
  exact t.inv_iff.2 ⟨hlegal, hsame.oneOutstanding (oneOutstanding_takeFrom hone p) hgrant,
    hsame.fair (fair_takeFrom hfair hpick)⟩

/-- Settles O11: each case of a step keeps the data legal, and leaves the commands as they were or takes the one served. -/
theorem stepKeepsTheInvariant : Obligations.StepKeepsTheInvariant := by
  unfold Obligations.StepKeepsTheInvariant
  intro s t hinv hstep
  obtain ⟨hlegal, hone, hfair⟩ := s.inv_iff.1 hinv
  rcases step_cases s with ⟨-, e⟩ | ⟨-, -, e⟩ | ⟨-, -, r, hwait, e⟩ | ⟨-, -, -, -, e⟩
    | ⟨-, -, hidle, p, frame, rest, i, hpick, hframe, -, e⟩ | ⟨-, -, hidle, p, frame, rest, why, hpick, hframe, -, e⟩
  · -- A broken invariant: the step faults.
    cases e.symm.trans hstep
  · -- Reset.
    cases e.symm.trans hstep
    exact inv_applyReset hlegal.par
  · -- A waiting RENDER.
    cases e.symm.trans hstep
    obtain ⟨hr, hsrc⟩ := hlegal.waiting r hwait
    have hsame := sameCommands_awaitAnswer r s
    have hgrant := ((State.oneOutstanding_iff s).1 hone).2 (by simp [hwait])
    exact (State.inv_iff _).2 ⟨legal_awaitAnswer hlegal hr hsrc, hsame.oneOutstanding hone hgrant, hsame.fair hfair⟩
  · -- No command.
    cases e.symm.trans hstep
    exact hinv
  · -- A command.
    exact inv_of_takeFrom hinv hpick hframe
      (legal_exec (legal_takeFrom hlegal p rest) (by simpa using hidle) (e.symm.trans hstep))
      (sameCommands_exec (e.symm.trans hstep))
  · -- A word that decodes to no command.
    cases e.symm.trans hstep
    exact inv_of_takeFrom hinv hpick hframe (legal_respond (legal_takeFrom hlegal p rest) _ _)
      (sameCommands_respond _ _ _)

theorem inv_send {s : State} (h : s.inv = true) (p : Port) (frame : List Word) : (s.send p frame).inv = true := by
  obtain ⟨hlegal, hone, hfair⟩ := s.inv_iff.1 h
  rcases s.send_cases p frame with ⟨hfree, hframe, e⟩ | ⟨-, e⟩ <;> rw [e]
  · refine (State.inv_iff _).2 ⟨?_, oneOutstanding_place hone hfree hframe, fair_place hfair frame⟩
    exact legal_congr hlegal (s.place_par p frame) (s.place_rb p frame) (s.place_fb p frame) (s.place_cfg p frame)
      (s.place_inFlight p frame) (s.place_fileExhausted p frame)
  · exact h

/-- Every move keeps the invariant: the block's step, and what the outside world does. -/
theorem inv_apply {s : State} (h : s.inv = true) (m : Move) : (m.apply s).inv = true := by
  cases m with
  | step =>
    simp only [Move.apply]
    split
    · exact stepKeepsTheInvariant s _ h ‹_›
    · exact h
    · exact h
  | send p frame => exact inv_send h p frame
  | fileAnswer ws => exact h
  | assertReset => exact h

/-- The invariant holds of every state that a run from reset reaches. -/
theorem inv_of_reachable {p : Params} {s : State} (hp : legalParams p = true) (h : Reachable p s) : s.inv = true := by
  induction h with
  | reset => exact inv_resetWith hp
  | move m s _ ih => exact inv_apply ih m

/-! ### The other obligations on the state -/

/-- Settles O54: each register's clamp gives a legal value. -/
theorem committedValuesAreLegal : Obligations.CommittedValuesAreLegal := by
  unfold Obligations.CommittedValuesAreLegal
  intro s v
  refine ⟨⟨_, rfl, ?_⟩, ⟨_, rfl, ?_⟩, ⟨_, rfl, ?_⟩⟩ <;> rw [State.commit_cfg]
  · exact legalDelay_clampDelay s.par v
  · exact legalAlpha_clampAlpha v
  · exact legalGain_clampGain v

/-- Settles O57: the commands on the ports by `SameCommands`, the data by the kind of command. -/
theorem eachCommandKeepsToItsOwnState : Obligations.EachCommandKeepsToItsOwnState := by
  unfold Obligations.EachCommandKeepsToItsOwnState
  intro i s t h
  obtain ⟨hpar, hreset, hgrant, hturn, hdue, hrx, hothers⟩ := sameCommands_exec h
  refine ⟨hpar, hreset, hgrant, hturn, hdue, hrx, hothers, ?_⟩
  cases i with
  | render n =>
    exact ⟨fun _ => execRender_cfg h, fun hi => absurd rfl (hi n), fun hp => absurd hp Bool.false_ne_true,
      fun hi => absurd rfl (hi n)⟩
  | _ =>
    obtain ⟨hfb, hwait, hfile, hdraws, hcfg, hrb, hsrc⟩ := exec_data h (by simp)
    exact ⟨hcfg, fun _ => ⟨hfb, hwait, hfile, hdraws⟩, hrb, fun _ => hsrc⟩

/-- Settles O58: the invariant of every reachable state, and the two cases of a send. -/
theorem eachPortHoldsAtMostOneCommand : Obligations.EachPortHoldsAtMostOneCommand := by
  unfold Obligations.EachPortHoldsAtMostOneCommand
  refine ⟨fun p s hp hs q => ?reachable, fun s q frame => ⟨fun hframe hrx hwait => ?placed, fun h => ?refused⟩⟩
  case reachable =>
    obtain ⟨-, hone, -⟩ := s.inv_iff.1 (inv_of_reachable hp hs)
    obtain ⟨hframes, hgrant⟩ := s.oneOutstanding_iff.1 hone
    refine ⟨(hframes q).imp_right (wholeFrame_iff _).1, ?_⟩
    rintro hwait rfl
    exact hgrant hwait
  case placed =>
    have e : s.send q frame = s.place q frame := by
      rw [State.send, (s.free_iff q).2 ⟨hrx, hwait⟩, (wholeFrame_iff frame).2 hframe]
      rfl
    rw [e, State.place_due, Turns.get_set, if_pos rfl, State.place_wire, if_pos rfl]
    refine ⟨rfl, Nat.le_add_right _ _, by cases q <;> rfl, fun q' hq' => ?_⟩
    rw [State.place_wire, if_neg hq', Turns.get_set, if_neg hq']
    exact ⟨rfl, rfl⟩
  case refused =>
    rcases s.send_cases q frame with ⟨hfree, hframe, -⟩ | ⟨-, e⟩
    · obtain ⟨hrx, hwait⟩ := (s.free_iff q).1 hfree
      rcases h with h | ⟨h, hgrant⟩ | h
      · exact absurd hrx h
      · exact absurd hgrant (hwait h)
      · exact absurd ((wholeFrame_iff frame).1 hframe) h
    · exact e

/-- Settles O12: the parameters of `State.reset` are legal whatever its open ones are. -/
theorem resetMeetsTheInvariant : Obligations.ResetMeetsTheInvariant := by
  unfold Obligations.ResetMeetsTheInvariant
  exact ⟨inv_resetWith legalParams_config, fun p => inv_resetWith⟩

/-- Settles O14: no slot is listed after reset, and an unlisted slot reads `+0.0`. -/
theorem resetGivesEveryStateItsValue : Obligations.ResetGivesEveryStateItsValue := by
  unfold Obligations.ResetGivesEveryStateItsValue
  intro p
  refine ⟨_, rfl, rfl, fun _ => rfl, rfl, rfl, rfl, rfl, fun _ => rfl, List.length_replicate, fun h hh i => ?_, rfl, rfl,
    rfl, rfl, rfl, rfl, rfl, rfl, rfl, rfl⟩
  rw [List.eq_of_mem_replicate hh]
  rfl

/-- Settles O55: a read is the response with its register's word, SOURCE_MODE's by its two values. -/
theorem readsReturnTheRegisters : Obligations.ReadsReturnTheRegisters := by
  unfold Obligations.ReadsReturnTheRegisters
  intro s
  have hmode : zextBool s.cfg.sourceMode.bit = if s.cfg.sourceMode = .file then 1#32 else 0#32 := by
    cases s.cfg.sourceMode <;> rfl
  refine ⟨rfl, rfl, rfl, rfl, rfl, rfl, ?_, rfl, rfl, rfl, rfl, rfl, rfl, rfl, rfl⟩
  rw [← hmode]
  rfl

end Sys2Proof.Machine
end

section
/-! SUPPORT. What a step does in the states the statements single out (R60, R62): the command of the chosen port, a waiting
RENDER, and what comes of a whole answer. -/

namespace Sys2Proof.Machine

/-! ### The step -/

/-- With no RENDER waiting and reset released, what comes next is the frame of the chosen port. -/
theorem fetch_of_pick {s : State} {p : Port} (hreset : s.resetIn = false) (hintact : s.intact = true)
    (hidle : s.inFlight = none) (hpick : s.pick = some p) : fetch s = fetchFrom s p := by
  simp [fetch, hreset, hintact, hidle, hpick]

theorem fetchFrom_of_command {s : State} {p : Port} {frame rest : List Word} {i : Instr}
    (hframe : nextFrame (s.wire p).rx = some (frame, rest)) (hdecode : decode p frame = .command i) :
    fetchFrom s p = .command i (s.takeFrom p rest) := by
  simp [fetchFrom, hframe, hdecode]

theorem step_of_waiting {s : State} {r : InFlight} (hreset : s.resetIn = false) (hintact : s.intact = true)
    (hwait : s.inFlight = some r) : step s = .next (awaitAnswer r s) := by
  simp [step, fetch, hreset, hintact, hwait]

/-- Taking a frame is the command's own part of the step: the port's words and the model's grant and turn. -/
theorem takeFrom_frame (s : State) (p : Port) (rest : List Word) :
    { s.takeFrom p rest with prod := s.prod, rend := s.rend, ctrl := s.ctrl, grant := s.grant, turn := s.turn } = s := by
  cases p <;> rfl

/-- The response is all that a command's end changes (R71). -/
theorem respond_frame (s : State) (st : Status) (d : List Word) :
    { s.respond st d with prod := s.prod, rend := s.rend, ctrl := s.ctrl } = s := by
  unfold State.respond
  cases s.grant <;> rfl

/-! ### A waiting RENDER -/

theorem awaitAnswer_of_none {r : InFlight} {s : State} (h : receiveAnswer r.n s.file.rx = none) :
    awaitAnswer r s = { s with inFlight := some r } := by
  simp [awaitAnswer, h]

/-- Whether the RENDER waits already is no matter to how it goes on: the field is set, or cleared. -/
theorem awaitAnswer_inFlight (r : InFlight) (s : State) (w : Option InFlight) :
    awaitAnswer r { s with inFlight := w } = awaitAnswer r s := rfl

/-- When an answer is not whole (R107). -/
theorem receiveAnswer_eq_none_iff (n : Count) (rx : List Word) :
    receiveAnswer n rx = none ↔ rx = [] ∨ ∃ r ws, rx = r :: ws ∧ ws.length < min (r.toNat % 2 ^ 24) n.toNat := by
  have hcount (r : Word) : (countOf r).toNat = r.toNat % 2 ^ 24 := by simp [countOf]
  cases rx with
  | nil => simp [receiveAnswer]
  | cons r ws => simp [receiveAnswer, hcount]

/-- A whole answer stays whole when words follow it. -/
theorem receiveAnswer_append_ne_none {n : Count} {rx : List Word} (h : receiveAnswer n rx ≠ none) (ws : List Word) :
    receiveAnswer n (rx ++ ws) ≠ none := by
  simp only [ne_eq, receiveAnswer_eq_none_iff] at h ⊢
  cases rx with
  | nil => simp at h
  | cons r us => simp at h ⊢; omega

/-- A RENDER in FILE mode that pulls (R106): it awaits the answer with the snapshot taken first. -/
theorem exec_render_pull {s : State} {n : Count} (hmode : s.cfg.sourceMode = .file) (hsrc : s.fileExhausted = false)
    (hn : n ≠ 0#24) :
    exec (.render n) s = .next (awaitAnswer { n := n, snap := (takeSnapshot s.par s.cfg s.draws).1 }
      (sendPull n { s with draws := (takeSnapshot s.par s.cfg s.draws).2 })) := by
  rcases execRender_cases n s with ⟨hring, -⟩ | ⟨-, e⟩
  · simp [hmode] at hring
  · rw [show exec (.render n) s = execRender n s from rfl, e, renderFile, if_neg (by simp [hsrc]), if_neg hn]

/-! ### The taps draw no NaN -/

/-- A finite number over a positive integer up to 2^24 is a number. -/
theorem div_ofNat_ne_none {x : Word} (hx : F32.isFinite x = true) {k : Nat} (hpos : 0 < k) (hk : k ≤ 2 ^ 24) :
    F32.div x (F32.ofNat k) ≠ none := by
  obtain ⟨hfin, hval⟩ := smallIntegersConvertExactly k hk
  have hzero : F32.isZero (F32.ofNat k) = false := by
    rw [F32.isZero, beq_eq_false_iff_ne, ne_eq, ← value_eq_zero_iff, hval]
    omega
  simp [F32.div_of_isFinite hx hfin hzero]

theorem tapsFrom_draws {B : Word} (hB : F32.isFinite B = true) (D t k draws : Nat) (h : t + k ≤ 2 ^ 24) :
    (tapsFrom B D t k draws).2 = draws := by
  induction k generalizing t draws with
  | zero => rfl
  | succ k ih =>
    obtain ⟨w, hw⟩ := Option.ne_none_iff_exists'.1 (div_ofNat_ne_none hB (Nat.succ_pos t) (by omega))
    simp only [tapsFrom, fdiv, hw, settle_some]
    exact ih (t + 1) draws (by omega)

/-- With legal parameters a snapshot draws no NaN: the base decay is finite and the taps few (R8, R11, R87). -/
theorem takeSnapshot_draws {p : Params} (hp : legalParams p = true) (c : Cfg) (draws : Nat) :
    (takeSnapshot p c draws).2 = draws := by
  simp only [legalParams, Bool.and_eq_true, decide_eq_true_eq] at hp
  obtain ⟨⟨⟨⟨⟨⟨-, -⟩, -, hK⟩, -⟩, -⟩, hB, -⟩, -⟩ := hp
  exact tapsFrom_draws hB _ 0 p.K draws (by omega)

end Sys2Proof.Machine
end

section
/-! The obligations on the ports, the step and a waiting RENDER (20_memory.md R52 to R62). -/

namespace Sys2Proof

theorem wordsOfBytes_bytesOfWord_append (w : Word) (bs : List Byte) :
    wordsOfBytes (bytesOfWord w ++ bs) = (w :: (wordsOfBytes bs).1, (wordsOfBytes bs).2) := by
  have hw : w.extractLsb' 24 8 ++ w.extractLsb' 16 8 ++ w.extractLsb' 8 8 ++ w.extractLsb' 0 8 = w := by
    ext i hi
    simp only [BitVec.getElem_append, BitVec.getElem_extractLsb']
    grind
  rw [bytesOfWord]
  simp only [List.cons_append, List.nil_append, wordsOfBytes]
  rw [hw]

end Sys2Proof

namespace Sys2Proof.Machine

/-- Settles O5: each word is put together again from its four bytes. -/
theorem bytesCrossLeastSignificantFirst : Obligations.BytesCrossLeastSignificantFirst := by
  unfold Obligations.BytesCrossLeastSignificantFirst
  constructor
  · intro ws
    induction ws with
    | nil => rfl
    | cons w ws ih =>
      rw [bytesOfWords, List.flatMap_cons, wordsOfBytes_bytesOfWord_append, ← bytesOfWords, ih]
  · intro w k hk
    interval_cases k <;> rfl

/-- Settles O9: the port served is the best of the three, and going before another is having no later turn. -/
theorem arbitrationServesAPortWithACommand : Obligations.ArbitrationServesAPortWithACommand := by
  unfold Obligations.ArbitrationServesAPortWithACommand
  intro s
  have hbest := best_pick s
  cases hpick : s.pick with
  | none =>
    rw [hpick] at hbest
    exact ⟨nofun, fun _ p => hbest p trivial, fun _ => rfl⟩
  | some p =>
    rw [hpick] at hbest
    obtain ⟨-, hready, hahead⟩ := hbest
    refine ⟨?_, by simp, fun hnone => by simp [hnone p] at hready⟩
    rintro _ ⟨⟩
    refine ⟨hready, fun q hq => ?_⟩
    by_cases hqp : q = p
    · rw [hqp]
    · obtain ⟨-, hdue⟩ := (s.ahead_iff q p).1 (hahead q trivial hqp hq)
      omega

/-- Settles O7: the state the command is performed on is the one with its frame taken. -/
theorem stepPerformsTheDecodedCommand : Obligations.StepPerformsTheDecodedCommand := by
  unfold Obligations.StepPerformsTheDecodedCommand
  intro s p frame rest i hreset hintact hidle hpick hframe hdecode
  refine ⟨s.takeFrom p rest, ?_, ?_, fun q hq => ?_, rfl, rfl, takeFrom_frame s p rest⟩
  · rw [step, fetch_of_pick hreset hintact hidle hpick, fetchFrom_of_command hframe hdecode]
  · rw [State.takeFrom_wire, if_pos rfl]
  · rw [State.takeFrom_wire, if_neg hq]

/-- Settles O16: a RENDER whose answer is not whole goes on waiting. -/
theorem waitingRenderHoldsEveryPort : Obligations.WaitingRenderHoldsEveryPort := by
  unfold Obligations.WaitingRenderHoldsEveryPort
  intro s r hreset hintact hwait hanswer
  rw [step_of_waiting hreset hintact hwait, awaitAnswer_of_none hanswer, ← hwait]

/-- Settles O17: the step after the answer and the RENDER with the answer there both await it, after the same pull and with
the same snapshot. -/
theorem waitingRenderEndsAsOneStep : Obligations.WaitingRenderEndsAsOneStep := by
  unfold Obligations.WaitingRenderEndsAsOneStep
  intro s w n answer hreset hintact hidle hmode hsrc hn hanswer hexec
  rw [exec_render_pull hmode hsrc hn, awaitAnswer_of_none hanswer] at hexec
  cases hexec
  rw [exec_render_pull (s := s.fileAnswer answer) hmode hsrc hn,
    ← awaitAnswer_inFlight _ _ (some { n := n, snap := (takeSnapshot s.par s.cfg s.draws).1 })]
  exact step_of_waiting hreset hintact rfl

/-- Settles O47: the RENDER pulls and awaits, and its snapshot has drawn no NaN. -/
theorem renderWaitsForTheFileSource : Obligations.RenderWaitsForTheFileSource := by
  unfold Obligations.RenderWaitsForTheFileSource
  refine ⟨receiveAnswer_eq_none_iff, fun s n hpar hmode hsrc hn hanswer => ?_⟩
  have hpull : n.setWidth 32 = BitVec.ofNat 32 n.toNat := (BitVec.ofNat_toNat 32 n).symm
  rw [exec_render_pull hmode hsrc hn, awaitAnswer_of_none hanswer, takeSnapshot_draws hpar, ← hpull]
  rfl

/-- Committing the registers that are there already changes nothing but the response. -/
theorem commit_frame (s : State) {c : Cfg} (st : Status) (hc : c = s.cfg) :
    { s.commit c st with prod := s.prod, rend := s.rend, ctrl := s.ctrl } = s := by
  subst hc
  exact respond_frame s st []

/-- A SOURCE_MODE write with the source armed only commits (R116). -/
theorem execCfgWriteSourceMode_of_armed {s : State} (h : s.fileExhausted = false) (v : Word) :
    exec (.cfgWriteSourceMode v) s = .next (s.commit { s.cfg with sourceMode := SourceMode.ofBit (bit0 v) } .ok) := by
  cases s
  cases h
  rfl

/-- Settles O56: the second write commits the registers that the first has left, and a source armed stays so. -/
theorem configurationWritesAreIdempotent : Obligations.ConfigurationWritesAreIdempotent := by
  unfold Obligations.ConfigurationWritesAreIdempotent
  intro s v i hi
  simp only [List.mem_cons, List.not_mem_nil, or_false] at hi
  rcases hi with rfl | rfl | rfl | rfl | rfl | rfl | rfl
  pick_goal 7
  · exact ⟨_, _, rfl, execCfgWriteSourceMode_of_armed (by simp) v, commit_frame _ _ (by simp)⟩
  all_goals exact ⟨_, _, rfl, rfl, commit_frame _ _ (by simp)⟩

end Sys2Proof.Machine
end

section
/-! What a move does between resets, the runs that R62 speaks of, and the obligation that every command is performed. -/

namespace Sys2Proof.Machine

/-! ### Moves between resets -/

theorem intact_of_inv {s : State} (h : s.inv = true) : s.intact = true := by
  obtain ⟨hlegal, -, -⟩ := s.inv_iff.1 h
  obtain ⟨⟨hring, -⟩, -⟩ : (s.rb.intact s.par.C = true ∧ s.rb.store.wf = true) ∧ s.rb.store.within s.par.C = true := by
    simpa [Ring.legal] using hlegal.rb
  obtain ⟨-, hcursors, -, -, -, hsame⟩ := (Filters.legal_iff s.par s.fb).1 hlegal.fb
  simp [State.intact, hring, hcursors, hsame]

theorem apply_step_of_next {s t : State} (h : step s = .next t) : Move.step.apply s = t := by
  simp [Move.apply, h]

/-- Everything a step can do between resets in a state that meets the invariant: a waiting RENDER goes on, or nothing
is there to do, or the chosen port's command is taken and performed. -/
theorem apply_step_cases {s : State} (hinv : s.inv = true) (hreset : s.resetIn = false) :
    (∃ r, s.inFlight = some r ∧ Move.step.apply s = awaitAnswer r s) ∨
    (s.inFlight = none ∧ s.pick = none ∧ Move.step.apply s = s) ∨
    (∃ q rest, s.inFlight = none ∧ s.pick = some q ∧ SameCommands (s.takeFrom q rest) (Move.step.apply s)) := by
  rcases step_cases s with ⟨hbroken, -⟩ | ⟨-, hreset', -⟩ | ⟨-, -, r, hwait, e⟩ | ⟨-, -, hidle, hnone, e⟩
    | ⟨-, -, hidle, q, frame, rest, i, hpick, -, -, e⟩ | ⟨-, -, hidle, q, frame, rest, why, hpick, -, -, e⟩
  · simp [intact_of_inv hinv] at hbroken
  · simp [hreset] at hreset'
  · exact .inl ⟨r, hwait, apply_step_of_next e⟩
  · refine .inr (.inl ⟨hidle, ?_, apply_step_of_next e⟩)
    refine Option.eq_none_iff_forall_ne_some.2 fun q hpick => ?_
    obtain ⟨hready, -⟩ := (arbitrationServesAPortWithACommand s).1 q hpick
    simp [State.ready, hnone q hpick] at hready
  · obtain ⟨t, ht⟩ := exec_next i (s.takeFrom q rest)
    rw [apply_step_of_next (e.trans ht)]
    exact .inr (.inr ⟨q, rest, hidle, hpick, sameCommands_exec ht⟩)
  · rw [apply_step_of_next e]
    exact .inr (.inr ⟨q, rest, hidle, hpick, sameCommands_respond _ _ _⟩)

/-- The commands taken pass a waiting command's turn by two at most (R62). -/
theorem turn_le_of_ready {s : State} {p : Port} (hinv : s.inv = true) (hready : s.ready p = true) :
    s.turn ≤ s.due.get p + 2 := by
  obtain ⟨-, -, hfair⟩ := s.inv_iff.1 hinv
  have := s.fair_iff.1 hfair p hready
  omega

theorem inFlight_finishFile (r : InFlight) (a : Answer) (s : State) : (finishFile r a s).inFlight = s.inFlight := by
  obtain ⟨st, e | e⟩ := finishFile_cases r a s <;> rw [e]
  · exact State.respond_inFlight _ _ _
  · exact State.respond_inFlight _ _ _

theorem inFlight_apply {s : State} {m : Move} (hm : m ≠ .step) : (m.apply s).inFlight = s.inFlight := by
  cases m with
  | step => exact absurd rfl hm
  | send q frame => exact s.send_inFlight q frame
  | fileAnswer ws => rfl
  | assertReset => rfl

/-- An answer that is whole stays whole until a step takes it: only the file source changes what is on P_FILE. -/
theorem receiveAnswer_apply {s : State} {m : Move} {n : Count} (hm : m ≠ .step)
    (h : receiveAnswer n s.file.rx ≠ none) : receiveAnswer n (m.apply s).file.rx ≠ none := by
  cases m with
  | step => exact absurd rfl hm
  | send q frame => rwa [Move.apply, State.send_file]
  | fileAnswer ws => exact receiveAnswer_append_ne_none h ws
  | assertReset => exact h

section Move

variable {s : State} {m : Move} (hinv : s.inv = true) (hreset : s.resetIn = false)
include hinv hreset

theorem resetIn_apply (hm : m ≠ .assertReset) : (m.apply s).resetIn = false := by
  cases m with
  | step =>
    rcases apply_step_cases hinv hreset with ⟨r, -, e⟩ | ⟨-, -, e⟩ | ⟨q, rest, -, -, hsame⟩
    · rw [e, (sameCommands_awaitAnswer r s).resetIn, hreset]
    · rw [e, hreset]
    · rw [hsame.resetIn, State.takeFrom_resetIn, hreset]
  | send q frame => rwa [Move.apply, State.send_resetIn]
  | fileAnswer ws => exact hreset
  | assertReset => exact absurd rfl hm

theorem turn_le_apply : s.turn ≤ (m.apply s).turn := by
  cases m with
  | step =>
    rcases apply_step_cases hinv hreset with ⟨r, -, e⟩ | ⟨-, -, e⟩ | ⟨q, rest, -, -, hsame⟩
    · rw [e, (sameCommands_awaitAnswer r s).turn]
    · rw [e]
    · rw [hsame.turn, State.takeFrom_turn]
      exact Nat.le_succ _
  | send q frame => rw [Move.apply, State.send_turn]
  | fileAnswer ws => exact Nat.le_refl _
  | assertReset => exact Nat.le_refl _

/-- A step that finds a command and no RENDER waiting takes a command. -/
theorem turn_apply_step (hidle : s.inFlight = none) {p : Port} (hready : s.ready p = true) :
    (Move.step.apply s).turn = s.turn + 1 := by
  rcases apply_step_cases hinv hreset with ⟨r, hwait, -⟩ | ⟨-, hnone, -⟩ | ⟨q, rest, -, -, hsame⟩
  · simp [hidle] at hwait
  · simp [(arbitrationServesAPortWithACommand s).2.1 hnone p] at hready
  · exact hsame.turn

/-- A step with a waiting RENDER ends it, if its answer is whole, or leaves it waiting. -/
theorem inFlight_apply_step {r : InFlight} (hwait : s.inFlight = some r) :
    (Move.step.apply s).inFlight = if receiveAnswer r.n s.file.rx = none then some r else none := by
  rw [apply_step_of_next (step_of_waiting hreset (intact_of_inv hinv) hwait)]
  rcases awaitAnswer_cases r s with ⟨hanswer, e⟩ | ⟨a, hanswer, e⟩ <;> rw [e, hanswer]
  · rfl
  · exact inFlight_finishFile r a _

/-- A command that is not served stays on its port, with its turn. -/
theorem port_apply {p : Port} (hready : s.ready p = true) (hserves : m = .step → s.serves p = false) :
    ((m.apply s).wire p).rx = (s.wire p).rx ∧ (m.apply s).due.get p = s.due.get p := by
  cases m with
  | step =>
    rcases apply_step_cases hinv hreset with ⟨r, -, e⟩ | ⟨-, -, e⟩ | ⟨q, rest, hidle, hpick, hsame⟩
    · have hsame := sameCommands_awaitAnswer r s
      rw [e, hsame.rx, hsame.due]
      exact ⟨rfl, rfl⟩
    · rw [e]
      exact ⟨rfl, rfl⟩
    · have hne : p ≠ q := by
        rintro rfl
        simpa [State.serves, hreset, intact_of_inv hinv, hidle, hpick] using hserves rfl
      rw [hsame.rx, hsame.due, State.takeFrom_wire, if_neg hne, State.takeFrom_due]
      exact ⟨rfl, rfl⟩
  | send q frame =>
    rcases s.send_cases q frame with ⟨hfree, -, e⟩ | ⟨-, e⟩ <;> rw [Move.apply, e]
    · have hne : p ≠ q := by
        rintro rfl
        simp [State.ready_eq_false ((s.free_iff p).1 hfree).1] at hready
      rw [State.place_wire, if_neg hne, State.place_due, Turns.get_set, if_neg hne]
      exact ⟨rfl, rfl⟩
    · exact ⟨rfl, rfl⟩
  | fileAnswer ws => exact ⟨by cases p <;> rfl, rfl⟩
  | assertReset => exact ⟨by cases p <;> rfl, rfl⟩

end Move

/-! ### Runs -/

/-- The runs R62 speaks of: steps go on, reset is not applied, and the file source answers every pull. -/
structure LiveRun (moves : Nat → Move) (run : Nat → State) : Prop where
  inv_zero : (run 0).inv = true
  resetIn_zero : (run 0).resetIn = false
  next : ∀ n, run (n + 1) = (moves n).apply (run n)
  noReset : ∀ n, moves n ≠ .assertReset
  steps : ∀ n, ∃ k, n ≤ k ∧ moves k = .step
  answers : ∀ n r, (run n).inFlight = some r → ∃ k, n ≤ k ∧ receiveAnswer r.n (run k).file.rx ≠ none

namespace LiveRun

variable {moves : Nat → Move} {run : Nat → State} (h : LiveRun moves run)
include h

theorem inv (n : Nat) : (run n).inv = true := by
  induction n with
  | zero => exact h.inv_zero
  | succ n ih =>
    rw [h.next]
    exact inv_apply ih (moves n)

theorem resetIn (n : Nat) : (run n).resetIn = false := by
  induction n with
  | zero => exact h.resetIn_zero
  | succ n ih =>
    rw [h.next]
    exact resetIn_apply (h.inv n) ih (h.noReset n)

theorem turn_mono : Monotone fun n => (run n).turn := by
  refine monotone_nat_of_le_succ fun n => ?_
  rw [h.next]
  exact turn_le_apply (h.inv n) (h.resetIn n)

/-- What no move but a step changes still holds at the next step. -/
theorem exists_step {P : State → Prop} {n : Nat} (hP : P (run n))
    (hmove : ∀ s m, m ≠ Move.step → P s → P (m.apply s)) : ∃ k, n ≤ k ∧ moves k = .step ∧ P (run k) := by
  by_contra hnone
  have hall : ∀ k, n ≤ k → P (run k) := Nat.le_induction hP fun k hk ih => by
    rw [h.next]
    exact hmove _ _ (fun hstep => hnone ⟨k, hk, hstep, ih⟩) ih
  obtain ⟨k, hk, hstep⟩ := h.steps n
  exact hnone ⟨k, hk, hstep, hall k hk⟩

/-- No RENDER waits for ever: a step after its answer ends it. -/
theorem exists_idle (n : Nat) : ∃ k, n ≤ k ∧ (run k).inFlight = none := by
  by_contra! hbusy
  obtain ⟨r, hr⟩ := Option.ne_none_iff_exists'.1 (hbusy n n.le_refl)
  have hwait : ∀ k, n ≤ k → (run k).inFlight = some r := Nat.le_induction hr fun k hk ih => by
    have hnext := hbusy (k + 1) (by omega)
    rw [h.next] at hnext ⊢
    by_cases hm : moves k = .step
    · rw [hm, inFlight_apply_step (h.inv k) (h.resetIn k) ih] at hnext ⊢
      simpa using hnext
    · rw [inFlight_apply hm, ih]
  obtain ⟨i, hi, hanswer⟩ := h.answers n r hr
  obtain ⟨k, hk, hstep, hwhole⟩ := h.exists_step (P := fun s => receiveAnswer r.n s.file.rx ≠ none) hanswer
    fun s m hm => receiveAnswer_apply hm
  refine hbusy (k + 1) (by omega) ?_
  rw [h.next, hstep, inFlight_apply_step (h.inv k) (h.resetIn k) (hwait k (hi.trans hk)), if_neg hwhole]

/-- As long as a port holds a command, commands are taken. -/
theorem exists_turn_lt {p : Port} (hready : ∀ n, (run n).ready p = true) (n : Nat) :
    ∃ k, (run n).turn < (run k).turn := by
  obtain ⟨i, hi, hidle⟩ := h.exists_idle n
  obtain ⟨k, hk, hstep, hidle⟩ := h.exists_step (P := fun s => s.inFlight = none) hidle
    fun s m hm hs => (inFlight_apply hm).trans hs
  refine ⟨k + 1, ?_⟩
  rw [h.next, hstep, turn_apply_step (h.inv k) (h.resetIn k) hidle (hready k)]
  exact Nat.lt_succ_of_le (h.turn_mono (hi.trans hk))

theorem exists_le_turn {p : Port} (hready : ∀ n, (run n).ready p = true) (b : Nat) : ∃ n, b ≤ (run n).turn := by
  induction b with
  | zero => exact ⟨0, Nat.zero_le _⟩
  | succ b ih =>
    obtain ⟨n, hn⟩ := ih
    obtain ⟨k, hk⟩ := h.exists_turn_lt hready n
    exact ⟨k, hn.trans_lt hk⟩

end LiveRun

/-- Settles O59: a command that is never served keeps its turn, and the count of commands taken passes every turn. -/
theorem everyCommandIsEventuallyPerformed : Obligations.EveryCommandIsEventuallyPerformed := by
  unfold Obligations.EveryCommandIsEventuallyPerformed
  intro p moves run hinv hreset hready hnext hnoReset hsteps hanswers
  have h : LiveRun moves run := ⟨hinv, hreset, hnext, hnoReset, hsteps, hanswers⟩
  by_contra! hunserved
  have hport (n : Nat) : ((run n).wire p).rx = ((run 0).wire p).rx ∧ (run n).due.get p = (run 0).due.get p := by
    induction n with
    | zero => exact ⟨rfl, rfl⟩
    | succ n ih =>
      obtain ⟨hrx, hdue⟩ := ih
      have hserves (hstep : moves n = .step) : (run n).serves p = false :=
        Bool.eq_false_iff.2 fun hserves => hunserved n hstep hserves hrx
      rw [hnext, ← hrx, ← hdue]
      exact port_apply (h.inv n) (h.resetIn n) (by rwa [State.ready, hrx]) hserves
  have hready' (n : Nat) : (run n).ready p = true := by
    rw [State.ready, (hport n).1]
    exact hready
  obtain ⟨n, hlate⟩ := h.exists_le_turn hready' ((run 0).due.get p + 3)
  have hfair := turn_le_of_ready (h.inv n) (hready' n)
  rw [(hport n).2] at hfair
  omega

end Sys2Proof.Machine
end

section
/-! SUPPORT. The decoder by the fields of the command word (R68, R73): what it answers for each OPC, the frames it takes
for a command, and what it refuses. -/

namespace Sys2Proof

/-! ### Words by their fields -/

/-- Every word is the command word of its own fields (R68). -/
theorem commandWord_fields (w : Word) : commandWord (opcOf w) (selOf w) (countOf w) = w := by
  unfold commandWord opcOf selOf countOf
  ext i hi
  simp only [BitVec.getElem_append, BitVec.getElem_extractLsb']
  grind

/-- A property of every command word is one of every word. -/
theorem forall_commandWord {P : Word → Prop} (h : ∀ o s n, P (commandWord o s n)) (w : Word) : P w :=
  commandWord_fields w ▸ h (opcOf w) (selOf w) (countOf w)

/-- The word of a NOP is the one whose fields are all zero (R75). -/
theorem commandWord_eq_zero_iff (o s : BitVec 4) (n : Count) :
    commandWord o s n = 0#32 ↔ o = 0#4 ∧ s = 0#4 ∧ n = 0#24 := by
  constructor
  · intro h
    refine ⟨?_, ?_, ?_⟩
    · simpa [h, opcOf] using (opcOf_commandWord o s n).symm
    · simpa [h, selOf] using (selOf_commandWord o s n).symm
    · simpa [h, countOf] using (countOf_commandWord o s n).symm
  · rintro ⟨rfl, rfl, rfl⟩
    rfl

theorem toNat_countOf (w : Word) : (countOf w).toNat = w.toNat % 2 ^ 24 := by simp [countOf]

/-- The operations of the opcode table, and the reserved ones (R69, R75). -/
theorem opc_cases (o : BitVec 4) :
    o = 0#4 ∨ o = 1#4 ∨ o = 2#4 ∨ o = 3#4 ∨ o = 4#4 ∨ 5 ≤ o.toNat := by
  bv_omega

/-! ### Frame lengths (R70) -/

theorem payloadWords_eq (w : Word) :
    payloadWords w = if opcOf w = 1#4 then (countOf w).toNat else if opcOf w = 3#4 then 1 else 0 := by
  unfold payloadWords
  split
  · rw [if_pos (BitVec.eq_of_toNat_eq ‹_›)]
  · rw [if_neg (by bv_omega), if_pos (BitVec.eq_of_toNat_eq ‹_›)]
  · rw [if_neg (by bv_omega), if_neg (by bv_omega)]

/-- Fewer words than the command word fixes are no frame (R70; log 6). -/
theorem nextFrame_eq_none {w : Word} {ws : List Word} (h : ws.length < payloadWords w) : nextFrame (w :: ws) = none :=
  if_neg (Nat.not_le_of_lt h)

/-! ### The decoder for each OPC (R73, R74) -/

section Opc
variable (p : Port) (s : BitVec 4) (n : Count) (payload : List Word)

theorem decodeWord_nop : decodeWord p (commandWord 0#4 s n) payload
    = if ¬(s = 0#4 ∧ n = 0#24) then .illegal .nopWithFields else .command .nop := by
  rw [ite_not]
  simp [decodeWord, commandWord_eq_zero_iff]

theorem decodeWord_rbWrite : decodeWord p (commandWord 1#4 s n) payload
    = if p ≠ .prod then .illegal .wrongPort else if s ≠ 0#4 then .illegal .selNotZero
      else .command (.rbWrite payload) := by
  simp [decodeWord]

theorem decodeWord_render : decodeWord p (commandWord 2#4 s n) payload
    = if p ≠ .rend then .illegal .wrongPort else if s ≠ 0#4 then .illegal .selNotZero else .command (.render n) := by
  simp [decodeWord]

theorem decodeWord_cfgWrite : decodeWord p (commandWord 3#4 s n) payload
    = if p ≠ .ctrl then .illegal .wrongPort else if n ≠ 0#24 then .illegal .countNotZero
      else decodeCfgWrite s (payload.headD 0#32) := by
  simp [decodeWord]

theorem decodeWord_cfgRead : decodeWord p (commandWord 4#4 s n) payload
    = if p ≠ .ctrl then .illegal .wrongPort else if n ≠ 0#24 then .illegal .countNotZero else decodeCfgRead s := by
  simp [decodeWord]

theorem decodeWord_reserved {o : BitVec 4} (ho : 5 ≤ o.toNat) :
    decodeWord p (commandWord o s n) payload = .illegal .opcReserved := by
  unfold decodeWord
  rw [opcOf_commandWord]
  split
  pick_goal 6
  · rfl
  all_goals omega

end Opc

theorem decode_of_length {p : Port} {w : Word} {payload : List Word} (h : payload.length = payloadWords w) :
    decode p (w :: payload) = decodeWord p w payload := if_pos h

/-- Whatever decodes to a command is a frame (R73; log 21). -/
theorem decode_eq_command {p : Port} {frame : List Word} {i : Instr} (h : decode p frame = .command i) :
    ∃ w payload, frame = w :: payload ∧ payload.length = payloadWords w ∧ decodeWord p w payload = .command i := by
  cases frame with
  | nil => cases h
  | cons w payload =>
    by_cases hlen : payload.length = payloadWords w
    · exact ⟨w, payload, rfl, hlen, decode_of_length hlen ▸ h⟩
    · rw [decode, if_neg hlen] at h
      cases h

theorem decode_cfgWrite (s : BitVec 4) (v : Word) : decode .ctrl [commandWord 3#4 s 0#24, v] = decodeCfgWrite s v := by
  rw [decode_of_length (by simp [payloadWords_eq]), decodeWord_cfgWrite]
  rfl

theorem decode_cfgRead (s : BitVec 4) : decode .ctrl [commandWord 4#4 s 0#24] = decodeCfgRead s := by
  rw [decode_of_length (by simp [payloadWords_eq]), decodeWord_cfgRead]
  rfl

/-! ### What the checks refuse -/

@[simp] theorem ite_illegal_eq_command {c : Prop} [Decidable c] {why : Illegal} {d : Decoded} {i : Instr} :
    (if c then .illegal why else d) = Decoded.command i ↔ ¬c ∧ d = .command i := by
  split <;> simp [*]

@[simp] theorem exists_ite_illegal {c : Prop} [Decidable c] {why : Illegal} {d : Decoded} :
    (∃ why', (if c then .illegal why else d) = Decoded.illegal why') ↔ c ∨ ∃ why', d = .illegal why' := by
  split <;> simp [*]

/-! ### The registers by their SEL (R45) -/

/-- CFG_WRITE writes the register of its SEL (R73, R111). -/
theorem decodeCfgWrite_eq_command {s : BitVec 4} {v : Word} {i : Instr} (h : decodeCfgWrite s v = .command i) :
    encode i = [commandWord 3#4 s 0#24, v] ∧ i.wellFormed = true ∧ i.acceptedOn .ctrl = true := by
  obtain ⟨k⟩ := s
  fin_cases k <;> cases h <;> exact ⟨rfl, rfl, rfl⟩

/-- CFG_READ reads the register of its SEL (R73, R117). -/
theorem decodeCfgRead_eq_command {s : BitVec 4} {i : Instr} (h : decodeCfgRead s = .command i) :
    encode i = [commandWord 4#4 s 0#24] ∧ i.wellFormed = true ∧ i.acceptedOn .ctrl = true := by
  obtain ⟨k⟩ := s
  fin_cases k <;> cases h <;> exact ⟨rfl, rfl, rfl⟩

/-- SEL 0x7 and the read-only registers are not written (R75). -/
theorem exists_decodeCfgWrite_eq_illegal (s : BitVec 4) (v : Word) :
    (∃ why, decodeCfgWrite s v = .illegal why) ↔ 7 ≤ s.toNat := by
  obtain ⟨k⟩ := s
  fin_cases k <;> simp [decodeCfgWrite]

/-- SEL 0x7 alone is not read (R75). -/
theorem exists_decodeCfgRead_eq_illegal (s : BitVec 4) : (∃ why, decodeCfgRead s = .illegal why) ↔ s = 7#4 := by
  obtain ⟨k⟩ := s
  fin_cases k <;> simp [decodeCfgRead]

/-! ### Encodings -/

/-- The frame of a well-formed command has the length that its word fixes (R70). -/
theorem encode_frame {i : Instr} (h : i.wellFormed = true) :
    ∃ w payload, encode i = w :: payload ∧ payload.length = payloadWords w := by
  cases i with
  | rbWrite samples =>
    obtain ⟨w, payload, he, hlen, -⟩ := Laws.FrameLength.rbWrite samples h
    exact ⟨w, payload, he, hlen⟩
  | _ => exact ⟨_, _, rfl, by simp [payloadWords_eq]⟩

end Sys2Proof
end

section
/-! SUPPORT. The response of a RENDER (R71, R109): on every path that sends one it carries a status and `N` words. -/

namespace Sys2Proof.Machine

/-- From `s` to `t` a response of a status and `k` data words has been sent on the granted port (R71). -/
def Responds (s t : State) (k : Nat) : Prop :=
  ∃ st out, out.length = k ∧ (t.wire s.grant).tx = (s.wire s.grant).tx ++ Status.word st :: out

/-- A response counts from whatever the block's data and P_FILE were. -/
theorem Responds.of_data {s t : State} {k : Nat} {rb : Ring} {fb : Filters} {x : Bool} {file : Wire}
    {w : Option InFlight} {draws : Nat}
    (h : Responds { s with rb := rb, fb := fb, fileExhausted := x, file := file, inFlight := w, draws := draws } t k) :
    Responds s t k := h

theorem responds_respond (s : State) (st : Status) {d : List Word} {k : Nat} (hd : d.length = k) :
    Responds s (s.respond st d) k :=
  ⟨st, d, hd, by rw [State.respond_wire, if_pos rfl]⟩

/-- The pipeline keeps the block's length (R100). -/
theorem responds_respondProcessed (s : State) (snap : Snapshot) (st : Status) {block : List Word} {k : Nat}
    (hblock : block.length = k) : Responds s (respondProcessed s snap st block) k :=
  .of_data (responds_respond _ st (by rw [length_processBlock, hblock]))

theorem responds_renderRing (n : Count) (snap : Snapshot) (s : State) : Responds s (renderRing n snap s) n.toNat := by
  rcases renderRing_cases n snap s with ⟨-, h⟩ | ⟨-, h⟩ <;> rw [h]
  · exact responds_respond s _ List.length_replicate
  · exact .of_data (responds_respondProcessed _ snap _ (Memory.length_readRun _ _ _ _))

/-- An answer of at most `N` samples is padded to `N` (R106). -/
theorem responds_finishFile (r : InFlight) {a : Answer} (s : State) (ha : a.samples.length ≤ r.n.toNat) :
    Responds s (finishFile r a s) r.n.toNat := by
  have hlen : (a.samples ++ silentBlock (r.n.toNat - a.samples.length)).length = r.n.toNat := by
    simp [silentBlock, ha]
  obtain ⟨st, h | h⟩ := finishFile_cases r a s <;> rw [h]
  · exact .of_data (responds_respond _ st hlen)
  · exact .of_data (responds_respondProcessed _ r.snap st hlen)

/-- A RENDER whose answer is not whole waits and sends no response (R62). -/
theorem awaits_awaitAnswer {r : InFlight} {s : State} (h : receiveAnswer r.n s.file.rx = none) :
    (∀ p, (awaitAnswer r s).wire p = s.wire p) ∧ (awaitAnswer r s).inFlight = some r := by
  rw [awaitAnswer_of_none h]
  exact ⟨fun p => by cases p <;> rfl, rfl⟩

/-- With a whole answer it waits no more and responds (R106). -/
theorem responds_awaitAnswer {r : InFlight} {s : State} (h : receiveAnswer r.n s.file.rx ≠ none) :
    (awaitAnswer r s).inFlight = none ∧ Responds s (awaitAnswer r s) r.n.toNat := by
  rcases awaitAnswer_cases r s with ⟨hnone, -⟩ | ⟨a, hsome, e⟩
  · exact absurd hnone h
  · obtain ⟨_, _, -, hlen, -⟩ := receiveAnswer_spec hsome
    rw [e]
    exact ⟨inFlight_finishFile r a _, .of_data (responds_finishFile r _ (hlen ▸ Nat.min_le_right _ _))⟩

/-- A RENDER that sends no pull responds at once (R105, R106). -/
theorem responds_exec_render {s : State} {n : Count}
    (h : ¬(s.cfg.sourceMode = .file ∧ s.fileExhausted = false ∧ n ≠ 0#24)) :
    ∃ t, exec (.render n) s = .next t ∧ Responds s t n.toNat := by
  rcases execRender_cases n s with ⟨-, e⟩ | ⟨hmode, e⟩
  · exact ⟨_, e, .of_data (responds_renderRing n _ _)⟩
  · refine ⟨_, e, ?_⟩
    rcases renderFile_cases n (takeSnapshot s.par s.cfg s.draws).1
      { s with draws := (takeSnapshot s.par s.cfg s.draws).2 } with ⟨-, e'⟩ | ⟨-, rfl, e'⟩ | ⟨hsrc, hn, -⟩
    · rw [e']
      exact .of_data (responds_respond _ _ List.length_replicate)
    · rw [e']
      exact .of_data (responds_respond _ _ rfl)
    · exact absurd ⟨hmode, hsrc, hn⟩ h

end Sys2Proof.Machine
end

section
/-! The obligations on the encoding and on responses (30_encoding.md). -/

namespace Sys2Proof.Machine

/-- Settles O1: a frame has its length, and its fields pass the checks of R73 on the port that accepts the command. -/
theorem decodeAfterEncode : Obligations.DecodeAfterEncode := by
  unfold Obligations.DecodeAfterEncode
  intro i p hwf hport
  cases i with
  | nop =>
    rw [encode, decode_of_length (by simp [payloadWords_eq])]
    exact decodeWord_nop p _ _ _
  | rbWrite samples =>
    obtain rfl : p = .prod := by simpa [Instr.acceptedOn] using hport
    have hlen : samples.length < 2 ^ 24 := by simpa [Instr.wellFormed] using hwf
    rw [encode, decode_of_length (by simpa [payloadWords_eq] using (Nat.mod_eq_of_lt hlen).symm)]
    exact decodeWord_rbWrite _ _ _ _
  | render n =>
    obtain rfl : p = .rend := by simpa [Instr.acceptedOn] using hport
    rw [encode, decode_of_length (by simp [payloadWords_eq])]
    exact decodeWord_render _ _ _ _
  | cfgWriteEchoEn v | cfgWriteDelayMs v | cfgWriteLpAlpha v | cfgWriteDistEn v | cfgWriteDistGain v
  | cfgWriteReverbEn v | cfgWriteSourceMode v =>
    obtain rfl : p = .ctrl := by simpa [Instr.acceptedOn] using hport
    exact decode_cfgWrite _ v
  | _ =>
    obtain rfl : p = .ctrl := by simpa [Instr.acceptedOn] using hport
    exact decode_cfgRead _

/-- Settles O2: the checks that a word has passed leave it no field but those of the command's encoding. -/
theorem decodesOnlyItsOwnEncoding : Obligations.DecodesOnlyItsOwnEncoding := by
  unfold Obligations.DecodesOnlyItsOwnEncoding
  intro p frame i h
  obtain ⟨w, payload, rfl, hlen, hd⟩ := decode_eq_command h
  induction w using forall_commandWord with | h o s n
  rw [payloadWords_eq, opcOf_commandWord, countOf_commandWord] at hlen
  rcases opc_cases o with rfl | rfl | rfl | rfl | rfl | ho
  · simp only [decodeWord_nop, ite_illegal_eq_command, not_not, Decoded.command.injEq] at hd
    obtain ⟨⟨rfl, rfl⟩, rfl⟩ := hd
    obtain rfl := List.length_eq_zero_iff.1 hlen
    exact ⟨rfl, rfl, rfl⟩
  · simp only [decodeWord_rbWrite, ite_illegal_eq_command, ne_eq, not_not, Decoded.command.injEq] at hd
    obtain ⟨rfl, rfl, rfl⟩ := hd
    have hlen : payload.length = n.toNat := hlen
    have hn : BitVec.ofNat 24 payload.length = n := by rw [hlen, BitVec.ofNat_toNat, BitVec.setWidth_eq]
    exact ⟨by rw [encode, hn]; rfl, decide_eq_true (hlen ▸ n.isLt), rfl⟩
  · simp only [decodeWord_render, ite_illegal_eq_command, ne_eq, not_not, Decoded.command.injEq] at hd
    obtain ⟨rfl, rfl, rfl⟩ := hd
    obtain rfl := List.length_eq_zero_iff.1 hlen
    exact ⟨rfl, rfl, rfl⟩
  · simp only [decodeWord_cfgWrite, ite_illegal_eq_command, ne_eq, not_not] at hd
    obtain ⟨rfl, rfl, hi⟩ := hd
    obtain ⟨v, rfl⟩ := List.length_eq_one_iff.1 hlen
    obtain ⟨he, hwf, hport⟩ := decodeCfgWrite_eq_command hi
    exact ⟨he.symm, hwf, hport⟩
  · simp only [decodeWord_cfgRead, ite_illegal_eq_command, ne_eq, not_not] at hd
    obtain ⟨rfl, rfl, hi⟩ := hd
    obtain rfl := List.length_eq_zero_iff.1 hlen
    obtain ⟨he, hwf, hport⟩ := decodeCfgRead_eq_command hi
    exact ⟨he.symm, hwf, hport⟩
  · rw [decodeWord_reserved _ _ _ _ ho] at hd
    cases hd

/-- Settles O3: each encoding on R75's list fails a check of R73, and R73 has no other check. -/
theorem reservedEncodingsAreIllegal : Obligations.ReservedEncodingsAreIllegal := by
  unfold Obligations.ReservedEncodingsAreIllegal
  intro p w payload hlen
  rw [decode_of_length hlen]
  induction w using forall_commandWord with | h o s n
  rw [opcOf_commandWord, selOf_commandWord, countOf_commandWord]
  rcases opc_cases o with rfl | rfl | rfl | rfl | rfl | ho
  · simp [decodeWord_nop, exists_ite_illegal, commandWord_eq_zero_iff]
  · simp only [decodeWord_rbWrite, exists_ite_illegal]
    simp [or_comm]
  · simp only [decodeWord_render, exists_ite_illegal]
    simp [or_comm]
  · simp only [decodeWord_cfgWrite, exists_ite_illegal, exists_decodeCfgWrite_eq_illegal]
    simp [or_comm, or_assoc]
  · simp only [decodeWord_cfgRead, exists_ite_illegal, exists_decodeCfgRead_eq_illegal]
    simp [or_comm, or_assoc]
  · simp [decodeWord_reserved, ho]

/-- Settles O48: a RENDER responds on every path but the one that awaits an answer that is not whole. -/
theorem everyRenderReturnsExactlyN : Obligations.EveryRenderReturnsExactlyN := by
  unfold Obligations.EveryRenderReturnsExactlyN
  constructor
  · intro s n
    by_cases hpull : s.cfg.sourceMode = .file ∧ s.fileExhausted = false ∧ n ≠ 0#24
    · obtain ⟨hmode, hsrc, hn⟩ := hpull
      refine ⟨_, exec_render_pull hmode hsrc hn, ?_⟩
      split_ifs with hwait
      · obtain ⟨-, -, -, hanswer⟩ := hwait
        refine (awaits_awaitAnswer ?_).imp_right fun hflight => ⟨_, hflight, rfl⟩
        exact hanswer
      · refine Responds.of_data (responds_awaitAnswer ?_).2
        exact fun hanswer => hwait ⟨hmode, hsrc, hn, hanswer⟩
    · obtain ⟨t, hexec, hresponds⟩ := responds_exec_render hpull
      exact ⟨t, hexec, by rwa [if_neg fun ⟨hmode, hsrc, hn, _⟩ => hpull ⟨hmode, hsrc, hn⟩]⟩
  · intro s r
    split_ifs with hanswer
    · exact awaits_awaitAnswer hanswer
    · exact responds_awaitAnswer hanswer

/-- Settles O4: the model reads each of R78's words and texts. -/
theorem wordsDecodeAsTheSpecWritesThem : Obligations.WordsDecodeAsTheSpecWritesThem := by
  unfold Obligations.WordsDecodeAsTheSpecWritesThem
  decide +kernel

/-- Settles O6: the words taken are those that the command word counts, and a well-formed command has as many. -/
theorem frameLeavesThePortWhole : Obligations.FrameLeavesThePortWhole := by
  unfold Obligations.FrameLeavesThePortWhole
  constructor
  · intro i rest hwf
    obtain ⟨w, payload, he, hlen⟩ := encode_frame hwf
    rw [he]
    exact nextFrame_append w payload rest hlen
  · intro w len
    have hwords : payloadWords w = len := by rw [payloadWords_eq, toNat_countOf]; rfl
    exact ⟨hwords, fun payload rest h => nextFrame_append w payload rest (h.trans hwords.symm),
      fun ws h => nextFrame_eq_none (hwords ▸ h)⟩

/-- Settles O18: the response goes to the granted port, and is all that is sent. -/
theorem responsesCarryStatusAndData : Obligations.ResponsesCarryStatusAndData := by
  unfold Obligations.ResponsesCarryStatusAndData
  refine ⟨by decide, fun s st d => ⟨?_, fun q hq => ?_, respond_frame s st d⟩⟩
  · rw [State.respond_wire, if_pos rfl]
  · rw [State.respond_wire, if_neg hq]

end Sys2Proof.Machine
end

section
/-! SUPPORT. The ring buffer as a queue (R22 to R26, R79, R80): what a run of writes leaves in each slot, what a run of
reads returns, and what an enqueue and an RB_READ do to the queued samples. -/

namespace Sys2Proof.Machine

/-! ### Runs of slots -/

/-- Indices less than one round of the array apart are different slots. -/
theorem mod_ne_mod_of_lt_add {len a b : Nat} (hab : a < b) (hb : b < a + len) : a % len ≠ b % len := by
  intro h
  have hdvd : len ∣ b - a := (Nat.modEq_iff_dvd' hab.le).1 h
  have hle := Nat.le_of_dvd (by omega) hdvd
  omega

/-- A run of writes changes no slot but its own (R79). -/
theorem Memory.read_writeRun_other {len k : Nat} {m : Memory} (hm : m.wf = true) (i : Nat) (ws : List Word)
    (hk : ∀ j < ws.length, k ≠ (i + j) % len) : (m.writeRun len i ws).read k = m.read k := by
  induction ws generalizing m i with
  | nil => rfl
  | cons w ws ih =>
    have hrest : ∀ j < ws.length, k ≠ (i + 1 + j) % len := fun j hj => by
      rw [Nat.add_right_comm i 1 j]
      exact hk (j + 1) (Nat.succ_lt_succ hj)
    calc ((m.write (i % len) w).writeRun len (i + 1) ws).read k
        = (m.write (i % len) w).read k := ih (Memory.wf_write _ _ hm) _ hrest
      _ = m.read k := Memory.read_write_other hm w (hk 0 (Nat.succ_pos _)).symm

/-- A run of writes of at most one round leaves each of its words in its slot (R79). -/
theorem Memory.read_writeRun_slot {len : Nat} {m : Memory} (hm : m.wf = true) (i : Nat) {ws : List Word}
    (hlen : ws.length ≤ len) (j : Nat) (hj : j < ws.length) : (m.writeRun len i ws).read ((i + j) % len) = ws[j] := by
  induction ws generalizing m i j with
  | nil => exact absurd hj (Nat.not_lt_zero j)
  | cons w ws ih =>
    rw [List.length_cons] at hlen hj
    have hm' := Memory.wf_write (i % len) w hm
    cases j with
    | zero =>
      have hother : ∀ j < ws.length, i % len ≠ (i + 1 + j) % len := fun j hj =>
        mod_ne_mod_of_lt_add (by omega) (by omega)
      calc ((m.write (i % len) w).writeRun len (i + 1) ws).read (i % len)
          = (m.write (i % len) w).read (i % len) := Memory.read_writeRun_other hm' _ ws hother
        _ = w := Memory.read_write_same hm _ w
    | succ j =>
      rw [← Nat.add_assoc, Nat.add_right_comm i j 1]
      exact ih hm' (i + 1) (by omega) j (by omega)

/-- A run of reads sees its start modulo the array's length. -/
theorem Memory.readRun_mod (len : Nat) (m : Memory) (i n : Nat) : m.readRun len (i % len) n = m.readRun len i n := by
  simp [Memory.readRun]

/-- A run of reads is its first part and then the rest (R80). -/
theorem Memory.readRun_add (len : Nat) (m : Memory) (i n k : Nat) :
    m.readRun len i (n + k) = m.readRun len i n ++ m.readRun len (i + n) k := by
  simp [Memory.readRun, List.range_add, Nat.add_assoc]

/-- Reading the slots of a run of writes gives back the words written. -/
theorem Memory.readRun_writeRun_same {len : Nat} {m : Memory} (hm : m.wf = true) (i : Nat) {ws : List Word}
    (hlen : ws.length ≤ len) : (m.writeRun len i ws).readRun len i ws.length = ws := by
  refine List.ext_getElem (Memory.length_readRun _ _ _ _) fun j _ hj => ?_
  simpa [Memory.readRun] using Memory.read_writeRun_slot hm i hlen j hj

/-- A run of writes that follows a run of slots, both within one round, leaves what those slots hold. -/
theorem Memory.readRun_writeRun_before {len : Nat} {m : Memory} (hm : m.wf = true) (i n : Nat) {ws : List Word}
    (hlen : n + ws.length ≤ len) : (m.writeRun len (i + n) ws).readRun len i n = m.readRun len i n := by
  refine List.map_congr_left fun j hj => Memory.read_writeRun_other hm _ ws fun j' hj' => ?_
  have hj := List.mem_range.1 hj
  exact mod_ne_mod_of_lt_add (by omega) (by omega)

/-- A run of writes sees its start modulo the array's length. -/
theorem Memory.writeRun_mod (len : Nat) (m : Memory) (i : Nat) (ws : List Word) :
    m.writeRun len (i % len) ws = m.writeRun len i ws := by
  suffices h : ∀ i i', i ≡ i' [MOD len] → m.writeRun len i ws = m.writeRun len i' ws from h _ _ (Nat.mod_modEq i len)
  induction ws generalizing m with
  | nil => exact fun _ _ _ => rfl
  | cons w ws ih =>
    intro i i' h
    rw [Memory.writeRun, Memory.writeRun, show i % len = i' % len from h]
    exact ih _ _ _ (h.add_right 1)

/-! ### The queue -/

/-- `head` stands `count` slots past `tail` (R26). -/
theorem Ring.head_eq_of_legal {C : Nat} {r : Ring} (h : r.legal C = true) : r.head = (r.tail + r.count) % C := by
  obtain ⟨-, hhead, -, hmod, -⟩ := (Ring.legal_iff C r).1 h
  have hsum : (r.head : Int) ≡ (r.tail + r.count : Nat) [ZMOD C] := by
    simpa using hmod.add_left r.tail
  exact Nat.mod_eq_of_lt hhead ▸ Int.natCast_modEq_iff.1 hsum

/-- An enqueue that fits puts its samples behind those queued (R79). -/
theorem Ring.queue_enqueue {C : Nat} {r : Ring} {samples : List Word} (h : r.legal C = true)
    (hfit : r.count + samples.length ≤ C) : (r.enqueue C samples).queue C = r.queue C ++ samples := by
  obtain ⟨-, -, -, -, hwf, -⟩ := (Ring.legal_iff C r).1 h
  have hstore : (r.enqueue C samples).store = r.store.writeRun C (r.tail + r.count) samples := by
    rw [Ring.enqueue, Ring.head_eq_of_legal h, Memory.writeRun_mod]
  calc (r.enqueue C samples).queue C
      = (r.store.writeRun C (r.tail + r.count) samples).readRun C r.tail (r.count + samples.length) := by
        rw [← hstore]; rfl
    _ = r.queue C ++ samples := by
        rw [Memory.readRun_add, Memory.readRun_writeRun_before hwf _ _ hfit,
          Memory.readRun_writeRun_same hwf _ (by omega), Ring.queue]

/-- What an RB_READ that succeeds gives (R80). -/
theorem Ring.dequeue_eq_some_iff {r r' : Ring} {C n : Nat} {out : List Word} :
    r.dequeue C n = some (out, r') ↔ n ≤ r.count ∧ out = r.store.readRun C r.tail n
      ∧ r' = { r with tail := (r.tail + n) % C, count := r.count - n } := by
  rcases dequeue_cases r C n with ⟨hn, e⟩ | ⟨hn, e⟩ <;> rw [e]
  · simp [hn]
  · simp [hn, eq_comm]

theorem Ring.legal_dequeue {C n : Nat} {r r' : Ring} {out : List Word} (h : r.legal C = true)
    (hd : r.dequeue C n = some (out, r')) : r'.legal C = true := by
  obtain ⟨hn, -, rfl⟩ := Ring.dequeue_eq_some_iff.1 hd
  exact Ring.legal_advanceTail h hn

/-- An RB_READ takes its samples from the front of the queue (R80). -/
theorem Ring.queue_dequeue {C n : Nat} {r r' : Ring} {out : List Word} (hd : r.dequeue C n = some (out, r')) :
    r.queue C = out ++ r'.queue C := by
  obtain ⟨hn, rfl, rfl⟩ := Ring.dequeue_eq_some_iff.1 hd
  rw [Ring.queue, Ring.queue, Memory.readRun_mod, ← Memory.readRun_add, Nat.add_sub_cancel' hn]

theorem Ring.count_dequeue {C n : Nat} {r r' : Ring} {out : List Word} (hd : r.dequeue C n = some (out, r')) :
    r'.count + out.length = r.count := by
  obtain ⟨hn, rfl, rfl⟩ := Ring.dequeue_eq_some_iff.1 hd
  rw [Memory.length_readRun]
  exact Nat.sub_add_cancel hn

end Sys2Proof.Machine
end

section
/-! SUPPORT. What a command does to the ring buffer (R81, R82): it writes what it delivers, reads what it returns, or leaves
the ring as it is. -/

namespace Sys2Proof.Machine

@[simp] theorem respondProcessed_rb (s : State) (snap : Snapshot) (st : Status) (block : List Word) :
    (respondProcessed s snap st block).rb = s.rb := State.respond_rb _ _ _

@[simp] theorem finishFile_rb (r : InFlight) (a : Answer) (s : State) : (finishFile r a s).rb = s.rb := by
  obtain ⟨st, h | h⟩ := finishFile_cases r a s <;> simp [h]

@[simp] theorem awaitAnswer_rb (r : InFlight) (s : State) : (awaitAnswer r s).rb = s.rb := by
  rcases awaitAnswer_cases r s with ⟨-, h⟩ | ⟨a, -, h⟩ <;> simp [h]

@[simp] theorem renderFile_rb (n : Count) (snap : Snapshot) (s : State) : (renderFile n snap s).rb = s.rb := by
  rcases renderFile_cases n snap s with ⟨-, h⟩ | ⟨-, -, h⟩ | ⟨-, -, h⟩ <;> simp [h]

/-- A RENDER in RING mode is RENDER_RING with the snapshot taken first (R99, R103). -/
theorem exec_render_ring {s : State} (n : Count) (hmode : s.cfg.sourceMode = .ring) :
    exec (.render n) s = .next (renderRing n (takeSnapshot s.par s.cfg s.draws).1
      { s with draws := (takeSnapshot s.par s.cfg s.draws).2 }) := by
  rcases execRender_cases n s with ⟨-, e⟩ | ⟨hfile, -⟩
  · exact e
  · cases hmode.symm.trans hfile

/-- The samples that a RENDER in RING mode takes are those of its RB_READ. -/
theorem returned_render_ring {s : State} {n : Count} (hmode : s.cfg.sourceMode = .ring) :
    returned (.render n) s = ((s.rb.dequeue s.par.C n.toNat).map Prod.fst).getD [] := by
  simp only [returned, hmode]
  cases s.rb.dequeue s.par.C n.toNat <;> rfl

theorem returned_render_file {s : State} {n : Count} (hmode : s.cfg.sourceMode = .file) :
    returned (.render n) s = [] := by
  simp only [returned, hmode]

/-- A command writes the samples it delivers, or reads those it returns, or does neither (R79, R80). -/
inductive Transfer (C : Nat) (r : Ring) : (delivered returned : List Word) → Ring → Prop
  | write {samples : List Word} : r.count + samples.length ≤ C → Transfer C r samples [] (r.enqueue C samples)
  | read {n : Nat} {out : List Word} {r' : Ring} : r.dequeue C n = some (out, r') → Transfer C r [] out r'
  | keep : Transfer C r [] [] r

/-- RENDER_RING returns the samples of its RB_READ, and on underrun none (R80, R105). -/
theorem transfer_renderRing (n : Count) (snap : Snapshot) (s : State) :
    Transfer s.par.C s.rb [] (((s.rb.dequeue s.par.C n.toNat).map Prod.fst).getD []) (renderRing n snap s).rb := by
  unfold renderRing
  cases hd : s.rb.dequeue s.par.C n.toNat with
  | none =>
    rw [State.respond_rb]
    exact .keep
  | some read =>
    rw [respondProcessed_rb]
    exact .read hd

/-- What every command does to the ring buffer. -/
theorem transfer_exec {i : Instr} {s t : State} (h : exec i s = .next t) :
    Transfer s.par.C s.rb (delivered i s) (returned i s) t.rb := by
  cases i with
  | rbWrite samples =>
    rcases execRbWrite_cases samples s with ⟨hfull, e⟩ | ⟨hfit, e⟩ <;> cases e.symm.trans h
    · rw [delivered, if_neg (by omega), State.respond_rb]
      exact .keep
    · rw [delivered, if_pos hfit, State.respond_rb]
      exact .write hfit
  | render n =>
    rcases execRender_cases n s with ⟨hmode, e⟩ | ⟨hmode, e⟩ <;> cases e.symm.trans h
    · rw [returned_render_ring hmode]
      exact transfer_renderRing n _ { s with draws := (takeSnapshot s.par s.cfg s.draws).2 }
    · rw [returned_render_file hmode, renderFile_rb]
      exact .keep
  | _ =>
    obtain ⟨-, -, -, -, -, hrb, -⟩ := exec_data h (by simp)
    rw [hrb rfl]
    exact .keep

section Transfer

variable {C : Nat} {r r' : Ring} {d out : List Word}

/-- The count over one command (R82). -/
theorem Transfer.count_add (h : Transfer C r d out r') : r'.count + out.length = r.count + d.length := by
  cases h with
  | write _ => rfl
  | read hd => exact Ring.count_dequeue hd
  | keep => rfl

theorem Transfer.count_le (h : Transfer C r d out r') (hr : r.count ≤ C) : r'.count ≤ C := by
  cases h with
  | write hfit => exact hfit
  | read hd => exact (Nat.le_add_right _ _).trans ((Ring.count_dequeue hd).trans_le hr)
  | keep => exact hr

theorem Transfer.legal (h : Transfer C r d out r') (hr : r.legal C = true) : r'.legal C = true := by
  cases h with
  | write hfit => exact Ring.legal_enqueue hr hfit
  | read hd => exact Ring.legal_dequeue hr hd
  | keep => exact hr

/-- The queue over one command: what it delivers goes in behind, what it returns comes off the front (R81). -/
theorem Transfer.queue_append (h : Transfer C r d out r') (hr : r.legal C = true) :
    r.queue C ++ d = out ++ r'.queue C := by
  cases h with
  | write hfit => exact (Ring.queue_enqueue hr hfit).symm
  | read hd => rw [List.append_nil, Ring.queue_dequeue hd]
  | keep => exact List.append_nil _

end Transfer

/-- A run of commands is its first command and then the rest (R60). -/
theorem performAll_cons_eq_some {i : Instr} {is : List Instr} {s u : State} {d r : List Word}
    (h : performAll (i :: is) s = some (u, d, r)) :
    ∃ t d' r', exec i s = .next t ∧ performAll is t = some (u, d', r') ∧ d = delivered i s ++ d'
      ∧ r = returned i s ++ r' := by
  obtain ⟨t, ht⟩ := exec_next i s
  simp only [performAll, ht] at h
  cases hrest : performAll is t with
  | none => simp [hrest] at h
  | some x =>
    obtain ⟨u', d', r'⟩ := x
    simp only [hrest, Option.some.injEq, Prod.mk.injEq] at h
    obtain ⟨rfl, rfl, rfl⟩ := h
    exact ⟨t, d', r', ht, hrest, rfl, rfl⟩

end Sys2Proof.Machine
end

section
/-! The obligations on the ring buffer (40_ring_buffer.md), and the RENDER that reads it (R105). -/

namespace Sys2Proof.Machine

/-- Settles O22, by induction on the commands: each moves the front and the back of the queue by what it returns and
delivers, and keeps the ring legal. -/
theorem queueIsFirstInFirstOut : Obligations.QueueIsFirstInFirstOut := by
  unfold Obligations.QueueIsFirstInFirstOut
  intro is
  induction is with
  | nil =>
    rintro s _ _ _ - ⟨⟩
    exact List.append_nil _
  | cons i is ih =>
    intro s u d r hlegal h
    obtain ⟨t, d', r', hexec, hrest, rfl, rfl⟩ := performAll_cons_eq_some h
    have hpar : t.par = s.par := (sameCommands_exec hexec).par
    have htransfer := transfer_exec hexec
    have hone : s.queue ++ delivered i s = returned i s ++ t.queue := by
      rw [State.queue, State.queue, hpar]
      exact htransfer.queue_append hlegal
    have hall : t.queue ++ d' = r' ++ u.queue := ih t u d' r' (hpar ▸ htransfer.legal hlegal) hrest
    calc s.queue ++ (delivered i s ++ d')
        = (s.queue ++ delivered i s) ++ d' := (List.append_assoc _ _ _).symm
      _ = returned i s ++ (t.queue ++ d') := by rw [hone, List.append_assoc]
      _ = (returned i s ++ r') ++ u.queue := by rw [hall, List.append_assoc]

/-- Settles O20: the slots by the run of writes from `head`, which is shorter than one round. -/
theorem rbWriteStoresEverySample : Obligations.RbWriteStoresEverySample := by
  unfold Obligations.RbWriteStoresEverySample
  intro s samples hlegal hfit
  obtain ⟨-, -, -, -, hwf, -⟩ := (Ring.legal_iff _ _).1 hlegal
  rcases execRbWrite_cases samples s with ⟨hfull, -⟩ | ⟨-, e⟩
  · omega
  · refine ⟨_, e, ?_⟩
    rw [State.respond_rb]
    exact ⟨rfl, rfl, rfl, Memory.read_writeRun_slot hwf _ (by omega),
      fun k => Memory.read_writeRun_other hwf _ samples, rfl⟩

/-- Settles O23: the count of one transfer. -/
theorem countIsConserved : Obligations.CountIsConserved := by
  unfold Obligations.CountIsConserved
  intro i s hintact
  have hcount : s.rb.count ≤ s.par.C := by
    simp only [Ring.intact, Bool.and_eq_true, decide_eq_true_eq] at hintact
    obtain ⟨⟨⟨hcount, -⟩, -⟩, -⟩ := hintact
    exact hcount
  obtain ⟨t, ht⟩ := exec_next i s
  exact ⟨t, ht, (transfer_exec ht).count_add, (transfer_exec ht).count_le hcount⟩

/-- Settles O43: RENDER_RING with enough samples queued, on the snapshot taken first. -/
theorem renderProcessesTheOldestSamples : Obligations.RenderProcessesTheOldestSamples := by
  unfold Obligations.RenderProcessesTheOldestSamples
  intro s n hmode hn
  rcases renderRing_cases n (takeSnapshot s.par s.cfg s.draws).1
    { s with draws := (takeSnapshot s.par s.cfg s.draws).2 } with ⟨hless, -⟩ | ⟨-, e⟩
  · exact absurd hn (Nat.not_le.2 hless)
  · rw [exec_render_ring n hmode, e]
    rfl

/-- Settles O21: the write by its check on the free slots, the read by that on the queued samples. -/
theorem rejectedTransfersMoveNothing : Obligations.RejectedTransfersMoveNothing := by
  unfold Obligations.RejectedTransfersMoveNothing
  constructor
  · intro s samples hfull
    rcases execRbWrite_cases samples s with ⟨-, e⟩ | ⟨hfit, -⟩
    · exact e
    · omega
  · intro s n hmode hless
    refine ⟨_, exec_render_ring n hmode, ?_⟩
    rcases renderRing_cases n (takeSnapshot s.par s.cfg s.draws).1
      { s with draws := (takeSnapshot s.par s.cfg s.draws).2 } with ⟨-, e⟩ | ⟨henough, -⟩
    · rw [e, State.respond_rb]
    · exact absurd hless (Nat.not_lt.2 henough)

end Sys2Proof.Machine
end

section
/-! SUPPORT. The binary32 numbers of `[+0.0, 1.0]`: a legal LP_ALPHA (R38), the echo's feedback (R10) and the powers of it
(R92) are such numbers, and products, complements and sums with `+0.0` stay among them (R16). -/

namespace Sys2Proof.Machine

/-- What is at most 1.0 is rounded to at most 1.0: 1.0 itself would be nearer than anything above it. -/
theorem roundMag_le_one {num den : Nat} (hd : 0 < den) (h : num ≤ 2 ^ 149 * den) : roundMag num den ≤ F32.mag one := by
  have hone : magUnits (F32.mag one) = 2 ^ 149 := by decide
  have hfin : roundMag num den < F32.infMag := by
    refine lt_of_le_of_ne (roundMag_le _ _) fun hinf => ?_
    rw [roundMag_eq_infMag_iff num hd] at hinf
    omega
  by_contra hgt
  have hunits : magUnits (F32.mag one) < magUnits (roundMag num den) := magUnits_strictMono (Nat.lt_of_not_le hgt)
  have hnear := (roundMag_nearest hd hfin (F32.mag one)).1
  rw [hone] at hunits hnear
  have hlt : 2 ^ 149 * den < magUnits (roundMag num den) * den := Nat.mul_lt_mul_of_pos_right hunits hd
  rw [← Int.natCast_mul, ← Int.natCast_mul] at hnear
  omega

@[simp] theorem key_silence : F32.key silence = 0 := rfl

/-- A number of `[+0.0, 1.0]`, and not `-0.0`. -/
def F32.InUnit (a : Word) : Prop := F32.neg? a = false ∧ F32.mag a ≤ F32.mag one

theorem F32.inUnit_iff (a : Word) : F32.InUnit a ↔ fle silence a = true ∧ fle a one = true ∧ a ≠ negZero := by
  have hone : F32.mag one < F32.infMag := by decide
  have hzero : a = negZero ↔ F32.neg? a = true ∧ F32.mag a = 0 :=
    ⟨by rintro rfl; exact ⟨rfl, rfl⟩, fun ⟨hs, hm⟩ => eq_of_neg?_of_mag hs hm⟩
  rw [ne_eq, hzero, fle_iff, fle_iff, key_silence, show F32.key one = F32.mag one from rfl,
    show F32.isNaN silence = false from rfl, show F32.isNaN one = false from rfl, F32.isNaN, decide_eq_false_iff_not,
    F32.InUnit, F32.key]
  cases F32.neg? a <;> simp <;> omega

theorem F32.inUnit_of_legalAlpha {a : Word} (h : legalAlpha a = true) : F32.InUnit a := by
  simp only [legalAlpha, Bool.and_eq_true, bne_iff_ne] at h
  obtain ⟨⟨hlow, hhigh⟩, hzero⟩ := h
  exact (F32.inUnit_iff a).2 ⟨hlow, hhigh, hzero⟩

/-- A legal feedback is one, but for `-0.0` (R10). -/
theorem F32.inUnit_feedback {p : Params} (h : legalParams p = true) (hF : p.F ≠ negZero) : F32.InUnit p.F := by
  simp only [legalParams, Bool.and_eq_true] at h
  obtain ⟨⟨⟨-, ⟨-, hlow⟩, hhigh⟩, -⟩, -⟩ := h
  obtain ⟨hnan, hnan', hlt⟩ := (flt_iff _ _).1 hhigh
  exact (F32.inUnit_iff _).2 ⟨hlow, (fle_iff _ _).2 ⟨hnan, hnan', hlt.le⟩, hF⟩

theorem F32.inUnit_silence : F32.InUnit silence := ⟨rfl, by decide⟩

theorem F32.inUnit_one : F32.InUnit one := ⟨rfl, le_rfl⟩

theorem F32.inUnit_pack {num den : Nat} (hd : 0 < den) (h : num ≤ 2 ^ 149 * den) :
    F32.InUnit (F32.pack false (roundMag num den)) :=
  ⟨neg?_pack_roundMag _ _ _, (mag_pack_roundMag _ _ _).trans_le (roundMag_le_one hd h)⟩

section InUnit

variable {a b : Word}

theorem F32.InUnit.neg?_eq (ha : F32.InUnit a) : F32.neg? a = false := ha.1

theorem F32.InUnit.mag_le (ha : F32.InUnit a) : F32.mag a ≤ F32.mag one := ha.2

theorem F32.InUnit.isFinite (ha : F32.InUnit a) : F32.isFinite a = true :=
  decide_eq_true (ha.mag_le.trans_lt (by decide))

theorem F32.InUnit.units_le (ha : F32.InUnit a) : F32.units a ≤ 2 ^ 149 := by
  calc F32.units a ≤ magUnits (F32.mag one) := magUnits_strictMono.monotone ha.mag_le
    _ = 2 ^ 149 := by decide

theorem F32.InUnit.value_eq (ha : F32.InUnit a) : F32.value a = F32.units a := by
  simp [F32.value, ha.neg?_eq]

theorem F32.InUnit.mul (ha : F32.InUnit a) (hb : F32.InUnit b) : ∃ c, F32.mul a b = some c ∧ F32.InUnit c := by
  refine ⟨_, F32.mul_of_isFinite ha.isFinite hb.isFinite, ?_⟩
  rw [ha.neg?_eq, hb.neg?_eq]
  exact F32.inUnit_pack (Nat.two_pow_pos 149) (Nat.mul_le_mul ha.units_le hb.units_le)

/-- `1.0 − a` is a number of `[+0.0, 1.0]` too. -/
theorem F32.InUnit.one_sub (ha : F32.InUnit a) : ∃ c, F32.sub one a = some c ∧ F32.InUnit c := by
  refine ⟨_, F32.sub_of_isFinite rfl ha.isFinite, ?_⟩
  have hle := ha.units_le
  have hone : F32.value one = 2 ^ 149 := by decide
  have hsign : decide (F32.value one - F32.value a < 0) = false := by
    rw [decide_eq_false_iff_not, hone, ha.value_eq]
    omega
  rw [hsign, show F32.neg? one = false from rfl, Bool.false_and, ite_self]
  refine F32.inUnit_pack Nat.one_pos ?_
  rw [hone, ha.value_eq]
  omega

/-- A product with `+0.0` is `+0.0`. -/
theorem F32.InUnit.mul_silence (ha : F32.InUnit a) : F32.mul a silence = some silence := by
  rw [F32.mul_of_isFinite ha.isFinite rfl, ha.neg?_eq, show F32.units silence = 0 from rfl, Nat.mul_zero]
  rfl

theorem F32.InUnit.add_silence (ha : F32.InUnit a) : F32.add a silence = some a :=
  F32.add_of_isZero_right ha.isFinite rfl fun _ hneg => by simp [ha.neg?_eq] at hneg

theorem F32.InUnit.silence_add (ha : F32.InUnit a) : F32.add silence a = some a := by
  rw [← ha.add_silence, F32.add_of_isFinite rfl ha.isFinite, F32.add_of_isFinite ha.isFinite rfl, Int.add_comm,
    Bool.and_comm]

end InUnit

theorem F32.inUnit_echoPower {F : Word} (hF : F32.InUnit F) (k : Nat) : F32.InUnit (echoPower F k) := by
  induction k with
  | zero => exact F32.inUnit_one
  | succ k ih =>
    obtain ⟨c, hc, hunit⟩ := hF.mul ih
    simpa [echoPower, hc] using hunit

/-- Each power of `F` is a product that is a number (R92). -/
theorem mul_echoPower {F : Word} (hF : F32.InUnit F) (k : Nat) :
    F32.mul F (echoPower F k) = some (echoPower F (k + 1)) := by
  obtain ⟨c, hc, -⟩ := hF.mul (F32.inUnit_echoPower hF k)
  simp [echoPower, hc]

end Sys2Proof.Machine
end

section
/-! SUPPORT. What each stage of the filter bank does (R87 to R97), in one lemma for each case, and the pipeline with stages
switched off (R91, R94). -/

namespace Sys2Proof.Machine

/-! ### The taps -/

/-- Tap `t + j` of those from `t` on, whose weight is a number where the base decay is finite (R87). -/
theorem getElem?_tapsFrom {B : Word} (hB : F32.isFinite B = true) (D : Nat) {t k j : Nat} (draws : Nat)
    (hj : j < k) (h : t + k ≤ 2 ^ 24) :
    ∃ w, F32.div B (F32.ofNat (t + j + 1)) = some w
      ∧ (tapsFrom B D t k draws).1[j]? = some { delay := D / (t + j + 1), weight := w } := by
  induction k generalizing t j draws with
  | zero => omega
  | succ k ih =>
    cases j with
    | zero =>
      obtain ⟨w, hw⟩ := Option.ne_none_iff_exists'.1 (div_ofNat_ne_none hB (Nat.succ_pos t) (by omega))
      exact ⟨w, hw, by simp [tapsFrom, fdiv, hw]⟩
    | succ j =>
      rw [show t + (j + 1) = t + 1 + j by omega]
      exact ih _ (by omega) (by omega)

/-! ### The low-pass -/

section Lowpass

variable {a : Word} (x : Word) (f : Filters) (draws : Nat)

theorem lowpass_of_fle (h : fle a silence = true) :
    lowpass a x f draws = { y := x, fb := { f with lpMem := x }, draws := draws } := if_pos h

theorem lowpass_of_not_fle (h : fle a silence = false) :
    lowpass a x f draws =
      let t1 := fmul a x draws
      let t2 := fsub one a t1.2
      let t3 := fmul t2.1 f.lpMem t2.2
      let y := fadd t1.1 t3.1 t3.2
      { y := y.1, fb := { f with lpMem := y.1 }, draws := y.2 } := if_neg (by simp [h])

@[simp] theorem lowpass_eh (a : Word) : (lowpass a x f draws).fb.eh = f.eh := by
  unfold lowpass
  split <;> rfl

@[simp] theorem lowpass_rh (a : Word) : (lowpass a x f draws).fb.rh = f.rh := by
  unfold lowpass
  split <;> rfl

variable {f}

/-- Silence stays silence: both products and their sum are `+0.0` (R89). -/
theorem lowpass_silence (ha : F32.InUnit a) (hmem : f.lpMem = silence) :
    lowpass a silence f draws = { y := silence, fb := f, draws := draws } := by
  obtain ⟨c, hc, hunit⟩ := ha.one_sub
  cases hle : fle a silence with
  | true => rw [lowpass_of_fle _ _ _ hle, ← hmem]
  | false =>
    rw [lowpass_of_not_fle _ _ _ hle]
    simp only [fmul, fsub, fadd, ha.mul_silence, hc, hmem, hunit.mul_silence, F32.inUnit_silence.add_silence,
      settle_some]
    rw [← hmem]

end Lowpass

/-! ### Slots behind a cursor -/

theorem slotBehind_zero {len cursor : Nat} (h : cursor < len) : slotBehind len cursor 0 = cursor := by
  rw [slotBehind_eq h (by omega), if_pos (Nat.zero_le _), Nat.sub_zero]

/-- A slot behind the cursor is another slot. -/
theorem slotBehind_ne {len cursor d : Nat} (hc : cursor < len) (hd : d < len) (h0 : d ≠ 0) :
    slotBehind len cursor d ≠ cursor := by
  rw [slotBehind_eq hc hd]
  split_ifs <;> omega

/-- What was `d` behind is one more behind after the cursor's advance (R101). -/
theorem slotBehind_succ {len : Nat} (cursor d : Nat) :
    slotBehind len ((cursor + 1) % len) (d + 1) = slotBehind len cursor d := by
  unfold slotBehind
  rw [Int.natCast_mod, Int.emod_sub_emod, Nat.cast_add, Nat.cast_add, add_sub_add_right_eq_sub]

/-- A read behind the cursor of a history just written there sees the written word for no delay, and else what was there
before (R90, R93). -/
theorem Memory.read_slotBehind_write {m : Memory} {len cursor d : Nat} (x : Word) (hm : m.wf = true)
    (hc : cursor < len) (hd : d < len) :
    (m.write cursor x).read (slotBehind len cursor d) = if d = 0 then x else m.read (slotBehind len cursor d) := by
  split_ifs with h0
  · rw [h0, slotBehind_zero hc, Memory.read_write_same hm]
  · rw [Memory.read_write_other hm x (slotBehind_ne hc hd h0).symm]

/-- The provisional sample leaves nothing behind: the sum takes its slot (R90). -/
theorem Memory.read_write_write {m : Memory} (hm : m.wf = true) (i j : Nat) (v w : Word) :
    ((m.write i v).write i w).read j = if i = j then w else m.read j := by
  rw [Memory.read_write (Memory.wf_write i v hm), Memory.read_write hm]
  split_ifs <;> rfl

/-! ### The echo -/

section Echo

variable {p : Params} {D : Nat} {f : Filters} (x : Word) (draws : Nat)

/-- The sum that the echo returns and stores (R90). -/
def echoSum (p : Params) (D : Nat) (x : Word) (f : Filters) (draws : Nat) : Word × Nat :=
  let fv := fmul p.F (if D = 0 then x else f.eh.read (slotBehind p.M f.ei D)) draws
  fadd x fv.1 fv.2

theorem echo_eq (hwf : f.eh.wf = true) (hei : f.ei < p.M) (hD : D < p.M) :
    echo p D x f draws =
      let y := echoSum p D x f draws
      { y := y.1, fb := { f with eh := (f.eh.write f.ei x).write f.ei y.1 }, draws := y.2 } := by
  simp only [echo, echoSum, Memory.read_slotBehind_write x hwf hei hD]

end Echo

/-! ### The reverb -/

/-- Add a tap to the accumulator, with the input `x` already in the history (R93). -/
def addTap (M ri : Nat) (x : Word) (acc : Word × Nat) (c : Memory × Tap) : Word × Nat :=
  let wv := fmul c.2.weight (if c.2.delay = 0 then x else c.1.read (slotBehind M ri c.2.delay)) acc.2
  fadd acc.1 wv.1 wv.2

/-- The reverb's sum is a fold over the taps with their histories as they were before the input was written (R93). -/
theorem tapSum_write {M ri : Nat} (hri : ri < M) (x : Word) {hs : List Memory} {taps : List Tap} (acc : Word × Nat)
    (hwf : ∀ h ∈ hs, h.wf = true) (hdelay : ∀ tap ∈ taps, tap.delay < M) :
    tapSum M ri ((hs.map fun h => h.write ri x).zip taps) acc.1 acc.2 = (hs.zip taps).foldl (addTap M ri x) acc := by
  induction hs generalizing taps acc with
  | nil => rfl
  | cons h hs ih =>
    cases taps with
    | nil => rfl
    | cons tap taps =>
      rw [List.forall_mem_cons] at hwf hdelay
      obtain ⟨hwf, hwfs⟩ := hwf
      obtain ⟨hdelay, hdelays⟩ := hdelay
      simp only [List.map_cons, List.zip_cons_cons, tapSum, Memory.read_slotBehind_write x hwf hri hdelay,
        List.foldl_cons]
      exact ih _ hwfs hdelays

theorem reverb_eq {p : Params} {f : Filters} {taps : List Tap} (x : Word) (draws : Nat) (hri : f.ri < p.M)
    (hwf : ∀ h ∈ f.rh, h.wf = true) (hdelay : ∀ tap ∈ taps, tap.delay < p.M) :
    reverb p taps x f draws =
      let sum := (f.rh.zip taps).foldl (addTap p.M f.ri x) (silence, draws)
      let y := fadd x sum.1 sum.2
      { y := y.1, fb := { f with rh := f.rh.map fun h => h.write f.ri x }, draws := y.2 } := by
  simp only [reverb, tapSum_write hri x (silence, draws) hwf hdelay]

/-! ### The distortion -/

@[simp] theorem key_neg (a : Word) : F32.key (F32.neg a) = -F32.key a := by
  simp only [F32.key, neg?_neg, mag_neg]
  cases F32.neg? a <;> simp

section Clip

variable {L v : Word}

theorem clip_of_isNaN (h : F32.isNaN v = true) : clip L v = silence := if_pos h

theorem clip_of_fgt (h : fgt v L = true) : clip L v = L := by
  obtain ⟨-, hnan, -⟩ := (flt_iff _ _).1 h
  simp [clip, hnan, h]

/-- For a limit above zero no value is above it and below its negative. -/
theorem clip_of_flt (hL : flt silence L = true) (h : flt v (F32.neg L) = true) : clip L v = F32.neg L := by
  obtain ⟨-, -, hpos⟩ := (flt_iff _ _).1 hL
  obtain ⟨hnan, -, hbelow⟩ := (flt_iff _ _).1 h
  have hlow : fgt v L = false := by
    rw [Bool.eq_false_iff, fgt, ne_eq, flt_iff]
    rintro ⟨-, -, habove⟩
    rw [key_neg] at hbelow
    rw [key_silence] at hpos
    omega
  simp [clip, hnan, hlow, h]

theorem clip_of_within (hnan : F32.isNaN v = false) (hhigh : fgt v L = false) (hlow : flt v (F32.neg L) = false) :
    clip L v = v := by
  simp [clip, hnan, hhigh, hlow]

/-- Everything the clip can do with a limit above zero (R96). -/
theorem clip_cases (v : Word) (hL : flt silence L = true) :
    clip L v = silence ∨ clip L v = L ∨ clip L v = F32.neg L
      ∨ F32.isNaN v = false ∧ fgt v L = false ∧ flt v (F32.neg L) = false ∧ clip L v = v := by
  cases hnan : F32.isNaN v with
  | true => exact .inl (clip_of_isNaN hnan)
  | false =>
    cases hhigh : fgt v L with
    | true => exact .inr (.inl (clip_of_fgt hhigh))
    | false =>
      cases hlow : flt v (F32.neg L) with
      | true => exact .inr (.inr (.inl (clip_of_flt hL hlow)))
      | false => exact .inr (.inr (.inr ⟨rfl, rfl, rfl, clip_of_within hnan hhigh hlow⟩))

/-- The clip gives a number of `[−L, +L]` (R98). -/
theorem clip_mem (v : Word) (hL : flt silence L = true) :
    F32.isNaN (clip L v) = false ∧ fle (F32.neg L) (clip L v) = true ∧ fle (clip L v) L = true := by
  obtain ⟨-, hnanL, hpos⟩ := (flt_iff _ _).1 hL
  have hnanN : F32.isNaN (F32.neg L) = false := by rwa [isNaN_neg]
  rw [key_silence] at hpos
  have hle {a b : Word} : F32.isNaN a = false → F32.isNaN b = false → F32.key a ≤ F32.key b → fle a b = true :=
    fun ha hb hkey => (fle_iff a b).2 ⟨ha, hb, hkey⟩
  rcases clip_cases v hL with h | h | h | ⟨hnan, hhigh, hlow, h⟩ <;> rw [h]
  · exact ⟨rfl, hle hnanN rfl (by rw [key_neg, key_silence]; omega), hle rfl hnanL hpos.le⟩
  · exact ⟨hnanL, hle hnanN hnanL (by rw [key_neg]; omega), hle hnanL hnanL le_rfl⟩
  · exact ⟨hnanN, hle hnanN hnanN le_rfl, hle hnanN hnanL (by rw [key_neg]; omega)⟩
  · exact ⟨hnan, fle_of_not_flt hnanN hnan hlow, fle_of_not_flt hnan hnanL hhigh⟩

end Clip

/-! ### The pipeline -/

section Pipeline

variable {p : Params} {snap : Snapshot} (x : Word) (f : Filters) (draws : Nat)

@[simp] theorem echo_rh (D : Nat) : (echo p D x f draws).fb.rh = f.rh := rfl

@[simp] theorem reverb_eh (taps : List Tap) : (reverb p taps x f draws).fb.eh = f.eh := rfl

@[simp] theorem distort_fb (g : Word) : (distort p g x f draws).fb = f := rfl

@[simp] theorem bypass_fb : (bypass x f draws).fb = f := rfl

/-- With the echo off no stage writes its history (R91). -/
theorem processSample_eh (hecho : snap.cfg.echoEnabled = false) :
    (processSample p snap x f draws).fb.eh = f.eh := by
  simp only [processSample, advanceCursors, hecho, Bool.false_eq_true, if_false]
  split_ifs <;> simp

/-- With the reverb off no stage writes its histories (R94). -/
theorem processSample_rh (hreverb : snap.cfg.reverbEnabled = false) :
    (processSample p snap x f draws).fb.rh = f.rh := by
  simp only [processSample, advanceCursors, hreverb, Bool.false_eq_true, if_false]
  split_ifs <;> simp

/-- With the three effects off a sample passes the low-pass alone (R91, R94, R100). -/
theorem processSample_lowpass (hecho : snap.cfg.echoEnabled = false) (hreverb : snap.cfg.reverbEnabled = false)
    (hdist : snap.cfg.distortionEnabled = false) :
    processSample p snap x f draws =
      let a := lowpass snap.cfg.lowpassAlpha x f draws
      { a with fb := advanceCursors p.M a.fb } := by
  simp [processSample, hecho, hreverb, hdist, bypass]

/-- With the echo alone in effect (R92) a sample passes the echo, and the low-pass keeps its input. -/
theorem processSample_echo (hlp : snap.cfg.lowpassAlpha = silence) (hecho : snap.cfg.echoEnabled = true)
    (hreverb : snap.cfg.reverbEnabled = false) (hdist : snap.cfg.distortionEnabled = false) :
    processSample p snap x f draws =
      let a := echo p snap.delay x { f with lpMem := x } draws
      { a with fb := advanceCursors p.M a.fb } := by
  have hzero : fle silence silence = true := rfl
  simp [processSample, hlp, lowpass_of_fle x f draws hzero, hecho, hreverb, hdist, bypass]

end Pipeline

end Sys2Proof.Machine
end

section
/-! SUPPORT. The echo's response to a unit impulse (R92): what the history holds before each sample of it. -/

namespace Sys2Proof.Machine

/-- Sample `k` of the response: a power of `F` at each multiple of `D`, and `+0.0` elsewhere. -/
def echoImpulse (F : Word) (D k : Nat) : Word := if k % D = 0 then echoPower F (k / D) else silence

/-- Sample `k` of the unit impulse. -/
def unitImpulse (k : Nat) : Word := if k = 0 then one else silence

/-- Before sample `k` of the response the slots up to `D` behind the cursor hold the samples of the response that far back,
and `+0.0` where that is before its start. -/
structure HoldsResponse (p : Params) (D k : Nat) (f : Filters) : Prop where
  wf : f.eh.wf = true
  cursor : f.ei < p.M
  behind : ∀ d, 1 ≤ d → d ≤ D → f.eh.read (slotBehind p.M f.ei d) = if d ≤ k then echoImpulse p.F D (k - d) else silence

theorem F32.inUnit_unitImpulse (k : Nat) : F32.InUnit (unitImpulse k) := by
  unfold unitImpulse
  split_ifs
  · exact F32.inUnit_one
  · exact F32.inUnit_silence

/-- Before its first echo the response is the impulse. -/
theorem echoImpulse_of_lt {D k : Nat} (F : Word) (h : k < D) : echoImpulse F D k = unitImpulse k := by
  rw [echoImpulse, unitImpulse, Nat.mod_eq_of_lt h, Nat.div_eq_of_lt h]
  rfl

section Feedback

variable {F : Word} (hF : F32.InUnit F)
include hF

theorem F32.inUnit_echoImpulse (D k : Nat) : F32.InUnit (echoImpulse F D k) := by
  unfold echoImpulse
  split_ifs
  · exact F32.inUnit_echoPower hF _
  · exact F32.inUnit_silence

/-- The response `D` later is its product with `F`. -/
theorem mul_echoImpulse {D : Nat} (hD : 1 ≤ D) (k : Nat) :
    F32.mul F (echoImpulse F D k) = some (echoImpulse F D (k + D)) := by
  rw [echoImpulse, echoImpulse, Nat.add_mod_right, Nat.add_div_right k hD]
  split_ifs
  · exact mul_echoPower hF _
  · exact hF.mul_silence

end Feedback

section Response

variable {p : Params} {D k : Nat} {f : Filters} (hF : F32.InUnit p.F) (hpos : 1 ≤ D) (h : HoldsResponse p D k f)
include hF hpos h

/-- The echo's sum is the response's next sample: the impulse before the first echo, and from then on the feedback. -/
theorem echoSum_unitImpulse (draws : Nat) : echoSum p D (unitImpulse k) f draws = (echoImpulse p.F D k, draws) := by
  simp only [echoSum, if_neg (Nat.ne_of_gt hpos), h.behind D hpos le_rfl, fmul, fadd]
  split_ifs with hk
  · have hzero : unitImpulse k = silence := if_neg (by omega)
    rw [mul_echoImpulse hF hpos, Nat.sub_add_cancel hk, settle_some, hzero,
      (F32.inUnit_echoImpulse hF D k).silence_add, settle_some]
  · rw [hF.mul_silence, settle_some, (F32.inUnit_unitImpulse k).add_silence, settle_some,
      echoImpulse_of_lt p.F (Nat.lt_of_not_le hk)]

/-- One sample of the response (R90), and what the history holds once the cursor has advanced. -/
theorem echo_unitImpulse (hD : D < p.M) (draws : Nat) :
    (echo p D (unitImpulse k) f draws).y = echoImpulse p.F D k
      ∧ HoldsResponse p D (k + 1) (advanceCursors p.M (echo p D (unitImpulse k) f draws).fb) := by
  rw [echo_eq _ _ h.wf h.cursor hD, echoSum_unitImpulse hF hpos h]
  refine ⟨rfl, Memory.wf_write _ _ (Memory.wf_write _ _ h.wf), Nat.mod_lt _ (by omega), fun d hd hdD => ?_⟩
  obtain ⟨d, rfl⟩ := Nat.exists_eq_add_of_le' hd
  have hdM : d < p.M := by omega
  simp only [advanceCursors, slotBehind_succ, Memory.read_slotBehind_write _ (Memory.wf_write _ _ h.wf) h.cursor hdM,
    Memory.read_slotBehind_write _ h.wf h.cursor hdM, Nat.add_le_add_iff_right, Nat.add_sub_add_right]
  cases d with
  | zero => simp
  | succ d =>
    rw [if_neg (Nat.succ_ne_zero d), if_neg (Nat.succ_ne_zero d)]
    exact h.behind (d + 1) (by omega) (by omega)

end Response

/-- From sample `k` of the impulse on, the echo alone gives the response from sample `k` on. -/
theorem processBlock_unitImpulse {p : Params} {snap : Snapshot} (hF : F32.InUnit p.F)
    (hlp : snap.cfg.lowpassAlpha = silence) (hecho : snap.cfg.echoEnabled = true)
    (hreverb : snap.cfg.reverbEnabled = false) (hdist : snap.cfg.distortionEnabled = false) (hpos : 1 ≤ snap.delay)
    (hD : snap.delay < p.M) (n : Nat) {k : Nat} {f : Filters} (draws : Nat) (h : HoldsResponse p snap.delay k f) :
    (processBlock p snap ((List.range' k n).map unitImpulse) f draws).out
      = (List.range' k n).map (echoImpulse p.F snap.delay) := by
  induction n generalizing k f draws with
  | zero => rfl
  | succ n ih =>
    have hmem : HoldsResponse p snap.delay k { f with lpMem := unitImpulse k } := ⟨h.wf, h.cursor, h.behind⟩
    obtain ⟨hy, hnext⟩ := echo_unitImpulse hF hpos hmem hD draws
    simp only [List.range'_succ, List.map_cons, processBlock, processSample_echo _ _ _ hlp hecho hreverb hdist, hy,
      ih _ hnext]

/-- R92's input: 1.0 and then silence. -/
theorem map_unitImpulse_range' (n : Nat) :
    (List.range' 0 (n + 1)).map unitImpulse = one :: List.replicate n silence := by
  rw [List.range'_succ, List.map_cons, List.cons.injEq]
  refine ⟨rfl, List.eq_replicate_iff.2 ⟨by simp, fun w hw => ?_⟩⟩
  obtain ⟨k, hk, rfl⟩ := List.mem_map.1 hw
  exact if_neg (by have := List.mem_range'_1.1 hk; omega)

end Sys2Proof.Machine
end

section
/-! The obligations on the filter bank (41_filters.md). -/

namespace Sys2Proof.Machine

/-- Settles O29: a legal delay is a natural number, so that the division is the one of R86. -/
theorem delayInSamplesIsExact : Obligations.DelayInSamplesIsExact := by
  unfold Obligations.DelayInSamplesIsExact
  intro p c hp hd
  obtain ⟨-, hM⟩ := pos_of_legalParams hp
  obtain ⟨hpos, -⟩ := of_decide_eq_true hd
  obtain ⟨d, hd⟩ := Int.eq_ofNat_of_zero_le (Int.le_of_lt hpos)
  rw [delaySamples, ← s32, hd, Int.toNat_natCast]
  constructor
  · push_cast [Nat.cast_sub hM]
    rfl
  · omega

/-- Settles O31: tap by tap, from the recursion that makes them. -/
theorem tapsHaveTheirDelaysAndWeights : Obligations.TapsHaveTheirDelaysAndWeights := by
  unfold Obligations.TapsHaveTheirDelaysAndWeights
  intro p c draws hp
  refine ⟨takeSnapshot_draws hp c draws, rfl, rfl, length_tapsFrom _ _ _ _ _, fun j hj => ?_⟩
  simp only [legalParams, Bool.and_eq_true, decide_eq_true_eq] at hp
  obtain ⟨⟨⟨⟨⟨⟨-, -⟩, -, hK⟩, -⟩, -⟩, hB, -⟩, -⟩ := hp
  simpa [takeSnapshot] using getElem?_tapsFrom hB (delaySamples p c) (t := 0) draws hj (by omega)

/-- Settles O32: by induction on the stream, whose every sample leaves the memory at `+0.0`; the passthrough is R88's
first case. -/
theorem lowpassKeepsSilenceAndPassesThrough : Obligations.LowpassKeepsSilenceAndPassesThrough := by
  unfold Obligations.LowpassKeepsSilenceAndPassesThrough
  refine ⟨fun p snap f draws n ha hecho hreverb hdist hmem => ?_, fun a => lowpass_of_fle⟩
  induction n generalizing f draws with
  | zero => rfl
  | succ n ih =>
    simp only [List.replicate_succ, processBlock, processSample_lowpass _ _ _ hecho hreverb hdist,
      lowpass_silence draws (F32.inUnit_of_legalAlpha ha) hmem]
    exact congrArg (List.cons silence) (ih _ _ hmem)

/-- Settles O33: R88's second case. -/
theorem lowpassFormula : Obligations.LowpassFormula := by
  unfold Obligations.LowpassFormula
  exact fun _ => lowpass_of_not_fle

/-- Settles O34: the echo returns and stores one sum, whose slot is the only one that changes. -/
theorem echoAddsTheDelayedSum : Obligations.EchoAddsTheDelayedSum := by
  unfold Obligations.EchoAddsTheDelayedSum
  intro p D x f draws hwf hei hD
  rw [echo_eq x draws hwf hei hD]
  refine ⟨rfl, rfl, ?_, fun j hj => ?_, rfl⟩
  · exact Memory.read_write_same (Memory.wf_write _ _ hwf) _ _
  · rw [Memory.read_write_write hwf, if_neg hj.symm]

/-- Settles O35: the history at zero holds the response before its start, and every sample of the impulse keeps it. -/
theorem echoOfAnImpulseDecays : Obligations.EchoOfAnImpulseDecays := by
  unfold Obligations.EchoOfAnImpulseDecays
  intro p snap f draws n hp hF hlp hecho hreverb hdist hpos hD heh hei
  have hstart : HoldsResponse p snap.delay 0 f :=
    ⟨by rw [heh]; rfl, hei, fun d hd _ => by rw [heh, if_neg (by omega)]; rfl⟩
  rw [← map_unitImpulse_range', List.range_eq_range']
  exact processBlock_unitImpulse (F32.inUnit_feedback hp hF) hlp hecho hreverb hdist hpos hD (n + 1) draws hstart

/-- Settles O36: the reverb's sum as a fold over the histories before the write, and the write by its slot. -/
theorem reverbAddsTheWeightedTaps : Obligations.ReverbAddsTheWeightedTaps := by
  unfold Obligations.ReverbAddsTheWeightedTaps
  intro p taps x f draws hf hdelay
  obtain ⟨hei, hri, -, -, hrh, -⟩ := (Filters.legal_iff p f).1 hf
  rw [reverb_eq x draws (hri ▸ hei) (fun h hh => (hrh h hh).1) hdelay]
  refine ⟨rfl, rfl, List.length_map _, fun t h h' hh hh' => ?_, rfl⟩
  obtain ⟨hwf, -⟩ := hrh h (List.mem_of_getElem? hh)
  obtain rfl : h.write f.ri x = h' := by simpa [hh] using hh'
  exact ⟨Memory.read_write_same hwf _ _, fun j hj => Memory.read_write_other hwf x hj.symm⟩

/-- Settles O37: what no enabled stage writes stays, and without the effects the low-pass's sample is the output. -/
theorem disabledStagesHoldTheirHistory : Obligations.DisabledStagesHoldTheirHistory := by
  unfold Obligations.DisabledStagesHoldTheirHistory
  intro p snap x f draws
  refine ⟨processSample_eh x f draws, processSample_rh x f draws, fun hecho hreverb hdist => ?_⟩
  rw [processSample_lowpass x f draws hecho hreverb hdist]

/-- Settles O39: the branches of the clip, and which of them the infinities and `-0.0` take. -/
theorem clipCases : Obligations.ClipCases := by
  unfold Obligations.ClipCases
  intro L v hfin hL
  obtain ⟨hnan, hinf⟩ := isFinite_iff.1 hfin
  have hne {a w : Word} (ha : F32.isInf a = false) (hw : F32.isInf w = true) : a ≠ w := by
    rintro rfl
    simp [ha] at hw
  refine ⟨clip_of_isNaN, clip_of_fgt, clip_of_flt hL, clip_of_within, rfl, ?posInf, ?negInf, ?negZero⟩
  case posInf =>
    obtain ⟨-, -, -, -, habove, -⟩ := comparisons_posInf hnan
    exact clip_of_fgt (habove.2 (hne hinf rfl))
  case negInf =>
    obtain ⟨hbelow, -⟩ := comparisons_negInf (b := F32.neg L) (by rwa [isNaN_neg])
    exact clip_of_flt hL (hbelow.2 (hne (by rwa [isInf_neg]) rfl))
  case negZero =>
    obtain ⟨-, -, hpos⟩ := (flt_iff _ _).1 hL
    rw [key_silence] at hpos
    have hzero : F32.key 0x80000000#32 = 0 := rfl
    exact clip_of_within rfl (by simp [fgt, flt, hzero, hpos.le]) (by simp [flt, hzero, hpos.le])

/-- Settles O40: the stage is the clip of the product, and the clip gives a number of `[−L, +L]`. -/
theorem distortionStaysInRange : Obligations.DistortionStaysInRange := by
  unfold Obligations.DistortionStaysInRange
  exact fun p g x f draws => ⟨rfl, fun _ hL => clip_mem _ hL⟩

end Sys2Proof.Machine
end

section
/-! SUPPORT. The pipeline as a list of stages (R100): a sample passes those that are on, one after another, and then the
cursors advance (R101). -/

namespace Sys2Proof.Machine

/-- Pass the sample of a flow on to a stage. -/
def Flow.through (a : Flow) (stage : Word → Filters → Nat → Flow) : Flow := stage a.y a.fb a.draws

/-- The stages that are on, in the order of R100. -/
def Snapshot.stages (p : Params) (snap : Snapshot) : List (Word → Filters → Nat → Flow) :=
  [lowpass snap.cfg.lowpassAlpha]
    ++ (if snap.cfg.echoEnabled then [echo p snap.delay] else [])
    ++ (if snap.cfg.reverbEnabled then [reverb p snap.taps] else [])
    ++ (if snap.cfg.distortionEnabled then [distort p snap.cfg.distortionGain] else [])

/-- The flow after all stages, before the cursors advance. -/
def throughStages (p : Params) (snap : Snapshot) (x : Word) (f : Filters) (draws : Nat) : Flow :=
  (snap.stages p).foldl Flow.through { y := x, fb := f, draws := draws }

/-- A stage that is off stands for none (R91, R94). -/
theorem foldl_through_switched (on : Bool) (stage : Word → Filters → Nat → Flow) (a : Flow) :
    (if on then [stage] else []).foldl Flow.through a
      = if on then stage a.y a.fb a.draws else bypass a.y a.fb a.draws := by
  cases on <;> rfl

/-- A sample passes the stages, and then the cursors advance (R100, R101). -/
theorem processSample_eq (p : Params) (snap : Snapshot) (x : Word) (f : Filters) (draws : Nat) :
    processSample p snap x f draws =
      let last := throughStages p snap x f draws
      { last with fb := advanceCursors p.M last.fb } := by
  simp only [throughStages, Snapshot.stages, List.foldl_append, foldl_through_switched]
  rfl

theorem mem_stages {p : Params} {snap : Snapshot} {stage : Word → Filters → Nat → Flow} (h : stage ∈ snap.stages p) :
    stage = lowpass snap.cfg.lowpassAlpha ∨ stage = echo p snap.delay ∨ stage = reverb p snap.taps
      ∨ stage = distort p snap.cfg.distortionGain := by
  simp only [Snapshot.stages, List.mem_append, List.mem_singleton, List.mem_ite_nil_right] at h
  tauto

/-! ### The cursors -/

/-- The low-pass remembers what it gives (R88), and changes nothing else. -/
theorem lowpass_fb (a x : Word) (f : Filters) (draws : Nat) :
    (lowpass a x f draws).fb = { f with lpMem := (lowpass a x f draws).y } := by
  unfold lowpass
  split <;> rfl

/-- No stage moves a cursor. -/
theorem cursors_of_mem_stages {p : Params} {snap : Snapshot} {stage : Word → Filters → Nat → Flow}
    (h : stage ∈ snap.stages p) (a : Flow) : (a.through stage).fb.ei = a.fb.ei ∧ (a.through stage).fb.ri = a.fb.ri := by
  rcases mem_stages h with rfl | rfl | rfl | rfl
  · rw [Flow.through, lowpass_fb]
    exact ⟨rfl, rfl⟩
  · exact ⟨rfl, rfl⟩
  · exact ⟨rfl, rfl⟩
  · exact ⟨rfl, rfl⟩

theorem throughStages_cursors (p : Params) (snap : Snapshot) (x : Word) (f : Filters) (draws : Nat) :
    (throughStages p snap x f draws).fb.ei = f.ei ∧ (throughStages p snap x f draws).fb.ri = f.ri := by
  refine List.foldlRecOn (motive := fun a : Flow => a.fb.ei = f.ei ∧ a.fb.ri = f.ri) _ _ ⟨rfl, rfl⟩ ?_
  rintro a ⟨hei, hri⟩ stage hstage
  obtain ⟨hei', hri'⟩ := cursors_of_mem_stages hstage a
  exact ⟨hei'.trans hei, hri'.trans hri⟩

theorem processSample_cursors (p : Params) (snap : Snapshot) (x : Word) (f : Filters) (draws : Nat) :
    (processSample p snap x f draws).fb.ei = (f.ei + 1) % p.M
      ∧ (processSample p snap x f draws).fb.ri = (f.ri + 1) % p.M := by
  obtain ⟨hei, hri⟩ := throughStages_cursors p snap x f draws
  rw [processSample_eq, ← hei, ← hri]
  exact ⟨rfl, rfl⟩

/-- The cursor after one sample and `n` more (R101). -/
theorem cursor_succ_mod_add (M c n : Nat) : ((c + 1) % M + n) % M = (c + (n + 1)) % M := by
  rw [Nat.mod_add_mod, Nat.add_assoc, Nat.add_comm 1]

end Sys2Proof.Machine
end

section
/-! SUPPORT. Equality up to the payloads of NaNs goes through the pipeline (R18, R102; log 3). -/

namespace Sys2Proof.Machine

/-! ### Operations -/

theorem SameNumber.refl (a : Word) : SameNumber a a := .inl rfl

/-- The two drawn results of one operation are one number, or two NaNs. -/
theorem sameNumber_settle (r : Option Word) (draws draws' : Nat) :
    SameNumber (settle r draws).1 (settle r draws').1 := by
  cases r with
  | none => exact .inr ⟨isNaN_quietNaN _, isNaN_quietNaN _⟩
  | some w => exact .inl rfl

section Operations

variable {a a' b b' : Word} (ha : SameNumber a a') (hb : SameNumber b b') (draws draws' : Nat)
include ha hb

/-- An operation that gives a NaN for every NaN operand does not tell NaNs apart. -/
theorem SameNumber.settle {op : Word → Word → Option Word}
    (hop : ∀ a b, F32.isNaN a = true ∨ F32.isNaN b = true → op a b = none) :
    SameNumber (settle (op a b) draws).1 (settle (op a' b') draws').1 := by
  have heq : op a b = op a' b' := by
    rcases ha with rfl | ⟨h, h'⟩
    · rcases hb with rfl | ⟨h, h'⟩
      · rfl
      · rw [hop _ _ (.inr h), hop _ _ (.inr h')]
    · rw [hop _ _ (.inl h), hop _ _ (.inl h')]
  rw [heq]
  exact sameNumber_settle _ _ _

theorem SameNumber.fadd : SameNumber (fadd a b draws).1 (fadd a' b' draws').1 :=
  ha.settle hb _ _ fun a b h => (F32.add_eq_none_iff a b).2 (h.imp_right .inl)

theorem SameNumber.fsub : SameNumber (fsub a b draws).1 (fsub a' b' draws').1 :=
  ha.settle hb _ _ fun a b h => (F32.sub_eq_none_iff a b).2 (h.imp_right .inl)

theorem SameNumber.fmul : SameNumber (fmul a b draws).1 (fmul a' b' draws').1 :=
  ha.settle hb _ _ fun a b h => (F32.mul_eq_none_iff a b).2 (h.imp_right .inl)

end Operations

/-- The clip makes every NaN silence (R96). -/
theorem SameNumber.clip_eq {v v' : Word} (h : SameNumber v v') (L : Word) : clip L v = clip L v' := by
  rcases h with rfl | ⟨h, h'⟩
  · rfl
  · rw [clip_of_isNaN h, clip_of_isNaN h']

/-! ### Storage -/

theorem SameMemory.write {m m' : Memory} (h : SameMemory m m') (hm : m.wf = true) (hm' : m'.wf = true) (i : Nat)
    {v v' : Word} (hv : SameNumber v v') : SameMemory (m.write i v) (m'.write i v') := by
  intro j
  rw [Memory.read_write hm, Memory.read_write hm']
  split_ifs
  · exact hv
  · exact h j

/-- The reverb's writes, one in each history. -/
theorem sameMemory_map_write {hs hs' : List Memory} (h : List.Forall₂ SameMemory hs hs')
    (hwf : ∀ m ∈ hs, m.wf = true) (hwf' : ∀ m ∈ hs', m.wf = true) (i : Nat) {v v' : Word} (hv : SameNumber v v') :
    List.Forall₂ SameMemory (hs.map fun m => m.write i v) (hs'.map fun m => m.write i v') := by
  induction h with
  | nil => exact .nil
  | cons hm _ ih =>
    obtain ⟨hwf, hwfs⟩ := List.forall_mem_cons.1 hwf
    obtain ⟨hwf', hwfs'⟩ := List.forall_mem_cons.1 hwf'
    exact .cons (hm.write hwf hwf' i hv) (ih hwfs hwfs')

theorem sameNumber_tapSum (M ri : Nat) (taps : List Tap) {hs hs' : List Memory} (h : List.Forall₂ SameMemory hs hs')
    {acc acc' : Word} (hacc : SameNumber acc acc') (draws draws' : Nat) :
    SameNumber (tapSum M ri (hs.zip taps) acc draws).1 (tapSum M ri (hs'.zip taps) acc' draws').1 := by
  induction h generalizing taps acc acc' draws draws' with
  | nil => exact hacc
  | cons hm _ ih =>
    cases taps with
    | nil => exact hacc
    | cons tap taps => exact ih taps (hacc.fadd ((SameNumber.refl tap.weight).fmul (hm _) _ _) _ _) _ _

/-! ### Stages -/

/-- Two flows of legal filter states that hold the same numbers. -/
structure SameFlow (p : Params) (a a' : Flow) : Prop where
  y : SameNumber a.y a'.y
  fb : SameFilters a.fb a'.fb
  legal : a.fb.legal p = true
  legal' : a'.fb.legal p = true

section Stages

variable {p : Params} {a a' : Flow} (h : SameFlow p a a')
include h

theorem SameFlow.lowpass (alpha : Word) : SameFlow p (a.through (lowpass alpha)) (a'.through (lowpass alpha)) := by
  obtain ⟨hx, ⟨hmem, heh, hei, hrh, hri⟩, hlegal, hlegal'⟩ := h
  have hy : SameNumber (a.through (Machine.lowpass alpha)).y (a'.through (Machine.lowpass alpha)).y := by
    unfold Flow.through
    cases hle : fle alpha silence with
    | true =>
      rw [lowpass_of_fle _ _ _ hle, lowpass_of_fle _ _ _ hle]
      exact hx
    | false =>
      rw [lowpass_of_not_fle _ _ _ hle, lowpass_of_not_fle _ _ _ hle]
      have ht1 := (SameNumber.refl alpha).fmul hx a.draws a'.draws
      exact ht1.fadd (((SameNumber.refl one).fsub (.refl alpha) _ _).fmul hmem _ _) _ _
  refine ⟨hy, ?_, legal_lowpass _ _ _ hlegal, legal_lowpass _ _ _ hlegal'⟩
  simp only [Flow.through, lowpass_fb] at hy ⊢
  exact ⟨hy, heh, hei, hrh, hri⟩

theorem SameFlow.echo (D : Nat) : SameFlow p (a.through (echo p D)) (a'.through (echo p D)) := by
  obtain ⟨hx, ⟨hmem, heh, hei, hrh, hri⟩, hlegal, hlegal'⟩ := h
  obtain ⟨-, -, ⟨hwf, -⟩, -⟩ := (Filters.legal_iff _ _).1 hlegal
  obtain ⟨-, -, ⟨hwf', -⟩, -⟩ := (Filters.legal_iff _ _).1 hlegal'
  have hdry : SameMemory (a.fb.eh.write a.fb.ei a.y) (a'.fb.eh.write a.fb.ei a'.y) := heh.write hwf hwf' _ hx
  have hy : SameNumber (a.through (Machine.echo p D)).y (a'.through (Machine.echo p D)).y := by
    simp only [Flow.through, Machine.echo, ← hei]
    exact hx.fadd ((SameNumber.refl p.F).fmul (hdry _) _ _) _ _
  refine ⟨hy, ⟨hmem, ?_, hei, hrh, hri⟩, legal_echo _ _ _ hlegal, legal_echo _ _ _ hlegal'⟩
  simp only [Flow.through, Machine.echo, ← hei] at hy ⊢
  exact hdry.write (Memory.wf_write _ _ hwf) (Memory.wf_write _ _ hwf') _ hy

theorem SameFlow.reverb (taps : List Tap) : SameFlow p (a.through (reverb p taps)) (a'.through (reverb p taps)) := by
  obtain ⟨hx, ⟨hmem, heh, hei, hrh, hri⟩, hlegal, hlegal'⟩ := h
  obtain ⟨-, -, -, -, hwf, -⟩ := (Filters.legal_iff _ _).1 hlegal
  obtain ⟨-, -, -, -, hwf', -⟩ := (Filters.legal_iff _ _).1 hlegal'
  have hwritten := sameMemory_map_write hrh (fun m hm => (hwf m hm).1) (fun m hm => (hwf' m hm).1) a.fb.ri hx
  refine ⟨?_, ⟨hmem, heh, hei, ?_, hri⟩, legal_reverb _ _ _ hlegal, legal_reverb _ _ _ hlegal'⟩
  · have hsum := sameNumber_tapSum p.M a.fb.ri taps hwritten (SameNumber.refl silence) a.draws a'.draws
    simp only [Flow.through, Machine.reverb, ← hri]
    exact hx.fadd hsum _ _
  · simp only [Flow.through, Machine.reverb, ← hri]
    exact hwritten

theorem SameFlow.distort (g : Word) : SameFlow p (a.through (distort p g)) (a'.through (distort p g)) := by
  obtain ⟨hx, hfb, hlegal, hlegal'⟩ := h
  exact ⟨.inl ((hx.fmul (.refl g) _ _).clip_eq p.L), hfb, hlegal, hlegal'⟩

theorem SameFlow.through {snap : Snapshot} {stage : Word → Filters → Nat → Flow} (hstage : stage ∈ snap.stages p) :
    SameFlow p (a.through stage) (a'.through stage) := by
  rcases mem_stages hstage with rfl | rfl | rfl | rfl
  · exact h.lowpass _
  · exact h.echo _
  · exact h.reverb _
  · exact h.distort _

end Stages

theorem sameFlow_processSample {p : Params} {f f' : Filters} (snap : Snapshot) (x : Word) (draws draws' : Nat)
    (hf : f.legal p = true) (hf' : f'.legal p = true) (h : SameFilters f f') :
    SameFlow p (processSample p snap x f draws) (processSample p snap x f' draws') := by
  have hstages : SameFlow p (throughStages p snap x f draws) (throughStages p snap x f' draws') :=
    List.foldl_rel ⟨SameNumber.refl x, h, hf, hf'⟩ fun _ hstage _ _ ha => ha.through hstage
  rw [processSample_eq, processSample_eq]
  obtain ⟨hy, ⟨hmem, heh, hei, hrh, hri⟩, hlegal, hlegal'⟩ := hstages
  refine ⟨hy, ⟨hmem, heh, ?_, hrh, ?_⟩, legal_advanceCursors hlegal, legal_advanceCursors hlegal'⟩
  · exact congrArg (fun c => (c + 1) % p.M) hei
  · exact congrArg (fun c => (c + 1) % p.M) hri

end Sys2Proof.Machine
end

section
/-! SUPPORT. The paths of a RENDER (R105, R106) with legal parameters, whose snapshot draws no NaN. -/

namespace Sys2Proof.Machine

theorem takeSnapshot_keeps_state {s : State} (hp : legalParams s.par = true) :
    { s with draws := (takeSnapshot s.par s.cfg s.draws).2 } = s := by
  rw [takeSnapshot_draws hp]

/-- A RENDER in FILE mode is RENDER_FILE with the snapshot taken first (R99, R103). -/
theorem exec_render_file {s : State} (n : Count) (hmode : s.cfg.sourceMode = .file) :
    exec (.render n) s = .next (renderFile n (takeSnapshot s.par s.cfg s.draws).1
      { s with draws := (takeSnapshot s.par s.cfg s.draws).2 }) := by
  rcases execRender_cases n s with ⟨hring, -⟩ | ⟨-, e⟩
  · cases hmode.symm.trans hring
  · exact e

/-- An answer of `m` samples, and whatever follows it (R107). -/
theorem receiveAnswer_of_length {n : Count} {r : Word} {data : List Word} (rest : List Word)
    (h : data.length = min (r.toNat % 2 ^ 24) n.toNat) :
    receiveAnswer n (r :: (data ++ rest)) = some { samples := data, eos := r.msb, rest := rest } := by
  rw [← toNat_countOf] at h
  simp [receiveAnswer, ← h]

theorem awaitAnswer_of_some {r : InFlight} {s : State} {a : Answer} (h : receiveAnswer r.n s.file.rx = some a) :
    awaitAnswer r s = finishFile r a { s with file := { s.file with rx := a.rest }, inFlight := none } := by
  simp [awaitAnswer, h]

/-- RENDER_FILE from an answer with no sample (R106). -/
theorem finishFile_of_nil (r : InFlight) {a : Answer} {s : State} (hsrc : s.fileExhausted = false) (h : a.samples = []) :
    finishFile r a s = { s with fileExhausted := a.eos }.respond (if a.eos then .sourceExhausted else .ok)
      (a.samples ++ silentBlock (r.n.toNat - a.samples.length)) := by
  rw [finishFile, if_pos h, hsrc, Bool.false_or]

/-- RENDER_FILE from an answer with samples (R106). -/
theorem finishFile_of_ne_nil (r : InFlight) {a : Answer} {s : State} (hsrc : s.fileExhausted = false)
    (h : a.samples ≠ []) :
    finishFile r a s = respondProcessed { s with fileExhausted := a.eos } r.snap
      (if a.eos then .sourceExhausted else .ok) (a.samples ++ silentBlock (r.n.toNat - a.samples.length)) := by
  rw [finishFile, if_neg h, hsrc, Bool.false_or]

end Sys2Proof.Machine
end

section
/-! The obligations on the pipeline and the render driver (41_filters.md R101, 42_pipeline_render.md). -/

namespace Sys2Proof.Machine

/-- Settles O60: the stages as a list, and the pipeline's recursion over the block. -/
theorem stagesRunInOrder : Obligations.StagesRunInOrder := by
  unfold Obligations.StagesRunInOrder
  intro p snap x f draws
  have h := processSample_eq p snap x f draws
  exact ⟨(congrArg Flow.y h :), (congrArg Flow.draws h :), (congrArg Flow.fb h :), fun _ => rfl⟩

/-- Settles O38: by induction on the block, whose every sample advances each cursor by one. -/
theorem cursorsAdvanceOncePerSample : Obligations.CursorsAdvanceOncePerSample := by
  unfold Obligations.CursorsAdvanceOncePerSample
  intro p snap xs
  induction xs with
  | nil => exact fun f _ hei hri => ⟨(Nat.mod_eq_of_lt hei).symm, (Nat.mod_eq_of_lt hri).symm⟩
  | cons x xs ih =>
    intro f draws hei hri
    have hM : 0 < p.M := by omega
    obtain ⟨hei', hri'⟩ := processSample_cursors p snap x f draws
    obtain ⟨ihei, ihri⟩ := ih (processSample p snap x f draws).fb (processSample p snap x f draws).draws
      (hei' ▸ Nat.mod_lt _ hM) (hri' ▸ Nat.mod_lt _ hM)
    rw [hei', cursor_succ_mod_add] at ihei
    rw [hri', cursor_succ_mod_add] at ihri
    exact ⟨ihei, ihri⟩

/-- Settles O41: by induction on the block, whose every sample only passes into the low-pass memory. -/
theorem resetConfigurationIsTheIdentity : Obligations.ResetConfigurationIsTheIdentity := by
  unfold Obligations.ResetConfigurationIsTheIdentity
  intro p snap xs f draws hlp hecho hreverb hdist hei hri
  have hone (x : Word) (f : Filters) : processSample p snap x f draws
      = { y := x, fb := advanceCursors p.M { f with lpMem := x }, draws := draws } := by
    rw [processSample_lowpass x f draws hecho hreverb hdist, hlp, lowpass_of_fle x f draws rfl]
  induction xs generalizing f with
  | nil => simp [processBlock, Nat.mod_eq_of_lt hei, Nat.mod_eq_of_lt hri]
  | cons x xs ih =>
    have hM : 0 < p.M := by omega
    rw [processBlock, hone, ih _ (Nat.mod_lt _ hM) (Nat.mod_lt _ hM)]
    simp only [advanceCursors, cursor_succ_mod_add, List.getLastD_cons, List.length_cons]

/-- Settles O42: by induction on the block, whose every sample keeps two legal filter states the same. -/
theorem pipelineIsDeterministicUpToNanPayloads : Obligations.PipelineIsDeterministicUpToNanPayloads := by
  unfold Obligations.PipelineIsDeterministicUpToNanPayloads
  intro p snap xs
  induction xs with
  | nil => exact fun _ _ _ _ _ _ h => ⟨.nil, h⟩
  | cons x xs ih =>
    intro f f' draws draws' hf hf' h
    obtain ⟨hy, hfb, hlegal, hlegal'⟩ := sameFlow_processSample snap x draws draws' hf hf' h
    obtain ⟨hout, hlast⟩ := ih _ _ _ _ hlegal hlegal' hfb
    exact ⟨.cons hy hout, hlast⟩

/-- Settles O44: RENDER_RING with too few samples queued, whose snapshot has drawn no NaN. -/
theorem renderUnderrunIsSilent : Obligations.RenderUnderrunIsSilent := by
  unfold Obligations.RenderUnderrunIsSilent
  intro s n hp hmode hless
  rw [exec_render_ring n hmode, takeSnapshot_keeps_state hp]
  rcases renderRing_cases n (takeSnapshot s.par s.cfg s.draws).1 s with ⟨-, e⟩ | ⟨henough, -⟩
  · rw [e]
    rfl
  · exact absurd hless (Nat.not_lt.2 henough)

/-- Settles O45: the two cases of RENDER_FILE that send no request. -/
theorem renderWithoutAPull : Obligations.RenderWithoutAPull := by
  unfold Obligations.RenderWithoutAPull
  intro s n hp hmode
  rw [exec_render_file n hmode, takeSnapshot_keeps_state hp]
  constructor
  · intro hsrc
    rw [renderFile, if_pos hsrc]
    rfl
  · intro hsrc hn
    rw [renderFile, if_neg (by simp [hsrc]), if_pos hn]

/-- Settles O46: the pull's answer is whole, so that RENDER_FILE goes on from it, with samples or with none. -/
theorem renderFromTheFileSource : Obligations.RenderFromTheFileSource := by
  unfold Obligations.RenderFromTheFileSource
  intro s n r data rest hp hmode hsrc hn hidle hrx hlen
  have hanswer : receiveAnswer n (sendPull n s).file.rx = some { samples := data, eos := r.msb, rest := rest } := by
    rw [sendPull_file, hrx]
    exact receiveAnswer_of_length rest hlen
  have hpull : n.setWidth 32 = BitVec.ofNat 32 n.toNat := (BitVec.ofNat_toNat 32 n).symm
  rw [exec_render_pull hmode hsrc hn, takeSnapshot_keeps_state hp, awaitAnswer_of_some hanswer, sendPull_file, hpull,
    ← hidle]
  exact ⟨fun hdata => congrArg Host.Outcome.next (finishFile_of_ne_nil _ hsrc hdata),
    fun hdata => congrArg Host.Outcome.next (finishFile_of_nil _ hsrc hdata)⟩

end Sys2Proof.Machine
end

section
/-! SUPPORT. The value and the status of each clamp (R113 to R115), and what a CFG_WRITE of a clamped register answers with
them (R111). -/

namespace Sys2Proof.Machine

/-! ### Order -/

theorem flt_eq_false_of_fle {a b : Word} (h : fle a b = true) : flt b a = false := by
  obtain ⟨-, -, hle⟩ := (fle_iff a b).1 h
  rw [Bool.eq_false_iff, ne_eq, flt_iff]
  rintro ⟨-, -, hlt⟩
  omega

/-- What is above 1.0 is at least `+0.0`. -/
theorem fle_silence_of_fgt_one {v : Word} (h : fgt v one = true) : fle silence v = true := by
  obtain ⟨-, hnan, habove⟩ := (flt_iff one v).1 h
  have hone : 0 ≤ F32.key one := by decide
  exact (fle_iff silence v).2 ⟨rfl, hnan, by rw [key_silence]; omega⟩

/-- A NaN is above nothing, and no negative value is above 1.0. -/
theorem fgt_one_eq_false {v : Word} (h : F32.isNaN v = true ∨ flt v silence = true) : fgt v one = false := by
  rw [Bool.eq_false_iff]
  intro habove
  have hlow := fle_silence_of_fgt_one habove
  rcases h with hnan | hneg
  · obtain ⟨-, hnum, -⟩ := (fle_iff silence v).1 hlow
    exact Bool.false_ne_true (hnum.symm.trans hnan)
  · exact Bool.false_ne_true ((flt_eq_false_of_fle hlow).symm.trans hneg)

/-! ### The clamps -/

section Clamp

variable {p : Params} {v : Word}

theorem clampDelay_of_lt (h : v.toInt < 1) : clampDelay p v = (1#32, .invalidParameter) := if_pos h

theorem clampDelay_of_gt (hlow : 1 ≤ v.toInt) (h : (p.delayMsMax : Int) < v.toInt) :
    clampDelay p v = (zext p.delayMsMax, .invalidParameter) := by
  rw [clampDelay, s32, if_neg hlow.not_gt, if_pos h]

theorem clampDelay_of_within (hlow : 1 ≤ v.toInt) (hhigh : v.toInt ≤ (p.delayMsMax : Int)) :
    clampDelay p v = (v, .ok) := by
  rw [clampDelay, s32, if_neg hlow.not_gt, if_neg hhigh.not_gt]

theorem clampGain_of_rejected (h : F32.isNaN v = true ∨ flt v silence = true) :
    clampGain v = (silence, .invalidParameter) := by
  rcases h with h | h <;> simp [clampGain, h]

theorem clampGain_of_fle (h : fle silence v = true) : clampGain v = (if v = negZero then silence else v, .ok) := by
  obtain ⟨-, hnan, -⟩ := (fle_iff silence v).1 h
  simp only [clampGain, hnan, flt_eq_false_of_fle h, Bool.false_eq_true, if_false]
  split_ifs <;> rfl

/-- Up to 1.0 an LP_ALPHA is clamped as a DIST_GAIN is. -/
theorem clampAlpha_of_not_fgt (h : fgt v one = false) : clampAlpha v = clampGain v := by
  simp [clampAlpha, clampGain, h]

theorem clampAlpha_of_fgt (h : fgt v one = true) : clampAlpha v = (one, .invalidParameter) := by
  have hlow := fle_silence_of_fgt_one h
  obtain ⟨-, hnan, -⟩ := (fle_iff silence v).1 hlow
  simp [clampAlpha, hnan, flt_eq_false_of_fle hlow, h]

end Clamp

/-! ### The writes -/

section Write

variable {s : State} {v c : Word} {st : Status}

theorem exec_cfgWriteDelayMs (h : clampDelay s.par v = (c, st)) :
    exec (.cfgWriteDelayMs v) s = .next (s.commit { s.cfg with delayMs := c } st) := by
  change execCfgWriteDelayMs v s = _
  rw [execCfgWriteDelayMs, h]

theorem exec_cfgWriteLpAlpha (h : clampAlpha v = (c, st)) :
    exec (.cfgWriteLpAlpha v) s = .next (s.commit { s.cfg with lowpassAlpha := c } st) := by
  change execCfgWriteLpAlpha v s = _
  rw [execCfgWriteLpAlpha, h]

theorem exec_cfgWriteDistGain (h : clampGain v = (c, st)) :
    exec (.cfgWriteDistGain v) s = .next (s.commit { s.cfg with distortionGain := c } st) := by
  change execCfgWriteDistGain v s = _
  rw [execCfgWriteDistGain, h]

end Write

end Sys2Proof.Machine
end

section
/-! The obligations on NOP and the configuration writes (43_configuration.md, R110 to R116). -/

namespace Sys2Proof.Machine

/-- Settles O19: NOP's meaning is the response and nothing else. -/
theorem nopOnlyAnswers : Obligations.NopOnlyAnswers := by
  unfold Obligations.NopOnlyAnswers
  exact fun _ => rfl

/-- Settles O49: each of the three writes commits bit 0, with no clamp. -/
theorem oneBitRegistersKeepBitZero : Obligations.OneBitRegistersKeepBitZero := by
  unfold Obligations.OneBitRegistersKeepBitZero
  exact fun _ _ => ⟨rfl, rfl, rfl⟩

/-- Settles O50: the three cases of the delay's clamp. -/
theorem delayWritesClamp : Obligations.DelayWritesClamp := by
  unfold Obligations.DelayWritesClamp
  intro s v
  exact ⟨fun hlow => exec_cfgWriteDelayMs (clampDelay_of_lt hlow),
    fun hlow hhigh => exec_cfgWriteDelayMs (clampDelay_of_gt hlow hhigh),
    fun hlow hhigh => exec_cfgWriteDelayMs (clampDelay_of_within hlow hhigh)⟩

/-- Settles O51: above 1.0 the clamp commits 1.0, and up to 1.0 it is the gain's. -/
theorem alphaWritesClamp : Obligations.AlphaWritesClamp := by
  unfold Obligations.AlphaWritesClamp
  intro s v
  refine ⟨fun h => ?rejected, fun h => exec_cfgWriteLpAlpha (clampAlpha_of_fgt h), fun hlow hhigh => ?within⟩
  case rejected =>
    exact exec_cfgWriteLpAlpha ((clampAlpha_of_not_fgt (fgt_one_eq_false h)).trans (clampGain_of_rejected h))
  case within =>
    exact exec_cfgWriteLpAlpha
      ((clampAlpha_of_not_fgt (flt_eq_false_of_fle hhigh)).trans (clampGain_of_fle hlow))

/-- Settles O52: the two cases of the gain's clamp. -/
theorem gainWritesClamp : Obligations.GainWritesClamp := by
  unfold Obligations.GainWritesClamp
  intro s v
  exact ⟨fun h => exec_cfgWriteDistGain (clampGain_of_rejected h),
    fun h => exec_cfgWriteDistGain (clampGain_of_fle h)⟩

/-- Settles O53: bit 0 chooses the source, and in both cases the source is re-armed. -/
theorem sourceModeWritesRearm : Obligations.SourceModeWritesRearm := by
  unfold Obligations.SourceModeWritesRearm
  intro s v
  have hmode : SourceMode.ofBit (bit0 v) = if v.getLsbD 0 then .file else .ring := by
    rw [bit0]
    cases v.getLsbD 0 <;> rfl
  rw [← hmode]
  rfl

end Sys2Proof.Machine
end

section
/-! SUPPORT. When a step goes on and when it faults (R120, R130), and what it does with a word that decodes to no command
(R70, R71, R119). -/

namespace Sys2Proof

theorem responseWords_eq (w : Word) :
    responseWords w = if opcOf w = 2#4 then (countOf w).toNat else if opcOf w = 4#4 then 1 else 0 := by
  unfold responseWords
  split
  · rw [if_pos (BitVec.eq_of_toNat_eq ‹_›)]
  · rw [if_neg (by bv_omega), if_pos (BitVec.eq_of_toNat_eq ‹_›)]
  · rw [if_neg (by bv_omega), if_neg (by bv_omega)]

end Sys2Proof

namespace Sys2Proof.Machine

/-! ### Faults -/

section Fault

variable {s : State}

theorem step_of_broken (h : s.intact = false) : step s = .fault .invariantBroken := by
  simp [step, fetch, h]

/-- Every step of a state that breaks no invariant goes on, a command's whatever its status (R120). -/
theorem safe_step_of_intact (h : s.intact = true) : Safe (step s) := by
  rcases step_cases s with ⟨hbroken, -⟩ | ⟨-, -, e⟩ | ⟨-, -, r, -, e⟩ | ⟨-, -, -, -, e⟩
    | ⟨-, -, -, p, frame, rest, i, -, -, -, e⟩ | ⟨-, -, -, p, frame, rest, why, -, -, -, e⟩
  · exact absurd (h.symm.trans hbroken) (by decide)
  · exact ⟨_, e⟩
  · exact ⟨_, e⟩
  · exact ⟨_, e⟩
  · exact e ▸ exec_next i _
  · exact ⟨_, e⟩

theorem step_eq_fault_iff : step s = .fault .invariantBroken ↔ s.intact = false := by
  refine ⟨fun hfault => Bool.eq_false_iff.2 fun hintact => ?_, step_of_broken⟩
  obtain ⟨t, ht⟩ := safe_step_of_intact hintact
  cases ht.symm.trans hfault

theorem step_ne_refused (r : Refusal) : step s ≠ .refused r := by
  intro hrefused
  cases hintact : s.intact with
  | false => cases (step_of_broken hintact).symm.trans hrefused
  | true =>
    obtain ⟨t, ht⟩ := safe_step_of_intact hintact
    cases ht.symm.trans hrefused

/-- No move mends a state that breaks an invariant: its step faults, and the outside world touches nothing that the check
looks at (log 10). -/
theorem intact_apply_of_broken (h : s.intact = false) (m : Move) : (m.apply s).intact = false := by
  cases m with
  | step => simpa [Move.apply, step_of_broken h] using h
  | send p frame => simpa [Move.apply, State.intact] using h
  | fileAnswer ws => exact h
  | assertReset => exact h

end Fault

/-! ### A word that decodes to no command -/

section Illegal

variable {s : State} {p : Port} {frame rest : List Word} {why : Illegal}

theorem fetchFrom_of_illegal (hframe : nextFrame (s.wire p).rx = some (frame, rest))
    (hdecode : decode p frame = .illegal why) :
    fetchFrom s p = .illegal (frame.headD 0#32) (s.takeFrom p rest) := by
  simp [fetchFrom, hframe, hdecode]

theorem refuseCommand_takeFrom_wire (w : Word) (q : Port) :
    ((s.takeFrom p rest).refuseCommand w).wire q
      = if q = p then { rx := rest, tx := (s.wire q).tx ++ 0x00000005#32 :: List.replicate (responseWords w) 0#32 }
        else s.wire q := by
  rw [State.refuseCommand, State.respond_wire, State.takeFrom_grant, State.takeFrom_wire]
  split <;> rfl

/-- Taking the frame and answering it change the port's words and the model's grant and turn, and nothing else (R119). -/
theorem refuseCommand_takeFrom_frame (w : Word) :
    { (s.takeFrom p rest).refuseCommand w with
      prod := s.prod, rend := s.rend, ctrl := s.ctrl, grant := s.grant, turn := s.turn } = s := by
  cases p <;> rfl

end Illegal

end Sys2Proof.Machine
end

section
/-! The obligations on faults, runs from reset and ILLEGAL_COMMAND (60_exceptions.md). -/

namespace Sys2Proof.Machine

/-- Settles O13: every reachable state meets the invariant, so it is intact and its step goes on. -/
theorem noRunFromResetStops : Obligations.NoRunFromResetStops := by
  unfold Obligations.NoRunFromResetStops
  intro p s hp hreach
  have hinv := inv_of_reachable hp hreach
  exact ⟨hinv, safe_step_of_intact (intact_of_inv hinv)⟩

/-- Settles O10: the check alone decides on the fault, and a broken state stays broken under every move. -/
theorem stepFaultsExactlyOnABrokenInvariant : Obligations.StepFaultsExactlyOnABrokenInvariant := by
  unfold Obligations.StepFaultsExactlyOnABrokenInvariant
  exact fun s => ⟨step_eq_fault_iff, step_ne_refused,
    fun m hfault => step_of_broken (intact_apply_of_broken (step_eq_fault_iff.1 hfault) m)⟩

/-- Settles O8: the frame is taken whole, and the refusal answers it with the length of R71. -/
theorem illegalCommandChangesNothing : Obligations.IllegalCommandChangesNothing := by
  unfold Obligations.IllegalCommandChangesNothing
  intro s p frame rest why hreset hintact hidle hpick hframe hdecode
  obtain ⟨w, payload, rfl, hlen, hrx⟩ := nextFrame_spec hframe
  refine ⟨w, payload, List.replicate (responseWords w) 0#32, (s.takeFrom p rest).refuseCommand w, rfl, hrx, ?next, ?length,
    ?zeros, ?port, fun q hq => ?others, ?turn, refuseCommand_takeFrom_frame w⟩
  case next =>
    rw [step, fetch_of_pick hreset hintact hidle hpick, fetchFrom_of_illegal hframe hdecode, List.headD_cons]
  case length =>
    rw [hlen, payloadWords_eq, toNat_countOf, opcOf]
  case zeros =>
    rw [responseWords_eq, toNat_countOf, opcOf]
  case port =>
    rw [refuseCommand_takeFrom_wire, if_pos rfl]
  case others =>
    rw [refuseCommand_takeFrom_wire, if_neg hq]
  case turn =>
    rw [State.refuseCommand, State.respond_turn, State.takeFrom_turn]

end Sys2Proof.Machine
end

section
/-! The obligation on reset (70_reset_and_hazards.md). -/

namespace Sys2Proof.Machine

/-- With reset applied, an intact state's step is reset, whatever waits and whatever the ports hold (R132). -/
theorem step_of_reset {s : State} (hintact : s.intact = true) (hreset : s.resetIn = true) :
    step s = .next s.applyReset := by
  simp [step, fetch, hintact, hreset]

/-- Settles O15: the step is `applyReset`, and its laws give each part of the next state. -/
theorem resetDiscardsPendingCommands : Obligations.ResetDiscardsPendingCommands := by
  unfold Obligations.ResetDiscardsPendingCommands
  intro s hintact hreset
  exact ⟨s.applyReset, step_of_reset hintact hreset, s.applyReset_par, s.applyReset_rb, s.applyReset_fb, s.applyReset_cfg,
    s.applyReset_fileExhausted, s.applyReset_inFlight, s.applyReset_resetIn, s.applyReset_wire⟩

end Sys2Proof.Machine
end
